-- ==== Sys2Proof/Word.lean ====
section
/-! DEFINITION. The units of data of RSPF: bytes and nibbles (spec 00_scope.md R12). -/

namespace Sys2Proof

/-- An 8-bit unsigned integer 0..255 (R12). Every unit on the two byte streams is one byte (R67). -/
abbrev Byte := BitVec 8

/-- A 4-bit unsigned integer 0..15: the value of one hexadecimal digit (R27, R91). -/
abbrev Nibble := BitVec 4

end Sys2Proof
end

