-- ==== Sys2Proof/Config.lean ====
section
/-! DEFINITION. The parameters of an RSPF instance (spec 00_scope.md R8) and the two free values of the model. -/

namespace Sys2Proof

/-- The three numeric parameters of R8. They are constant for the life of an instance and no operation changes them.
DESIGN CHOICE (log entry 1, safe): they are an argument of every rule, carried as a field of the state. -/
structure Config where
  /-- `MAX_FRAME`: the largest frame in wire bytes, from the `$` through the second checksum digit. -/
  maxFrame : Nat
  /-- `MAX_PAYLOAD`: the capacity in bytes of `rx_payload`. -/
  maxPayload : Nat
  /-- `MAX_RETRIES`: how many retransmissions of one frame are allowed. -/
  maxRetries : Nat
deriving DecidableEq, Repr

/-- The documented defaults of R8: `MAX_FRAME = 4096`, `MAX_PAYLOAD = MAX_FRAME - 4`, `MAX_RETRIES = 3`. -/
def Config.documented : Config := ⟨4096, 4092, 3⟩

/-- The constraint of R8 on the parameters: `MAX_FRAME` is at least 4, the length of the shortest frame `$#00`
(the other two are at least 0). -/
abbrev Config.WF (c : Config) : Prop := 4 ≤ c.maxFrame

/-- FREE VALUE (log entry 5, safe). The bytes that `retry_or_fail` (R186) appends when it is called outside its stated
precondition, with `tx_stored = None`: the spec states no frame to append there. The argument is a use counter, so
that two uses need not agree. -/
opaque Config.freeFrame : Nat → List Byte

/-- FREE VALUE (log entry 9, safe). How many of the waiting operations of other agents fall between one byte of a pushed chunk and the next
(20_memory.md R67: a `PUSH` is not atomic as a whole, and any interleaving is allowed, R10, R239). The argument is a
use counter, so that every gap between two bytes has its own number. -/
opaque Config.freeTurns : Nat → Nat

end Sys2Proof
end

