-- ==== Sys2Proof/Syntax.lean ====
section
/-! DEFINITION. The operations of RSPF: one constructor of `Instr` per row of spec/opcode_table.json, and the names its
operands are made of (deframer states, reject causes, fatal causes, deframer events). -/

namespace Sys2Proof

/-- `rx_state` (10_state.md R21): where in a frame the next received byte falls. It is also half of the selection key
of the received-byte rows (30_encoding.md R102). -/
inductive RxState where
  | hunt | body | esc | rle | ck1 | ck2
deriving DecidableEq, Repr

/-- The cause of a `Reject` (00_scope.md R15, 60_exceptions.md R221). -/
inductive Cause where
  | badRle | rawDollar | oversize | badCkDigit | ckMismatch
deriving DecidableEq, Repr

/-- Why a session is `CLOSED` (10_state.md R34); the spec's `NONE` is the `none` of `Option CloseCause`. -/
inductive CloseCause where
  | retryExhausted | linkDown
deriving DecidableEq, Repr

/-- A deframer event (00_scope.md R15): the source's `PacketOrSignal`. -/
inductive Event where
  | ack
  | nack
  | interrupt
  | reject (cause : Cause)
  | packet (payload : List Byte)
deriving DecidableEq, Repr

/-- One operation: one row of spec/opcode_table.json. The operands are those the row's rule names. -/
inductive Instr where
  -- format wire-rx: the received-byte classes of R90 (rules R145 to R160)
  | huntStart
  | huntAck
  | huntNack
  | huntInt
  | huntNoise (b : Byte)
  | escLit (b : Byte)
  | inframeInt (st : RxState)
  | bodyEnd
  | bodyEscMark
  | bodyRleMark
  | bodyRawDollar
  | bodyData (b : Byte)
  | rleCount (b : Byte)
  | rleBadcount (b : Byte)
  | ck1Digit (b : Byte)
  | ck1Baddigit (b : Byte)
  | ck2Digit (b : Byte)
  | ck2Baddigit (b : Byte)
  -- format host-op: the host operations of R97 (rules R189 to R195, R201)
  | hStatus
  | hSend (payload : List Byte)
  | hRecv
  | hSetNoack
  | hTimeout
  | hLinkDown
  | hSetRle (v : Bool)
  | hReserved7 (arg : List Byte)
  | hReserved8F (low : BitVec 3) (arg : List Byte)
  -- format port (rules R181, R196, R197)
  | rxByte (b : Byte)
  | txPop
  | reset
  -- format event: the session's reactions (rules R182 to R185, R188)
  | evAck
  | evNack
  | evPacket (payload : List Byte)
  | evReject (cause : Cause)
  | evInterrupt
  -- format function (rules R110 to R118, R162, R163)
  | cksum (s : List Byte)
  | hexenc (c : Byte)
  | hexdec (b : Byte)
  | escEnc (b : Byte)
  | rlePlan (run : Nat)
  | encodeBody (payload : List Byte) (rle : Bool)
  | encodeFrame (payload : List Byte) (rle : Bool)
  | decodeFrame (buffer : List Byte)
  | push (chunk : List Byte)
  | next
  -- format helper (rules R140 to R144, R180, R186, R187)
  | deframeStep (b : Byte)
  | countWire
  | markBad (cause : Cause)
  | store (v : Byte)
  | clearFrame
  | sessionEvent (e : Event)
  | retryOrFail
  | enterClosed (cause : CloseCause)
deriving DecidableEq, Repr

end Sys2Proof
end

