-- ==== Sys2Proof/WellFormed.lean ====
section
/-! DEFINITION. Which terms of `Instr` are rows of spec/opcode_table.json with operands the row admits: the byte ranges
of 30_encoding.md R90 and the operand range of `rle_plan` (40_codec.md R114). -/

namespace Sys2Proof

/-- The digits of R91: `0`-`9`, `A`-`F`, `a`-`f`. -/
abbrev IsHexDigit (b : Byte) : Prop :=
  (0x30 ≤ b.toNat ∧ b.toNat ≤ 0x39) ∨ (0x41 ≤ b.toNat ∧ b.toNat ≤ 0x46) ∨ (0x61 ≤ b.toNat ∧ b.toNat ≤ 0x66)

/-- The valid run counts of R88: 0x20..0x7E. -/
abbrev IsRunCount (b : Byte) : Prop := 0x20 ≤ b.toNat ∧ b.toNat ≤ 0x7E

/-- The operands lie in the ranges of the row: the `byte_ranges` and `rx_state` of the received-byte rows (R90, R102),
`run >= 4` for `RLE_PLAN` (R114). Every other row admits every operand its type has. -/
def Instr.wf : Instr → Bool
  | .huntNoise b => decide (b ≠ 0x24 ∧ b ≠ 0x2B ∧ b ≠ 0x2D ∧ b ≠ 0x03)
  | .inframeInt st => decide (st ≠ .hunt ∧ st ≠ .esc)
  | .bodyData b => decide (b ≠ 0x03 ∧ b ≠ 0x23 ∧ b ≠ 0x7D ∧ b ≠ 0x2A ∧ b ≠ 0x24)
  | .rleCount b => decide (IsRunCount b)
  | .rleBadcount b => decide (b ≠ 0x03 ∧ ¬ IsRunCount b)
  | .ck1Digit b => decide (IsHexDigit b)
  | .ck1Baddigit b => decide (b ≠ 0x03 ∧ ¬ IsHexDigit b)
  | .ck2Digit b => decide (IsHexDigit b)
  | .ck2Baddigit b => decide (b ≠ 0x03 ∧ ¬ IsHexDigit b)
  | .rlePlan run => decide (4 ≤ run)
  | .huntStart | .huntAck | .huntNack | .huntInt | .escLit _ | .bodyEnd | .bodyEscMark | .bodyRleMark
  | .bodyRawDollar => true
  | .hStatus | .hSend _ | .hRecv | .hSetNoack | .hTimeout | .hLinkDown | .hSetRle _ | .hReserved7 _
  | .hReserved8F _ _ => true
  | .rxByte _ | .txPop | .reset => true
  | .evAck | .evNack | .evPacket _ | .evReject _ | .evInterrupt => true
  | .cksum _ | .hexenc _ | .hexdec _ | .escEnc _ | .encodeBody _ _ | .encodeFrame _ _ | .decodeFrame _ | .push _
  | .next => true
  | .deframeStep _ | .countWire | .markBad _ | .store _ | .clearFrame | .sessionEvent _ | .retryOrFail
  | .enterClosed _ => true

/-- An instruction is well formed. -/
abbrev Instr.WF (i : Instr) : Prop := i.wf = true

end Sys2Proof
end

