-- ==== Sys2Proof/Decode.lean ====
section
/-! DEFINITION. From the bytes of a port event to an operation, and back. The received-byte rows follow the byte-class
map of 30_encoding.md R90, the host rows the codes of R97. The rows without a numeric code (R102: formats `port`,
`event`, `function`, `helper`) are told apart by the port they come in at and, where one port carries several, by a
selector byte of the model's own (DESIGN CHOICE, log entry 4, safe: a label, as R102 allows). -/

namespace Sys2Proof

/-- The ports an operation comes in at, one per format of R102, the format `port` split by agent (R10). -/
inductive Port where
  /-- the input of the stand-alone Stream Decoder: one received byte, keyed by `rx_state` (R90, R102) -/
  | wire
  /-- the host's command port (R97) -/
  | host
  /-- the transport receive side: `RX_BYTE` -/
  | rx
  /-- the transport transmit side: `TX_POP` -/
  | tx
  /-- reset: `RESET` -/
  | rst
  /-- the session's input: one deframer event (R180) -/
  | event
  /-- calls of the Codec functions and of `PUSH` and `NEXT` -/
  | func
  /-- calls of the named subroutines of the rules -/
  | helper
deriving DecidableEq, Repr

/-- One operation as an agent presents it: the port and the bytes given there. -/
structure PortEvent where
  port : Port
  bytes : List Byte
deriving DecidableEq, Repr

/-- Why some bytes at a port are no operation of the spec. -/
inductive DecodeError where
  /-- fewer or more bytes than the operation has -/
  | badLength
  /-- a state code other than 0 to 5 in a received-byte key (R21: 6 and 7 never occur) -/
  | noSuchState
  /-- a host code above 4 bits (R97) -/
  | noSuchHostCode
  /-- a selector byte that names no row -/
  | noSuchSelector
  /-- a cause or event code outside its table (R34, R221) -/
  | noSuchCause
  /-- an operand outside the range of its row (`H_SET_RLE`: 1 bit; `RLE_PLAN`: at least 4) -/
  | operandRange
deriving DecidableEq, Repr

/-! ### Codes of the enumerations -/

/-- The code of a deframer state (R21). -/
def RxState.code : RxState → Byte
  | .hunt => 0 | .body => 1 | .esc => 2 | .rle => 3 | .ck1 => 4 | .ck2 => 5

/-- The deframer state of a code (R21); 6 and above name none. -/
def rxStateOfCode (c : Byte) : Option RxState :=
  if c = 0 then some .hunt else if c = 1 then some .body else if c = 2 then some .esc
  else if c = 3 then some .rle else if c = 4 then some .ck1 else if c = 5 then some .ck2 else none

/-- The code of a reject cause (R25, R221); 0 is `OK` and no cause. -/
def Cause.code : Cause → Byte
  | .badRle => 1 | .rawDollar => 2 | .oversize => 3 | .badCkDigit => 4 | .ckMismatch => 5

/-- The reject cause of a code (R221). -/
def causeOfCode (c : Byte) : Option Cause :=
  if c = 1 then some .badRle else if c = 2 then some .rawDollar else if c = 3 then some .oversize
  else if c = 4 then some .badCkDigit else if c = 5 then some .ckMismatch else none

/-- The code of a fatal cause (R34); 0 is `NONE` and no cause. -/
def CloseCause.code : CloseCause → Byte
  | .retryExhausted => 1 | .linkDown => 2

/-- The fatal cause of a code (R34). -/
def closeCauseOfCode (c : Byte) : Option CloseCause :=
  if c = 1 then some .retryExhausted else if c = 2 then some .linkDown else none

/-! ### The received-byte rows -/

/-- The byte-class map of R90: which row a received byte selects in each deframer state, the rows of one state tried
top to bottom. -/
def selectRow (st : RxState) (b : Byte) : Instr :=
  match st with
  | .hunt =>
    if b = 0x24 then .huntStart            -- `$`
    else if b = 0x2B then .huntAck         -- `+`
    else if b = 0x2D then .huntNack        -- `-`
    else if b = 0x03 then .huntInt
    else .huntNoise b
  | .esc => .escLit b
  | .body =>
    if b = 0x03 then .inframeInt .body
    else if b = 0x23 then .bodyEnd         -- `#`
    else if b = 0x7D then .bodyEscMark     -- the escape marker
    else if b = 0x2A then .bodyRleMark     -- `*`
    else if b = 0x24 then .bodyRawDollar   -- `$`
    else .bodyData b
  | .rle =>
    if b = 0x03 then .inframeInt .rle
    else if IsRunCount b then .rleCount b
    else .rleBadcount b
  | .ck1 =>
    if b = 0x03 then .inframeInt .ck1
    else if IsHexDigit b then .ck1Digit b
    else .ck1Baddigit b
  | .ck2 =>
    if b = 0x03 then .inframeInt .ck2
    else if IsHexDigit b then .ck2Digit b
    else .ck2Baddigit b

/-- One row of format `wire-rx` of spec/opcode_table.json: its mnemonic, `match`, `mask` and `byte_ranges`. -/
structure WireRow where
  mnemonic : String
  pattern : Nat
  mask : Nat
  ranges : List (Nat × Nat)
deriving DecidableEq, Repr

/-- The 18 rows of format `wire-rx`, in the order they stand in spec/opcode_table.json. -/
def wireRows : List WireRow :=
  [ ⟨"HUNT_START", 0x024, 0x7FF, [(0x24, 0x24)]⟩,
    ⟨"HUNT_ACK", 0x02B, 0x7FF, [(0x2B, 0x2B)]⟩,
    ⟨"HUNT_NACK", 0x02D, 0x7FF, [(0x2D, 0x2D)]⟩,
    ⟨"HUNT_INT", 0x003, 0x7FF, [(0x03, 0x03)]⟩,
    ⟨"HUNT_NOISE", 0x000, 0x700, [(0x00, 0x02), (0x04, 0x23), (0x25, 0x2A), (0x2C, 0x2C), (0x2E, 0xFF)]⟩,
    ⟨"ESC_LIT", 0x200, 0x700, [(0x00, 0xFF)]⟩,
    ⟨"INFRAME_INT", 0x003, 0x0FF, [(0x03, 0x03)]⟩,
    ⟨"BODY_END", 0x123, 0x7FF, [(0x23, 0x23)]⟩,
    ⟨"BODY_ESC_MARK", 0x17D, 0x7FF, [(0x7D, 0x7D)]⟩,
    ⟨"BODY_RLE_MARK", 0x12A, 0x7FF, [(0x2A, 0x2A)]⟩,
    ⟨"BODY_RAW_DOLLAR", 0x124, 0x7FF, [(0x24, 0x24)]⟩,
    ⟨"BODY_DATA", 0x100, 0x700, [(0x00, 0x02), (0x04, 0x22), (0x25, 0x29), (0x2B, 0x7C), (0x7E, 0xFF)]⟩,
    ⟨"RLE_COUNT", 0x300, 0x700, [(0x20, 0x7E)]⟩,
    ⟨"RLE_BADCOUNT", 0x300, 0x700, [(0x00, 0x02), (0x04, 0x1F), (0x7F, 0xFF)]⟩,
    ⟨"CK1_DIGIT", 0x400, 0x700, [(0x30, 0x39), (0x41, 0x46), (0x61, 0x66)]⟩,
    ⟨"CK1_BADDIGIT", 0x400, 0x700, [(0x00, 0x02), (0x04, 0x2F), (0x3A, 0x40), (0x47, 0x60), (0x67, 0xFF)]⟩,
    ⟨"CK2_DIGIT", 0x500, 0x700, [(0x30, 0x39), (0x41, 0x46), (0x61, 0x66)]⟩,
    ⟨"CK2_BADDIGIT", 0x500, 0x700, [(0x00, 0x02), (0x04, 0x2F), (0x3A, 0x40), (0x47, 0x60), (0x67, 0xFF)]⟩ ]

/-- A row applies to a key when the masked key is the pattern and the key's byte lies in a range of the row (R102). -/
def WireRow.applies (r : WireRow) (key : Nat) : Bool :=
  (key &&& r.mask == r.pattern) && r.ranges.any fun p => decide (p.1 ≤ key % 256 ∧ key % 256 ≤ p.2)

/-- The mnemonic of the first row that applies to a key (R102: "the first that applies wins"). -/
def tableMnemonic (key : Nat) : Option String :=
  (wireRows.find? fun r => r.applies key).map WireRow.mnemonic

/-- The mnemonic of a received-byte instruction, and `none` for the other formats. -/
def Instr.wireMnemonic : Instr → Option String
  | .huntStart => some "HUNT_START"
  | .huntAck => some "HUNT_ACK"
  | .huntNack => some "HUNT_NACK"
  | .huntInt => some "HUNT_INT"
  | .huntNoise _ => some "HUNT_NOISE"
  | .escLit _ => some "ESC_LIT"
  | .inframeInt _ => some "INFRAME_INT"
  | .bodyEnd => some "BODY_END"
  | .bodyEscMark => some "BODY_ESC_MARK"
  | .bodyRleMark => some "BODY_RLE_MARK"
  | .bodyRawDollar => some "BODY_RAW_DOLLAR"
  | .bodyData _ => some "BODY_DATA"
  | .rleCount _ => some "RLE_COUNT"
  | .rleBadcount _ => some "RLE_BADCOUNT"
  | .ck1Digit _ => some "CK1_DIGIT"
  | .ck1Baddigit _ => some "CK1_BADDIGIT"
  | .ck2Digit _ => some "CK2_DIGIT"
  | .ck2Baddigit _ => some "CK2_BADDIGIT"
  | _ => none

/-! ### Decoding one port event

At the wire port the bytes of an operation are the 11-bit key of R102 as two bytes, least significant first: the
received byte, then the code of `rx_state`. -/

/-- The received-byte key: the byte, then the state code (R102). -/
def decodeWire : List Byte → Except DecodeError Instr
  | [b, c] =>
    match rxStateOfCode c with
    | some st => .ok (selectRow st b)
    | none => .error .noSuchState
  | _ => .error .badLength

/-- An operation without operands admits no operand bytes. -/
def noArg (i : Instr) : List Byte → Except DecodeError Instr
  | [] => .ok i
  | _ :: _ => .error .badLength

/-- An operation with one byte operand. -/
def byteArg (f : Byte → Instr) : List Byte → Except DecodeError Instr
  | [b] => .ok (f b)
  | _ => .error .badLength

/-- A one-bit operand: the byte 0 or 1. -/
def bitOfByte (v : Byte) : Option Bool :=
  if v = 0 then some false else if v = 1 then some true else none

/-- The byte of a one-bit operand. -/
def byteOfBit (v : Bool) : Byte := if v then 1 else 0

/-- The operand of `H_SET_RLE`: one bit, in one byte (R97). -/
def decodeSetRle : List Byte → Except DecodeError Instr
  | [v] =>
    match bitOfByte v with
    | some r => .ok (.hSetRle r)
    | none => .error .operandRange
  | _ => .error .badLength

/-- A host operation: its 4-bit code in one byte, then its argument (R97). -/
def decodeHost : List Byte → Except DecodeError Instr
  | [] => .error .badLength
  | code :: arg =>
    if code = 0x0 then noArg .hStatus arg
    else if code = 0x1 then .ok (.hSend arg)
    else if code = 0x2 then noArg .hRecv arg
    else if code = 0x3 then noArg .hSetNoack arg
    else if code = 0x4 then noArg .hTimeout arg
    else if code = 0x5 then noArg .hLinkDown arg
    else if code = 0x6 then decodeSetRle arg
    else if code = 0x7 then .ok (.hReserved7 arg)
    else if code.toNat < 16 then .ok (.hReserved8F (code.setWidth 3) arg)
    else .error .noSuchHostCode

/-- A deframer event at the event port: a selector, then the payload or the cause. -/
def decodeEvent : List Byte → Except DecodeError Event
  | [] => .error .badLength
  | sel :: arg =>
    if sel = 1 then (match arg with | [] => .ok .ack | _ => .error .badLength)
    else if sel = 2 then (match arg with | [] => .ok .nack | _ => .error .badLength)
    else if sel = 3 then .ok (.packet arg)
    else if sel = 4 then
      match arg with
      | [c] => (match causeOfCode c with | some k => .ok (.reject k) | none => .error .noSuchCause)
      | _ => .error .badLength
    else if sel = 5 then (match arg with | [] => .ok .interrupt | _ => .error .badLength)
    else .error .noSuchSelector

/-- The session reaction a deframer event selects (R180). -/
def reactionRow : Event → Instr
  | .ack => .evAck
  | .nack => .evNack
  | .packet p => .evPacket p
  | .reject c => .evReject c
  | .interrupt => .evInterrupt

/-- `ENCODE_BODY` and `ENCODE_FRAME`: the control bit, then the payload. -/
def rleArg (f : List Byte → Bool → Instr) : List Byte → Except DecodeError Instr
  | [] => .error .badLength
  | r :: p =>
    match bitOfByte r with
    | some v => .ok (f p v)
    | none => .error .operandRange

/-- `RLE_PLAN`: the run itself stands for its length, at least 4 bytes (R114). -/
def decodePlan (run : List Byte) : Except DecodeError Instr :=
  if 4 ≤ run.length then .ok (.rlePlan run.length) else .error .operandRange

/-- A function call: the selector (the row's place among the `function` rows of the table), then the argument. -/
def decodeFunc : List Byte → Except DecodeError Instr
  | [] => .error .badLength
  | sel :: arg =>
    if sel = 0 then .ok (.cksum arg)
    else if sel = 1 then byteArg .hexenc arg
    else if sel = 2 then byteArg .hexdec arg
    else if sel = 3 then byteArg .escEnc arg
    else if sel = 4 then decodePlan arg
    else if sel = 5 then rleArg .encodeBody arg
    else if sel = 6 then rleArg .encodeFrame arg
    else if sel = 7 then .ok (.decodeFrame arg)
    else if sel = 8 then .ok (.push arg)
    else if sel = 9 then noArg .next arg
    else .error .noSuchSelector

/-- The operand of `mark_bad`: a cause code. -/
def decodeMarkBad : List Byte → Except DecodeError Instr
  | [c] => (match causeOfCode c with | some k => .ok (.markBad k) | none => .error .noSuchCause)
  | _ => .error .badLength

/-- The operand of `enter_closed`: a fatal cause code. -/
def decodeEnterClosed : List Byte → Except DecodeError Instr
  | [c] => (match closeCauseOfCode c with | some k => .ok (.enterClosed k) | none => .error .noSuchCause)
  | _ => .error .badLength

/-- The operand of `session_event`: an event. -/
def decodeSessionEvent (arg : List Byte) : Except DecodeError Instr :=
  match decodeEvent arg with
  | .ok e => .ok (.sessionEvent e)
  | .error r => .error r

/-- A helper call: the selector (the row's place among the `helper` rows of the table), then the argument. -/
def decodeHelper : List Byte → Except DecodeError Instr
  | [] => .error .badLength
  | sel :: arg =>
    if sel = 0 then byteArg .deframeStep arg
    else if sel = 1 then noArg .countWire arg
    else if sel = 2 then decodeMarkBad arg
    else if sel = 3 then byteArg .store arg
    else if sel = 4 then noArg .clearFrame arg
    else if sel = 5 then decodeSessionEvent arg
    else if sel = 6 then noArg .retryOrFail arg
    else if sel = 7 then decodeEnterClosed arg
    else .error .noSuchSelector

/-- The deframer event given at the event port selects its reaction's row (R180). -/
def decodeReaction (arg : List Byte) : Except DecodeError Instr :=
  match decodeEvent arg with
  | .ok e => .ok (reactionRow e)
  | .error r => .error r

/-- The operation the bytes at a port stand for, or the reason they stand for none. Total on every input. -/
def decode (w : PortEvent) : Except DecodeError Instr :=
  match w.port with
  | .wire => decodeWire w.bytes
  | .host => decodeHost w.bytes
  | .rx => byteArg .rxByte w.bytes
  | .tx => noArg .txPop w.bytes
  | .rst => noArg .reset w.bytes
  | .event => decodeReaction w.bytes
  | .func => decodeFunc w.bytes
  | .helper => decodeHelper w.bytes

/-! ### Encoding -/

/-- The key of a received-byte row: the byte, then the code of the state it is received in (R102). -/
def wireKey (st : RxState) (b : Byte) : PortEvent := ⟨.wire, [b, st.code]⟩

/-- The bytes of a deframer event at the event port. -/
def encodeEvent : Event → List Byte
  | .ack => [1]
  | .nack => [2]
  | .packet p => 3 :: p
  | .reject c => [4, c.code]
  | .interrupt => [5]

/-- The port and the bytes of an operation: the inverse of `decode` on well-formed instructions. -/
def encode : Instr → PortEvent
  | .huntStart => wireKey .hunt 0x24
  | .huntAck => wireKey .hunt 0x2B
  | .huntNack => wireKey .hunt 0x2D
  | .huntInt => wireKey .hunt 0x03
  | .huntNoise b => wireKey .hunt b
  | .escLit b => wireKey .esc b
  | .inframeInt st => wireKey st 0x03
  | .bodyEnd => wireKey .body 0x23
  | .bodyEscMark => wireKey .body 0x7D
  | .bodyRleMark => wireKey .body 0x2A
  | .bodyRawDollar => wireKey .body 0x24
  | .bodyData b => wireKey .body b
  | .rleCount b => wireKey .rle b
  | .rleBadcount b => wireKey .rle b
  | .ck1Digit b => wireKey .ck1 b
  | .ck1Baddigit b => wireKey .ck1 b
  | .ck2Digit b => wireKey .ck2 b
  | .ck2Baddigit b => wireKey .ck2 b
  | .hStatus => ⟨.host, [0x0]⟩
  | .hSend p => ⟨.host, 0x1 :: p⟩
  | .hRecv => ⟨.host, [0x2]⟩
  | .hSetNoack => ⟨.host, [0x3]⟩
  | .hTimeout => ⟨.host, [0x4]⟩
  | .hLinkDown => ⟨.host, [0x5]⟩
  | .hSetRle v => ⟨.host, [0x6, byteOfBit v]⟩
  | .hReserved7 arg => ⟨.host, 0x7 :: arg⟩
  | .hReserved8F low arg => ⟨.host, (0x8 ||| low.setWidth 8) :: arg⟩
  | .rxByte b => ⟨.rx, [b]⟩
  | .txPop => ⟨.tx, []⟩
  | .reset => ⟨.rst, []⟩
  | .evAck => ⟨.event, encodeEvent .ack⟩
  | .evNack => ⟨.event, encodeEvent .nack⟩
  | .evPacket p => ⟨.event, encodeEvent (.packet p)⟩
  | .evReject c => ⟨.event, encodeEvent (.reject c)⟩
  | .evInterrupt => ⟨.event, encodeEvent .interrupt⟩
  | .cksum s => ⟨.func, 0 :: s⟩
  | .hexenc c => ⟨.func, [1, c]⟩
  | .hexdec b => ⟨.func, [2, b]⟩
  | .escEnc b => ⟨.func, [3, b]⟩
  | .rlePlan run => ⟨.func, 4 :: List.replicate run 0⟩
  | .encodeBody p r => ⟨.func, 5 :: byteOfBit r :: p⟩
  | .encodeFrame p r => ⟨.func, 6 :: byteOfBit r :: p⟩
  | .decodeFrame b => ⟨.func, 7 :: b⟩
  | .push c => ⟨.func, 8 :: c⟩
  | .next => ⟨.func, [9]⟩
  | .deframeStep b => ⟨.helper, [0, b]⟩
  | .countWire => ⟨.helper, [1]⟩
  | .markBad c => ⟨.helper, [2, c.code]⟩
  | .store v => ⟨.helper, [3, v]⟩
  | .clearFrame => ⟨.helper, [4]⟩
  | .sessionEvent e => ⟨.helper, 5 :: encodeEvent e⟩
  | .retryOrFail => ⟨.helper, [6]⟩
  | .enterClosed c => ⟨.helper, [7, c.code]⟩

/-! ### What step fetches -/

/-- The bytes an operation is decoded from when a port event is taken in deframer state `st`: at the wire port one
received byte is completed to its key by the code of `rx_state` (R102); at the other ports nothing is added. -/
def fetchWord (st : RxState) (e : PortEvent) : PortEvent :=
  match e.port with
  | .wire => ⟨.wire, e.bytes ++ [st.code]⟩
  | .host | .rx | .tx | .rst | .event | .func | .helper => e

/-! ### Words as spec/opcode_table.json numbers their bits -/

/-- The word of a table row laid out at its port: 16 bits are a received-byte key (its byte first, R102), 8 bits a host
code followed by an operand of zeros (R97: the bit of `H_SET_RLE` is 0, the payload of `H_SEND` and the argument of a
reserved code are empty). No other width is a word of the table. -/
def tableWord (nbits w : Nat) : Option PortEvent :=
  if nbits = 16 ∧ w < 2 ^ 16 then some ⟨.wire, [BitVec.ofNat 8 w, BitVec.ofNat 8 (w / 256)]⟩
  else if nbits = 8 ∧ w < 2 ^ 8 then
    some ⟨.host, if w = 0x6 then [0x6, 0x0] else [BitVec.ofNat 8 w]⟩
  else none

/-- The instruction the decoder reads from a table row's word. -/
def decodeTableWord (nbits w : Nat) : Option Instr :=
  match tableWord nbits w with
  | none => none
  | some e =>
    match decode e with
    | .ok i => some i
    | .error _ => none

end Sys2Proof
end

