-- ==== Sys2Proof/Machine/State.lean ====
section
/-! DEFINITION. The state of one RSPF instance (spec 10_state.md R20 to R45), the values its operations return (00_scope.md
R15, 10_state.md R41), and the reasons a step can stop. The Lean names are the spec's field names in camel case, grouped
as the table of R20 groups them. -/

namespace Sys2Proof.Machine

/-- `rx_bad` (R25): `OK`, or the first cause found in the frame in flight. -/
inductive RxBad where
  | ok
  | bad (cause : Cause)
deriving DecidableEq, Repr

/-- `sess_state` (R29). -/
inductive SessState where
  | idle | ackPending | noAck | closed
deriving DecidableEq, Repr

/-- An item of the host's queue (R15, R37). -/
inductive HostItem where
  | packet (payload : List Byte)
  | interrupt
deriving DecidableEq, Repr

/-- The status a host operation returns (R15). -/
inductive Status where
  | ok | busy | tooLong | closed | badOp
deriving DecidableEq, Repr

/-- The record `H_STATUS` returns (R41). -/
structure StatusRecord where
  state : SessState
  ackMode : Bool
  noackArmed : Bool
  retryCount : Nat
  fatalCause : Option CloseCause
  txRleEn : Bool
  rxAvail : Bool
  txAvail : Bool
deriving DecidableEq, Repr

/-- What `decode_frame` returns (R118). `reject` carries the cause, which R118 calls extra information. -/
inductive DecodeResult where
  | complete (payload : List Byte) (consumed : Nat)
  | reject (cause : Cause) (consumed : Nat)
  | signal (e : Event) (consumed : Nat)
  | incomplete
deriving DecidableEq, Repr

/-- What an operation returns (R10: each operation "returns a result"; R11: these are what an observer sees). -/
inductive Result where
  /-- the operation returns nothing -/
  | none
  /-- the status of a host operation -/
  | status (s : Status)
  /-- the record of `H_STATUS` -/
  | record (r : StatusRecord)
  /-- the item of `H_RECV` -/
  | item (i : Option HostItem)
  /-- the byte of `TX_POP` -/
  | byte (b : Option Byte)
  /-- the event of `NEXT` -/
  | event (e : Option Event)
  /-- the byte sequence of `HEXENC`, `ESC_ENC`, `ENCODE_BODY`, `ENCODE_FRAME` -/
  | bytes (s : List Byte)
  /-- the 8-bit value of `CKSUM` -/
  | sum (c : Byte)
  /-- the digit value of `HEXDEC` -/
  | digit (v : Option Nibble)
  /-- the number of `RLE_PLAN` -/
  | count (k : Nat)
  /-- the outcome of `DECODE_FRAME` -/
  | decoded (r : DecodeResult)
deriving DecidableEq, Repr

/-- The deframer registers and the event queue (R21 to R28). -/
structure Deframer where
  /-- `rx_state` (R21) -/
  rxState : RxState
  /-- `rx_sum` (R22): the running checksum -/
  rxSum : Byte
  /-- `rx_payload` (R23): the decoded payload so far -/
  rxPayload : List Byte
  /-- `rx_last` (R24): the preceding decoded byte, if any -/
  rxLast : Option Byte
  /-- `rx_bad` (R25): the sticky malformed flag with its first cause -/
  rxBad : RxBad
  /-- `rx_wire_len` (R26): wire bytes of the frame in flight, saturating at `MAX_FRAME + 1` -/
  rxWireLen : Nat
  /-- `rx_ck_hi` (R27): the first checksum digit -/
  rxCkHi : Nibble
  /-- `ev_q` (R28): events produced and not yet consumed, oldest first -/
  evQ : List Event
deriving DecidableEq, Repr

/-- The session registers (R29 to R35). -/
structure Session where
  /-- `sess_state` (R29) -/
  sessState : SessState
  /-- `noack_armed` (R31) -/
  noackArmed : Bool
  /-- `retry_count` (R32) -/
  retryCount : Nat
  /-- `tx_stored` (R33): the frame awaiting acknowledgment -/
  txStored : Option (List Byte)
  /-- `fatal_cause` (R34); `none` is `NONE` -/
  fatalCause : Option CloseCause
  /-- `tx_rle_en` (R35) -/
  txRleEn : Bool
deriving DecidableEq, Repr

/-- One RSPF instance. `rx`, `sess`, `txFifo` and `hostQ` are the sixteen fields of R20; `cfg`, `result`, `inbox` and
`freeUse` are the model's own (log entries 1, 2, 3, 5 and 9). -/
structure State where
  /-- the parameters of R8: an argument of the model, written by no operation (log entry 1) -/
  cfg : Config
  /-- the deframer group -/
  rx : Deframer
  /-- the session group -/
  sess : Session
  /-- `tx_fifo` (R36): bytes produced for the transport, oldest first -/
  txFifo : List Byte
  /-- `host_q` (R37): items delivered to the host, oldest first -/
  hostQ : List HostItem
  /-- what the last operation returned (log entry 2) -/
  result : Result
  /-- the operations the agents issue next, oldest first: the total order of R10 (log entry 3); a pushed chunk of which some
  bytes are still to be decoded stands among them (log entry 9) -/
  inbox : List PortEvent
  /-- how many free values have been used (log entries 5 and 9) -/
  freeUse : Nat
deriving DecidableEq, Repr

/-- No operation of RSPF faults: every operation is total and returns (R165, R240). So there is no fault reason, and
nobody raises one. -/
inductive Fault : Type
deriving DecidableEq, Repr

/-- Why a step is refused. -/
inductive Refusal where
  /-- An operation without a meaning in this model, by its mnemonic. Raised by an arm of `exec`; no arm raises it now.
  Safe. -/
  | notModelled (mnemonic : String)
  /-- The bytes at the port are no operation of the spec (`decode` says why). Raised by `step`, never by `exec`; the
  agents of R10 issue operations only. Safe (log entry 3). -/
  | notAnOperation (reason : DecodeError)
deriving DecidableEq, Repr

/-- The outcome of an operation. -/
abbrev Answer := Host.Outcome State Fault Refusal

/-- The deframer group after reset (R45). -/
def Deframer.reset : Deframer where
  rxState := .hunt
  rxSum := 0
  rxPayload := []
  rxLast := none
  rxBad := .ok
  rxWireLen := 0
  rxCkHi := 0
  evQ := []

/-- The session group after reset (R45). -/
def Session.reset : Session where
  sessState := .idle
  noackArmed := false
  retryCount := 0
  txStored := none
  fatalCause := none
  txRleEn := false

/-- The machine right after reset (R45), with the documented default parameters (R8); no operation has returned yet, no
operation is waiting and no free value has been used (DESIGN CHOICE, log entries 1, 2, 3 and 5). -/
def State.reset : State where
  cfg := Config.documented
  rx := Deframer.reset
  sess := Session.reset
  txFifo := []
  hostQ := []
  result := .none
  inbox := []
  freeUse := 0

end Sys2Proof.Machine
end

