-- ==== Sys2Proof/Machine/Operands.lean ====
section
/-! DEFINITION. The byte-level operand forms of RSPF: hexadecimal digits (30_encoding.md R91, R92), the special bytes
(R89), escape operands (R87) and run counts (R88, R100). -/

namespace Sys2Proof.Machine

/-- `hexval` (R91, R112): the value of a hexadecimal digit of either case. -/
def hexval (b : Byte) : Option Nibble :=
  if 0x30 ≤ b.toNat ∧ b.toNat ≤ 0x39 then some (BitVec.ofNat 4 (b.toNat - 0x30))
  else if 0x41 ≤ b.toNat ∧ b.toNat ≤ 0x46 then some (BitVec.ofNat 4 (b.toNat - 0x41 + 10))
  else if 0x61 ≤ b.toNat ∧ b.toNat ≤ 0x66 then some (BitVec.ofNat 4 (b.toNat - 0x61 + 10))
  else none

/-- `hexdigit` (R92): the lowercase digit of a value. -/
def hexdigit (v : Nibble) : Byte :=
  if v.toNat < 10 then BitVec.ofNat 8 (0x30 + v.toNat) else BitVec.ofNat 8 (0x61 + v.toNat - 10)

/-- The high nibble `b[7:4]` (R12). -/
def highNibble (b : Byte) : Nibble := BitVec.ofNat 4 (b.toNat / 16)

/-- The low nibble `b[3:0]` (R12). -/
def lowNibble (b : Byte) : Nibble := BitVec.ofNat 4 (b.toNat % 16)

/-- The four special bytes `#`, `$`, `*` and the escape marker (R89), which the encoder always escapes (R113). -/
def isSpecial (b : Byte) : Bool := b == 0x23 || b == 0x24 || b == 0x2A || b == 0x7D

/-- Exclusive-or with 0x20: what an escape operand stands for, and the operand a special byte is sent as (R87, R123 (b)). -/
def escapeXor (b : Byte) : Byte := b ^^^ 0x20

/-- The number of additional copies a run count stands for: `n - 29` (R88, R100). -/
def runCopies (n : Byte) : Nat := n.toNat - 29

/-- The count byte of a run unit that covers `k` bytes: `k + 28` (R114). -/
def countByte (k : Nat) : Byte := BitVec.ofNat 8 (k + 28)

/-- The value of a checksum field: `16 * hi + lo` (R85, R123 (d)). -/
def ckField (hi lo : Nibble) : Byte := BitVec.ofNat 8 (16 * hi.toNat + lo.toNat)

end Sys2Proof.Machine
end

