-- ==== Sys2Proof/Machine/Flags.lean ====
section
/-! DEFINITION. The flag-like fields of RSPF (10_state.md R40) and the running checksum: `mark_bad` (41_deframer.md R142),
the checksum addition (R123 (a)), the test of the checksum field (R160), and the acknowledgment mode (R30). -/

namespace Sys2Proof.Machine

/-- `mark_bad(c)` (R142): the first cause sticks, and the payload storage is released when it is set. -/
def markBad (c : Cause) (d : Deframer) : Deframer :=
  match d.rxBad with
  | .ok => { d with rxBad := .bad c, rxPayload := [] }
  | .bad _ => d

/-- `rx_sum <- (rx_sum + b) mod 256` (R22, R123 (a)): the carry is discarded. -/
def addSum (b : Byte) (d : Deframer) : Deframer := { d with rxSum := d.rxSum + b }

/-- The test at the second checksum digit (R160): a byte that is no digit marks `BAD_CK_DIGIT`; a field that differs from
the sum marks a frame that is still good `CK_MISMATCH`. -/
def checkField (b : Byte) (d : Deframer) : Deframer :=
  match hexval b with
  | none => markBad .badCkDigit d
  | some lo => if d.rxBad = .ok ∧ ckField d.rxCkHi lo ≠ d.rxSum then markBad .ckMismatch d else d

/-- `ack_mode` (R30): on exactly in `IDLE` and `ACK_PENDING`. -/
def ackMode : SessState → Bool
  | .idle | .ackPending => true
  | .noAck | .closed => false

end Sys2Proof.Machine
end

