-- ==== Sys2Proof/Machine/Ops.lean ====
section
/-! DEFINITION. The named operations the rules share: the deframer's helpers (41_deframer.md R141, R143, R144), `emit` and
`pop_head` (00_scope.md R14), the appends at the boundary queues (20_memory.md R62, R63), entering the fatal state (42_session.md
R186, R187), the one exception entry of RSPF (60_exceptions.md R234), and the only return from it, reset (R197, R235). -/

namespace Sys2Proof.Machine

/-! ### The deframer's helpers -/

/-- `count_wire()` (R141): counts one wire byte of the frame in flight, saturating at `MAX_FRAME + 1`, and marks the frame
`OVERSIZE` past `MAX_FRAME`. -/
def countWire (cfg : Config) (d : Deframer) : Deframer :=
  let n := min (d.rxWireLen + 1) (cfg.maxFrame + 1)
  let d1 := { d with rxWireLen := n }
  if cfg.maxFrame < n then markBad .oversize d1 else d1

/-- `store(v)` (R143): appends one decoded byte to the payload of a good frame, or marks it `OVERSIZE` when the buffer is
full; `rx_last` is updated in every case. -/
def store (cfg : Config) (v : Byte) (d : Deframer) : Deframer :=
  let d1 :=
    match d.rxBad with
    | .ok =>
      if cfg.maxPayload ≤ d.rxPayload.length then markBad .oversize d
      else { d with rxPayload := d.rxPayload ++ [v] }
    | .bad _ => d
  { d1 with rxLast := some v }

/-- "repeat n times: store(v)" (R155). -/
def storeN (cfg : Config) (v : Byte) : Nat → Deframer → Deframer
  | 0, d => d
  | n + 1, d => storeN cfg v n (store cfg v d)

/-- `clear_frame()` (R144): the frame registers take their idle values; `rx_state` and `ev_q` are not among them. -/
def clearFrame (d : Deframer) : Deframer :=
  { d with rxSum := 0, rxPayload := [], rxLast := none, rxBad := .ok, rxWireLen := 0, rxCkHi := 0 }

/-- `emit E` (R14): append the event to `ev_q`. -/
def emit (e : Event) (d : Deframer) : Deframer := { d with evQ := d.evQ ++ [e] }

/-! ### The state's groups -/

/-- Run a deframer rule: it reads and writes only the deframer group and the parameters (R140). The operation returns
nothing. -/
def onRx (f : Config → Deframer → Deframer) (s : State) : State :=
  { s with rx := f s.cfg s.rx, result := .none }

/-- Return a result (R10) and change nothing else; with a refusing status this is `refuse S` of R14. -/
def answer (r : Result) (s : State) : State := { s with result := r }

/-- Append one whole unit (a frame, `+` or `-`) to `tx_fifo` (R62, R199). -/
def transmit (unit : List Byte) (s : State) : State := { s with txFifo := s.txFifo ++ unit }

/-- Append an item to `host_q` (R63). -/
def deliver (item : HostItem) (s : State) : State := { s with hostQ := s.hostQ ++ [item] }

/-! ### The fatal state -/

/-- `enter_closed(cause)` (R187, R234): the entry to the fatal state. It saves the cause, empties `tx_fifo`, clears the
stored frame and the armed bit, returns the deframer to `HUNT` and empties `ev_q`; `retry_count`, `host_q` and
`tx_rle_en` are kept. -/
def enterClosed (cause : CloseCause) (s : State) : State :=
  { s with
    rx := { clearFrame s.rx with rxState := .hunt, evQ := [] }
    sess := { s.sess with
      sessState := .closed, fatalCause := some cause, txStored := none, noackArmed := false }
    txFifo := [] }

/-- The bytes `retry_or_fail` appends and the state that says so: the stored frame, byte for byte (R72, R186). Outside
R186's precondition nothing is stored, the spec states no frame, and the bytes are a free value (log entry 5). -/
def retransmit (s : State) : State :=
  match s.sess.txStored with
  | some f => transmit f s
  | none => { transmit (Config.freeFrame s.freeUse) s with freeUse := s.freeUse + 1 }

/-- `retry_or_fail()` (R186): retransmit the stored frame, or enter the fatal state when `MAX_RETRIES` retransmissions
have been made. -/
def retryOrFail (s : State) : State :=
  if s.cfg.maxRetries ≤ s.sess.retryCount then enterClosed .retryExhausted s
  else retransmit { s with sess := { s.sess with retryCount := s.sess.retryCount + 1 } }

/-- `RESET` (R197): every field of R20 takes its reset value (R45); the parameters are not changed. It is the only way out
of `CLOSED` (R235). The model's own `inbox` and `freeUse` stand: they are no state of the block. -/
def resetBlock (s : State) : State :=
  { State.reset with cfg := s.cfg, inbox := s.inbox, freeUse := s.freeUse }

/-! ### Taking the next operation -/

/-- Take the oldest waiting operation: its decoding, and the state without it. `none` when no agent issues one. -/
def fetch (s : State) : Option (Except DecodeError Instr × State) :=
  match s.inbox with
  | [] => none
  | e :: rest => some (decode (fetchWord s.rx.rxState e), { s with inbox := rest })

/-! ### Operations that are no single step -/

/-- The port events that may fall between the bytes of a pushed chunk (20_memory.md R67): those of the other agents R10
names, the host, the transmit side and reset. `RX_BYTE` is not among them: its byte comes later in the received stream (R66).
Nor are the rows for which R10 names no agent, `PUSH` and `NEXT` among them: the caller of the decoder issues them, after
its `PUSH` (R162, R163; log entry 9). -/
def fallsBetween (e : PortEvent) : Bool :=
  match e.port with
  | .host | .tx | .rst => true
  | .wire | .rx | .event | .func | .helper => false

/-- Put an operation that goes on back among the waiting ones, behind as many of them as the number says, but behind none
that may not fall between its parts. -/
def resume (e : PortEvent) (behind : Nat) : List PortEvent → List PortEvent
  | [] => [e]
  | w :: ws => if fallsBetween w = false ∨ behind = 0 then e :: w :: ws else w :: resume e (behind - 1) ws

/-- Leave the bytes of a chunk that are not yet decoded to later steps (R67): a free number of waiting operations of other
agents falls before the next of them (log entry 9). With no byte left the chunk is done. -/
def pushRest (chunk : List Byte) (s : State) : State :=
  match chunk with
  | [] => s
  | _ :: _ =>
    { s with
      inbox := resume (encode (.push chunk)) (Config.freeTurns s.freeUse) s.inbox
      freeUse := s.freeUse + 1 }

end Sys2Proof.Machine
end

