-- ==== Sys2Proof/Machine/Deframer.lean ====
section
/-! DEFINITION. The Stream Decoder: one rule per received-byte class (41_deframer.md R145 to R160), `deframe_step` (R140)
and the instructions of format `wire-rx`. A meaning is its rule's pseudocode; which rule a byte selects is the
decoder's (R90) and `deframe_step`'s matter (log entry 6). -/

namespace Sys2Proof.Machine

open Host (Outcome)

/-! ### The rules -/

/-- R145: `$` in `HUNT` starts a frame. -/
def rxHuntStart (cfg : Config) (d : Deframer) : Deframer :=
  { countWire cfg (clearFrame d) with rxState := .body }

/-- R146: `+` in `HUNT`. -/
def rxHuntAck (d : Deframer) : Deframer := emit .ack d

/-- R147: `-` in `HUNT`. -/
def rxHuntNack (d : Deframer) : Deframer := emit .nack d

/-- R148: 0x03 in `HUNT`. -/
def rxHuntInt (d : Deframer) : Deframer := emit .interrupt d

/-- R149: any other byte in `HUNT` is discarded. -/
def rxHuntNoise (d : Deframer) : Deframer := d

/-- R150: 0x03 inside a frame, but for an escape operand: reported at once, and the frame goes on as if the byte had not
been there. -/
def rxInframeInt (d : Deframer) : Deframer := emit .interrupt d

/-- R151: a literal body byte. -/
def rxBodyData (cfg : Config) (b : Byte) (d : Deframer) : Deframer :=
  store cfg b (addSum b (countWire cfg d))

/-- R152: the escape marker. -/
def rxBodyEscMark (cfg : Config) (d : Deframer) : Deframer :=
  { addSum 0x7D (countWire cfg d) with rxState := .esc }

/-- R153: an escape operand. The raw operand is summed, its exclusive-or with 0x20 is stored. -/
def rxEscLit (cfg : Config) (b : Byte) (d : Deframer) : Deframer :=
  { store cfg (escapeXor b) (addSum b (countWire cfg d)) with rxState := .body }

/-- R154: the run-length marker; malformed when no decoded byte precedes it. -/
def rxBodyRleMark (cfg : Config) (d : Deframer) : Deframer :=
  let d1 := addSum 0x2A (countWire cfg d)
  let d2 :=
    match d1.rxLast with
    | none => markBad .badRle d1
    | some _ => d1
  { d2 with rxState := .rle }

/-- R155: a run count; the preceding decoded byte is stored `b - 29` more times. -/
def rxRleCount (cfg : Config) (b : Byte) (d : Deframer) : Deframer :=
  let d1 := addSum b (countWire cfg d)
  let d2 :=
    match d1.rxLast with
    | some v => storeN cfg v (runCopies b) d1
    | none => d1
  { d2 with rxState := .body }

/-- R156: a count byte outside the valid range. -/
def rxRleBadcount (cfg : Config) (b : Byte) (d : Deframer) : Deframer :=
  { markBad .badRle (addSum b (countWire cfg d)) with rxState := .body }

/-- R157: a raw `$` inside a body. -/
def rxBodyRawDollar (cfg : Config) (d : Deframer) : Deframer :=
  markBad .rawDollar (addSum 0x24 (countWire cfg d))

/-- R158: the terminating `#`, which is not summed. -/
def rxBodyEnd (cfg : Config) (d : Deframer) : Deframer :=
  { countWire cfg d with rxState := .ck1 }

/-- R159: the first checksum position, consumed whatever the byte is. -/
def rxCk1 (cfg : Config) (b : Byte) (d : Deframer) : Deframer :=
  let d1 := countWire cfg d
  let d2 :=
    match hexval b with
    | some h => { d1 with rxCkHi := h }
    | none => markBad .badCkDigit d1
  { d2 with rxState := .ck2 }

/-- The event a frame ends in (R160): `Packet` with the payload when it is good, `Reject` with the first cause when it is
not. -/
def frameEvent (d : Deframer) : Event :=
  match d.rxBad with
  | .ok => .packet d.rxPayload
  | .bad c => .reject c

/-- R160: the second checksum position, the end of the frame: exactly one event, and back to `HUNT`. -/
def rxCk2 (cfg : Config) (b : Byte) (d : Deframer) : Deframer :=
  let d1 := checkField b (countWire cfg d)
  { clearFrame (emit (frameEvent d1) d1) with rxState := .hunt }

/-! ### The step -/

/-- `deframe_step(b)` (R140): selects one of the rules R145 to R160 by `rx_state` and the byte. -/
def deframeStep (cfg : Config) (b : Byte) (d : Deframer) : Deframer :=
  match d.rxState with
  | .hunt =>
    if b = 0x24 then rxHuntStart cfg d
    else if b = 0x2B then rxHuntAck d
    else if b = 0x2D then rxHuntNack d
    else if b = 0x03 then rxHuntInt d
    else rxHuntNoise d
  | .esc => rxEscLit cfg b d
  | .body =>
    if b = 0x03 then rxInframeInt d
    else if b = 0x23 then rxBodyEnd cfg d
    else if b = 0x7D then rxBodyEscMark cfg d
    else if b = 0x2A then rxBodyRleMark cfg d
    else if b = 0x24 then rxBodyRawDollar cfg d
    else rxBodyData cfg b d
  | .rle =>
    if b = 0x03 then rxInframeInt d
    else if 0x20 ≤ b.toNat ∧ b.toNat ≤ 0x7E then rxRleCount cfg b d
    else rxRleBadcount cfg b d
  | .ck1 => if b = 0x03 then rxInframeInt d else rxCk1 cfg b d
  | .ck2 => if b = 0x03 then rxInframeInt d else rxCk2 cfg b d

/-- The deframer run over a byte sequence, one step a byte (R140, R162). -/
def deframeAll (cfg : Config) : List Byte → Deframer → Deframer
  | [], d => d
  | b :: bs, d => deframeAll cfg bs (deframeStep cfg b d)

/-! ### The instructions of format wire-rx -/

/-- `HUNT_START` (R145). -/
def execHuntStart (s : State) : Answer := .next (onRx rxHuntStart s)

/-- `HUNT_ACK` (R146). -/
def execHuntAck (s : State) : Answer := .next (onRx (fun _ => rxHuntAck) s)

/-- `HUNT_NACK` (R147). -/
def execHuntNack (s : State) : Answer := .next (onRx (fun _ => rxHuntNack) s)

/-- `HUNT_INT` (R148). -/
def execHuntInt (s : State) : Answer := .next (onRx (fun _ => rxHuntInt) s)

/-- `HUNT_NOISE` (R149). The byte has no effect. -/
def execHuntNoise (_b : Byte) (s : State) : Answer := .next (onRx (fun _ => rxHuntNoise) s)

/-- `ESC_LIT` (R153). -/
def execEscLit (b : Byte) (s : State) : Answer := .next (onRx (fun cfg => rxEscLit cfg b) s)

/-- `INFRAME_INT` (R150). The state the byte falls in stays as it is. -/
def execInframeInt (_st : RxState) (s : State) : Answer := .next (onRx (fun _ => rxInframeInt) s)

/-- `BODY_END` (R158). -/
def execBodyEnd (s : State) : Answer := .next (onRx rxBodyEnd s)

/-- `BODY_ESC_MARK` (R152). -/
def execBodyEscMark (s : State) : Answer := .next (onRx rxBodyEscMark s)

/-- `BODY_RLE_MARK` (R154). -/
def execBodyRleMark (s : State) : Answer := .next (onRx rxBodyRleMark s)

/-- `BODY_RAW_DOLLAR` (R157). -/
def execBodyRawDollar (s : State) : Answer := .next (onRx rxBodyRawDollar s)

/-- `BODY_DATA` (R151). -/
def execBodyData (b : Byte) (s : State) : Answer := .next (onRx (fun cfg => rxBodyData cfg b) s)

/-- `RLE_COUNT` (R155). -/
def execRleCount (b : Byte) (s : State) : Answer := .next (onRx (fun cfg => rxRleCount cfg b) s)

/-- `RLE_BADCOUNT` (R156). -/
def execRleBadcount (b : Byte) (s : State) : Answer := .next (onRx (fun cfg => rxRleBadcount cfg b) s)

/-- `CK1_DIGIT` (R159). -/
def execCk1Digit (b : Byte) (s : State) : Answer := .next (onRx (fun cfg => rxCk1 cfg b) s)

/-- `CK1_BADDIGIT` (R159). -/
def execCk1Baddigit (b : Byte) (s : State) : Answer := .next (onRx (fun cfg => rxCk1 cfg b) s)

/-- `CK2_DIGIT` (R160). -/
def execCk2Digit (b : Byte) (s : State) : Answer := .next (onRx (fun cfg => rxCk2 cfg b) s)

/-- `CK2_BADDIGIT` (R160). -/
def execCk2Baddigit (b : Byte) (s : State) : Answer := .next (onRx (fun cfg => rxCk2 cfg b) s)

end Sys2Proof.Machine
end

