-- ==== Sys2Proof/Machine/Codec.lean ====
section
/-! DEFINITION. The pure Codec functions (40_codec.md R110 to R118): they read only their arguments and, for `decode_frame`,
the parameters, and write no state. -/

namespace Sys2Proof.Machine

/-- `cksum(s)` (R110): the sum of the bytes modulo 256. -/
def cksum : List Byte → Byte
  | [] => 0
  | b :: bs => b + cksum bs

/-- `hexenc(c)` (R111): two lowercase digits, high nibble first. -/
def hexenc (c : Byte) : List Byte := [hexdigit (highNibble c), hexdigit (lowNibble c)]

/-- `esc_enc(b)` (R113): an escape sequence for a special byte, the byte itself for every other. -/
def escEnc (b : Byte) : List Byte := if isSpecial b then [0x7D, escapeXor b] else [b]

/-- `rle_plan(run)` (R114): how many bytes of the run one unit covers: at most 98, and never 7 or 8. -/
def rlePlan (run : Nat) : Nat :=
  let k := min run 98
  if k = 7 ∨ k = 8 then 6 else k

/-- The number of bytes at the start of `bs` that equal `b`; with `b` itself in front of them, one less than the `run` of
R115. -/
def runTail (b : Byte) : List Byte → Nat
  | [] => 0
  | c :: cs => if c = b then runTail b cs + 1 else 0

/-- The loop of `encode_body` (R115). The first argument bounds the number of turns: every turn consumes at least one
byte, so the length of the payload is enough. -/
def encodeLoop (rle : Bool) : Nat → List Byte → List Byte
  | 0, _ => []
  | _ + 1, [] => []
  | fuel + 1, b :: bs =>
    if isSpecial b then 0x7D :: escapeXor b :: encodeLoop rle fuel bs
    else if rle && decide (4 ≤ runTail b bs + 1) then
      b :: 0x2A :: countByte (rlePlan (runTail b bs + 1))
        :: encodeLoop rle fuel (bs.drop (rlePlan (runTail b bs + 1) - 1))
    else b :: encodeLoop rle fuel bs

/-- `encode_body(P, rle)` (R115). -/
def encodeBody (payload : List Byte) (rle : Bool) : List Byte := encodeLoop rle payload.length payload

/-- `encode_frame(P, rle)` (R116): `$`, the body, `#` and the two digits of the body's checksum. -/
def encodeFrame (payload : List Byte) (rle : Bool) : List Byte :=
  0x24 :: (encodeBody payload rle ++ 0x23 :: hexenc (cksum (encodeBody payload rle)))

/-- The outcome of `decode_frame` (R118) for the event `e` emitted at the `n`-th byte. -/
def decodeOutcome (e : Event) (n : Nat) : DecodeResult :=
  match e with
  | .packet p => .complete p n
  | .reject c => .reject c n
  | .ack | .nack | .interrupt => .signal e n

/-- The scan of `decode_frame` (R118): the deframer's step on one byte after another, from the registers `d` with `n` bytes
consumed, until a step emits an event. -/
def decodeScan (cfg : Config) : List Byte → Nat → Deframer → DecodeResult
  | [], _, _ => .incomplete
  | b :: bs, n, d =>
    match (deframeStep cfg b d).evQ with
    | [] => decodeScan cfg bs (n + 1) (deframeStep cfg b d)
    | e :: _ => decodeOutcome e (n + 1)

/-- `decode_frame(B)` (R118): the scan from the deframer's reset state, on a copy of its registers. -/
def decodeFrame (cfg : Config) (buffer : List Byte) : DecodeResult := decodeScan cfg buffer 0 Deframer.reset

end Sys2Proof.Machine
end

