-- ==== Sys2Proof/Machine/Session.lean ====
section
/-! DEFINITION. The Session State Machine's reactions to deframer events (42_session.md R180, R182 to R185, R188) and the
instructions of format `event`. -/

namespace Sys2Proof.Machine

open Host (Outcome)

/-! ### The reactions -/

/-- `EV_ACK` (R182): settles the outstanding frame; in any other state than `ACK_PENDING` nothing happens. -/
def evAck (s : State) : State :=
  match s.sess.sessState with
  | .ackPending =>
    { s with sess := { s.sess with
        sessState := if s.sess.noackArmed then .noAck else .idle
        noackArmed := false
        txStored := none
        retryCount := 0 } }
  | .idle | .noAck | .closed => s

/-- `EV_NACK` (R183): retransmits or closes in `ACK_PENDING`; ignored in any other state. -/
def evNack (s : State) : State :=
  match s.sess.sessState with
  | .ackPending => retryOrFail s
  | .idle | .noAck | .closed => s

/-- Append a single-byte signal to `tx_fifo` while acknowledgment mode is on (R184, R185). -/
def signalIfAckMode (b : Byte) (s : State) : State :=
  if ackMode s.sess.sessState then transmit [b] s else s

/-- `EV_PACKET` (R184): `+` while acknowledgment mode is on, then the packet for the host. -/
def evPacket (payload : List Byte) (s : State) : State :=
  deliver (.packet payload) (signalIfAckMode 0x2B s)

/-- `EV_REJECT` (R185): `-` while acknowledgment mode is on; the cause is not recorded. -/
def evReject (_cause : Cause) (s : State) : State := signalIfAckMode 0x2D s

/-- `EV_INTERRUPT` (R188): an `Interrupt` item for the host, in every session state. -/
def evInterrupt (s : State) : State := deliver .interrupt s

/-- `session_event(E)` (R180). -/
def sessionEvent (e : Event) (s : State) : State :=
  match e with
  | .ack => evAck s
  | .nack => evNack s
  | .packet p => evPacket p s
  | .reject c => evReject c s
  | .interrupt => evInterrupt s

/-! ### The instructions of format event -/

/-- `EV_ACK` (R182). -/
def execEvAck (s : State) : Answer := .next (answer .none (evAck s))

/-- `EV_NACK` (R183). -/
def execEvNack (s : State) : Answer := .next (answer .none (evNack s))

/-- `EV_PACKET` (R184). -/
def execEvPacket (payload : List Byte) (s : State) : Answer := .next (answer .none (evPacket payload s))

/-- `EV_REJECT` (R185). -/
def execEvReject (cause : Cause) (s : State) : Answer := .next (answer .none (evReject cause s))

/-- `EV_INTERRUPT` (R188). -/
def execEvInterrupt (s : State) : Answer := .next (answer .none (evInterrupt s))

end Sys2Proof.Machine
end

