-- ==== Sys2Proof/Machine/HostOps.lean ====
section
/-! DEFINITION. The host operations (42_session.md R189 to R195 and R201) and the instructions of format `host-op`. A refusal
is a returned status and changes no state (60_exceptions.md R229). -/

namespace Sys2Proof.Machine

open Host (Outcome)

/-! ### The operations -/

/-- The part of `H_SEND` (R189) after the refusals `CLOSED` and `BUSY`: the size check, the append, and, from `IDLE`, the
stored frame. -/
def sendFrame (frame : List Byte) (s : State) : State :=
  if s.cfg.maxFrame < frame.length then answer (.status .tooLong) s
  else
    match s.sess.sessState with
    | .idle =>
      answer (.status .ok) { transmit frame s with
        sess := { s.sess with txStored := some frame, retryCount := 0, sessState := .ackPending } }
    | .ackPending | .noAck | .closed => answer (.status .ok) (transmit frame s)

/-- `H_SEND(P)` (R189). The refusals in their order: `CLOSED`, `BUSY`, `TOO_LONG` (R229). -/
def hSend (payload : List Byte) (s : State) : State :=
  match s.sess.sessState with
  | .closed => answer (.status .closed) s
  | .ackPending => answer (.status .busy) s
  | .idle | .noAck => sendFrame (encodeFrame payload s.sess.txRleEn) s

/-- `H_RECV` (R190): take the oldest host item, if there is one. -/
def hRecv (s : State) : State :=
  { s with hostQ := s.hostQ.tail, result := .item s.hostQ.head? }

/-- `H_SET_NOACK` (R191): at once from `IDLE`, armed in `ACK_PENDING`, nothing to do in `NO_ACK`. -/
def hSetNoack (s : State) : State :=
  match s.sess.sessState with
  | .closed => answer (.status .closed) s
  | .idle => answer (.status .ok) { s with sess := { s.sess with sessState := .noAck } }
  | .ackPending => answer (.status .ok) { s with sess := { s.sess with noackArmed := true } }
  | .noAck => answer (.status .ok) s

/-- `H_TIMEOUT` (R192): exactly the effect of a received `Nack`, and the status. -/
def hTimeout (s : State) : State :=
  match s.sess.sessState with
  | .closed => answer (.status .closed) s
  | .ackPending => answer (.status .ok) (retryOrFail s)
  | .idle | .noAck => answer (.status .ok) s

/-- `H_LINK_DOWN` (R193): enters the fatal state; in `CLOSED` the first cause stays. -/
def hLinkDown (s : State) : State :=
  match s.sess.sessState with
  | .closed => answer (.status .ok) s
  | .idle | .ackPending | .noAck => answer (.status .ok) (enterClosed .linkDown s)

/-- `H_SET_RLE(v)` (R194). -/
def hSetRle (v : Bool) (s : State) : State :=
  match s.sess.sessState with
  | .closed => answer (.status .closed) s
  | .idle | .ackPending | .noAck => answer (.status .ok) { s with sess := { s.sess with txRleEn := v } }

/-- The status record of R41. -/
def statusRecord (s : State) : StatusRecord where
  state := s.sess.sessState
  ackMode := ackMode s.sess.sessState
  noackArmed := s.sess.noackArmed
  retryCount := s.sess.retryCount
  fatalCause := s.sess.fatalCause
  txRleEn := s.sess.txRleEn
  rxAvail := !s.hostQ.isEmpty
  txAvail := !s.txFifo.isEmpty

/-! ### The instructions of format host-op -/

/-- `H_STATUS` (R195). -/
def execHStatus (s : State) : Answer := .next (answer (.record (statusRecord s)) s)

/-- `H_SEND` (R189). -/
def execHSend (payload : List Byte) (s : State) : Answer := .next (hSend payload s)

/-- `H_RECV` (R190). -/
def execHRecv (s : State) : Answer := .next (hRecv s)

/-- `H_SET_NOACK` (R191). -/
def execHSetNoack (s : State) : Answer := .next (hSetNoack s)

/-- `H_TIMEOUT` (R192). -/
def execHTimeout (s : State) : Answer := .next (hTimeout s)

/-- `H_LINK_DOWN` (R193). -/
def execHLinkDown (s : State) : Answer := .next (hLinkDown s)

/-- `H_SET_RLE` (R194). -/
def execHSetRle (v : Bool) (s : State) : Answer := .next (hSetRle v s)

/-- `H_RESERVED_7` (R201): status `BAD_OP`, whatever the argument. -/
def execHReserved7 (_arg : List Byte) (s : State) : Answer := .next (answer (.status .badOp) s)

/-- `H_RESERVED_8_F` (R201): status `BAD_OP`, whatever the code's low bits and the argument. -/
def execHReserved8F (_low : BitVec 3) (_arg : List Byte) (s : State) : Answer :=
  .next (answer (.status .badOp) s)

end Sys2Proof.Machine
end

