-- ==== Sys2Proof/Machine/Ports.lean ====
section
/-! DEFINITION. The port events of the assembled block: `RX_BYTE` (42_session.md R181), `TX_POP` (R196) and `RESET` (R197). -/

namespace Sys2Proof.Machine

open Host (Outcome)

/-- The loop of R181, "while ev_q != []: session_event(pop_head(ev_q))". No reaction appends to `ev_q`, so as many turns as
it holds events are enough. -/
def drain : Nat → State → State
  | 0, s => s
  | n + 1, s =>
    match s.rx.evQ with
    | [] => s
    | e :: q => drain n (sessionEvent e { s with rx := { s.rx with evQ := q } })

/-- The deframer's step on one byte, its events not yet given to the session (R181). -/
def receive (b : Byte) (s : State) : State := { s with rx := deframeStep s.cfg b s.rx }

/-- `RX_BYTE(b)` (R181): discarded in `CLOSED`; else the deframer's step, and every event to the session at once. -/
def rxByte (b : Byte) (s : State) : State :=
  match s.sess.sessState with
  | .closed => s
  | .idle | .ackPending | .noAck => drain (receive b s).rx.evQ.length (receive b s)

/-- `TX_POP` (R196): take the oldest byte to transmit, if there is one. -/
def popTx (s : State) : State :=
  { s with txFifo := s.txFifo.tail, result := .byte s.txFifo.head? }

/-- `RX_BYTE` (R181). It returns nothing. -/
def execRxByte (b : Byte) (s : State) : Answer := .next (answer .none (rxByte b s))

/-- `TX_POP` (R196). -/
def execTxPop (s : State) : Answer := .next (popTx s)

/-- `RESET` (R197). It returns nothing. -/
def execReset (s : State) : Answer := .next (resetBlock s)

end Sys2Proof.Machine
end

