-- ==== Sys2Proof/Machine/Functions.lean ====
section
/-! DEFINITION. The instructions of format `function`: the pure Codec functions (40_codec.md R110 to R118), which write no
state and return their value, and the stand-alone Stream Decoder's `PUSH` and `NEXT` (41_deframer.md R162, R163). -/

namespace Sys2Proof.Machine

open Host (Outcome)

/-- `CKSUM` (R110). -/
def execCksum (bytes : List Byte) (s : State) : Answer := .next (answer (.sum (cksum bytes)) s)

/-- `HEXENC` (R111). -/
def execHexenc (c : Byte) (s : State) : Answer := .next (answer (.bytes (hexenc c)) s)

/-- `HEXDEC` (R112). -/
def execHexdec (b : Byte) (s : State) : Answer := .next (answer (.digit (hexval b)) s)

/-- `ESC_ENC` (R113). -/
def execEscEnc (b : Byte) (s : State) : Answer := .next (answer (.bytes (escEnc b)) s)

/-- `RLE_PLAN` (R114). -/
def execRlePlan (run : Nat) (s : State) : Answer := .next (answer (.count (rlePlan run)) s)

/-- `ENCODE_BODY` (R115). -/
def execEncodeBody (payload : List Byte) (rle : Bool) (s : State) : Answer :=
  .next (answer (.bytes (encodeBody payload rle)) s)

/-- `ENCODE_FRAME` (R116). -/
def execEncodeFrame (payload : List Byte) (rle : Bool) (s : State) : Answer :=
  .next (answer (.bytes (encodeFrame payload rle)) s)

/-- `DECODE_FRAME` (R118). It works on a private copy of the deframer registers. -/
def execDecodeFrame (buffer : List Byte) (s : State) : Answer :=
  .next (answer (.decoded (decodeFrame s.cfg buffer)) s)

/-- One step of `PUSH` (R162, R67): the deframer's step on the next byte of the chunk; the bytes after it are left to later
steps, so other agents' operations may fall between the bytes. The events stay in `ev_q`. -/
def pushByte (chunk : List Byte) (s : State) : State :=
  match chunk with
  | [] => answer .none s
  | b :: rest => pushRest rest (onRx (fun cfg => deframeStep cfg b) s)

/-- `PUSH` (R162). -/
def execPush (chunk : List Byte) (s : State) : Answer := .next (pushByte chunk s)

/-- `NEXT` (R163): take the oldest event, if there is one. -/
def popEvent (s : State) : State :=
  { s with rx := { s.rx with evQ := s.rx.evQ.tail }, result := .event s.rx.evQ.head? }

/-- `NEXT` (R163). One issued after a `PUSH` runs when the whole chunk is decoded (`fallsBetween`). -/
def execNext (s : State) : Answer := .next (popEvent s)

end Sys2Proof.Machine
end

