-- ==== Sys2Proof/Machine/Helpers.lean ====
section
/-! DEFINITION. The instructions of format `helper`: the named subroutines of the rules, each run on its own (41_deframer.md
R140 to R144, 42_session.md R180, R186, R187). They return nothing. -/

namespace Sys2Proof.Machine

open Host (Outcome)

/-- `deframe_step` (R140). -/
def execDeframeStep (b : Byte) (s : State) : Answer := .next (onRx (fun cfg => deframeStep cfg b) s)

/-- `count_wire` (R141). -/
def execCountWire (s : State) : Answer := .next (onRx countWire s)

/-- `mark_bad` (R142). -/
def execMarkBad (cause : Cause) (s : State) : Answer := .next (onRx (fun _ => markBad cause) s)

/-- `store` (R143). -/
def execStore (v : Byte) (s : State) : Answer := .next (onRx (fun cfg => store cfg v) s)

/-- `clear_frame` (R144). -/
def execClearFrame (s : State) : Answer := .next (onRx (fun _ => clearFrame) s)

/-- `session_event` (R180). -/
def execSessionEvent (e : Event) (s : State) : Answer := .next (answer .none (sessionEvent e s))

/-- `retry_or_fail` (R186). -/
def execRetryOrFail (s : State) : Answer := .next (answer .none (retryOrFail s))

/-- `enter_closed` (R187). -/
def execEnterClosed (cause : CloseCause) (s : State) : Answer := .next (answer .none (enterClosed cause s))

end Sys2Proof.Machine
end

