-- ==== Sys2Proof/Machine/Dispatch.lean ====
section
/-! DEFINITION. One arm per constructor of `Instr`, each a direct call of the instruction's meaning. -/

namespace Sys2Proof.Machine

open Host (Outcome)

def exec (i : Instr) (s : State) : Host.Outcome State Fault Refusal :=
  match i with
  | .huntStart => Sys2Proof.Machine.execHuntStart s
  | .huntAck => Sys2Proof.Machine.execHuntAck s
  | .huntNack => Sys2Proof.Machine.execHuntNack s
  | .huntInt => Sys2Proof.Machine.execHuntInt s
  | .huntNoise b => Sys2Proof.Machine.execHuntNoise b s
  | .escLit b => Sys2Proof.Machine.execEscLit b s
  | .inframeInt st => Sys2Proof.Machine.execInframeInt st s
  | .bodyEnd => Sys2Proof.Machine.execBodyEnd s
  | .bodyEscMark => Sys2Proof.Machine.execBodyEscMark s
  | .bodyRleMark => Sys2Proof.Machine.execBodyRleMark s
  | .bodyRawDollar => Sys2Proof.Machine.execBodyRawDollar s
  | .bodyData b => Sys2Proof.Machine.execBodyData b s
  | .rleCount b => Sys2Proof.Machine.execRleCount b s
  | .rleBadcount b => Sys2Proof.Machine.execRleBadcount b s
  | .ck1Digit b => Sys2Proof.Machine.execCk1Digit b s
  | .ck1Baddigit b => Sys2Proof.Machine.execCk1Baddigit b s
  | .ck2Digit b => Sys2Proof.Machine.execCk2Digit b s
  | .ck2Baddigit b => Sys2Proof.Machine.execCk2Baddigit b s
  | .hStatus => Sys2Proof.Machine.execHStatus s
  | .hSend payload => Sys2Proof.Machine.execHSend payload s
  | .hRecv => Sys2Proof.Machine.execHRecv s
  | .hSetNoack => Sys2Proof.Machine.execHSetNoack s
  | .hTimeout => Sys2Proof.Machine.execHTimeout s
  | .hLinkDown => Sys2Proof.Machine.execHLinkDown s
  | .hSetRle v => Sys2Proof.Machine.execHSetRle v s
  | .hReserved7 arg => Sys2Proof.Machine.execHReserved7 arg s
  | .hReserved8F low arg => Sys2Proof.Machine.execHReserved8F low arg s
  | .rxByte b => Sys2Proof.Machine.execRxByte b s
  | .txPop => Sys2Proof.Machine.execTxPop s
  | .reset => Sys2Proof.Machine.execReset s
  | .evAck => Sys2Proof.Machine.execEvAck s
  | .evNack => Sys2Proof.Machine.execEvNack s
  | .evPacket payload => Sys2Proof.Machine.execEvPacket payload s
  | .evReject cause => Sys2Proof.Machine.execEvReject cause s
  | .evInterrupt => Sys2Proof.Machine.execEvInterrupt s
  | .cksum bytes => Sys2Proof.Machine.execCksum bytes s
  | .hexenc c => Sys2Proof.Machine.execHexenc c s
  | .hexdec b => Sys2Proof.Machine.execHexdec b s
  | .escEnc b => Sys2Proof.Machine.execEscEnc b s
  | .rlePlan run => Sys2Proof.Machine.execRlePlan run s
  | .encodeBody payload rle => Sys2Proof.Machine.execEncodeBody payload rle s
  | .encodeFrame payload rle => Sys2Proof.Machine.execEncodeFrame payload rle s
  | .decodeFrame buffer => Sys2Proof.Machine.execDecodeFrame buffer s
  | .push chunk => Sys2Proof.Machine.execPush chunk s
  | .next => Sys2Proof.Machine.execNext s
  | .deframeStep b => Sys2Proof.Machine.execDeframeStep b s
  | .countWire => Sys2Proof.Machine.execCountWire s
  | .markBad cause => Sys2Proof.Machine.execMarkBad cause s
  | .store v => Sys2Proof.Machine.execStore v s
  | .clearFrame => Sys2Proof.Machine.execClearFrame s
  | .sessionEvent e => Sys2Proof.Machine.execSessionEvent e s
  | .retryOrFail => Sys2Proof.Machine.execRetryOrFail s
  | .enterClosed cause => Sys2Proof.Machine.execEnterClosed cause s

end Sys2Proof.Machine
end

