-- ==== Sys2Proof/Machine/Step.lean ====
section
/-! DEFINITION. One step of the machine: the next operation in the total order of the agents' operations (00_scope.md R10),
decoded and run whole. -/

namespace Sys2Proof.Machine

/-- Take the oldest waiting operation and run it. When no agent issues one, nothing changes (R10: "between two operations
the state does not change"; R269: the block never halts of its own accord). Bytes that are no operation are refused. -/
def step (s : State) : Host.Outcome State Fault Refusal :=
  match fetch s with
  | none => .next s
  | some (.ok i, s1) => exec i s1
  | some (.error r, _) => .refused (.notAnOperation r)

/-- The state `s` with the operation of a table word presented as the next one. A received-byte word is a byte presented to
the deframer while `rx_state` is the state its key names (R102), so that state is set with it; a word that names no
state or is no table word is presented as it stands, for the decoder to refuse. -/
def State.withFetchWord (s : State) (nbits w : Nat) : State :=
  match tableWord nbits w with
  | some ⟨.wire, [b, c]⟩ =>
    match rxStateOfCode c with
    | some st => { s with rx := { s.rx with rxState := st }, inbox := ⟨.wire, [b]⟩ :: s.inbox }
    | none => { s with inbox := ⟨.wire, [b, c]⟩ :: s.inbox }
  | some e => { s with inbox := e :: s.inbox }
  | none => { s with inbox := ⟨.host, []⟩ :: s.inbox }

end Sys2Proof.Machine
end

