-- ==== Sys2Proof/Safety.lean ====
section
/-! DEFINITION. The terms the statements use: the invariants of 10_state.md R43, the operations of the assembled block, valid
payloads (40_codec.md R122), and the vocabulary of "the first cause sticks" (41_deframer.md R142). None of it is part of a
meaning. -/

namespace Sys2Proof.Machine

/-! ### Invariants -/

/-- The invariants of R43 on the deframer registers that hold whatever rule runs, on its own or selected: (3), (4), (5) and
the range of `rx_wire_len` (R26). -/
structure RegisterInv (cfg : Config) (d : Deframer) : Prop where
  /-- R43 (3) -/
  bad_released : d.rxBad ≠ .ok → d.rxPayload = []
  /-- R43 (4) -/
  oversize_marked : cfg.maxFrame < d.rxWireLen → d.rxBad ≠ .ok
  /-- R43 (5), R23 -/
  payload_bound : d.rxPayload.length ≤ cfg.maxPayload
  /-- R26 -/
  wire_bound : d.rxWireLen ≤ cfg.maxFrame + 1

/-- The shape of a stored frame in R43 (12) and R33: its length, its `$`, and its `#` three bytes from the end. -/
def FrameShape (cfg : Config) (f : List Byte) : Prop :=
  4 ≤ f.length ∧ f.length ≤ cfg.maxFrame ∧ f[0]? = some 0x24 ∧ f[f.length - 3]? = some 0x23

/-- The invariants of R43 on the session registers that hold whatever operation runs: (6), (7), (8), the first half of
(10), and the shape of the stored frame (12). -/
structure SessionInv (cfg : Config) (m : Session) : Prop where
  /-- R43 (6) -/
  stored_iff_pending : m.txStored ≠ none ↔ m.sessState = .ackPending
  /-- R43 (7) -/
  armed_pending : m.noackArmed = true → m.sessState = .ackPending
  /-- R43 (8) -/
  fatal_iff_closed : m.fatalCause ≠ none ↔ m.sessState = .closed
  /-- R43 (10), first half; R32 -/
  retry_bound : m.retryCount ≤ cfg.maxRetries
  /-- R43 (12), R33 -/
  stored_shape : ∀ f, m.txStored = some f → FrameShape cfg f

/-- R43 (1) to (12): what holds between the operations of the assembled block. -/
structure BlockInv (s : State) : Prop where
  registers : RegisterInv s.cfg s.rx
  session : SessionInv s.cfg s.sess
  /-- R43 (1) -/
  hunt_clear : s.rx.rxState = .hunt →
    s.rx.rxSum = 0 ∧ s.rx.rxPayload = [] ∧ s.rx.rxLast = none ∧ s.rx.rxBad = .ok ∧ s.rx.rxWireLen = 0 ∧ s.rx.rxCkHi = 0
  /-- R43 (2) -/
  in_frame_counted : s.rx.rxState ≠ .hunt → 1 ≤ s.rx.rxWireLen
  /-- R43 (9) -/
  closed_quiet : s.sess.sessState = .closed → s.txFifo = [] ∧ s.rx.rxState = .hunt ∧ s.rx.evQ = []
  /-- R43 (10), second half -/
  retry_zero : s.sess.sessState = .idle ∨ s.sess.sessState = .noAck → s.sess.retryCount = 0
  /-- R43 (11) -/
  events_drained : s.rx.evQ = []
  /-- R43 (12), the stored frame deframed: it is the frame of a payload, and yields exactly that packet when the payload
  holds no 0x03 and fits the buffer -/
  stored_decodes : ∀ f, s.sess.txStored = some f → ∃ payload rle, f = encodeFrame payload rle ∧
    ((0x03 : Byte) ∉ payload → payload.length ≤ s.cfg.maxPayload →
      (deframeAll s.cfg f Deframer.reset).evQ = [.packet payload])

/-! ### Operations and payloads -/

/-- The operations of the assembled block (R10, 42_session.md): those of the transport, the host and reset. The others are
the parts it is made of, and the stand-alone Stream Decoder's. -/
def isBlockOp : Instr → Bool
  | .rxByte _ | .txPop | .reset => true
  | .hStatus | .hSend _ | .hRecv | .hSetNoack | .hTimeout | .hLinkDown | .hSetRle _ | .hReserved7 _
  | .hReserved8F _ _ => true
  | .huntStart | .huntAck | .huntNack | .huntInt | .huntNoise _ | .escLit _ | .inframeInt _ | .bodyEnd | .bodyEscMark
  | .bodyRleMark | .bodyRawDollar | .bodyData _ | .rleCount _ | .rleBadcount _ | .ck1Digit _ | .ck1Baddigit _
  | .ck2Digit _ | .ck2Baddigit _ => false
  | .evAck | .evNack | .evPacket _ | .evReject _ | .evInterrupt => false
  | .cksum _ | .hexenc _ | .hexdec _ | .escEnc _ | .rlePlan _ | .encodeBody _ _ | .encodeFrame _ _ | .decodeFrame _
  | .push _ | .next => false
  | .deframeStep _ | .countWire | .markBad _ | .store _ | .clearFrame | .sessionEvent _ | .retryOrFail
  | .enterClosed _ => false

/-- A valid payload (R122), for the receiver's parameters `cfg`. -/
def ValidPayload (cfg : Config) (rle : Bool) (payload : List Byte) : Prop :=
  (0x03 : Byte) ∉ payload ∧ (encodeFrame payload rle).length ≤ cfg.maxFrame ∧ payload.length ≤ cfg.maxPayload

/-! ### "The first cause sticks" -/

/-- `rx_bad` after checks made in the order given: a frame that is already bad keeps its cause, a good one takes the cause
of the first check that fires (R142). -/
def firstCause : RxBad → List (Bool × Cause) → RxBad
  | .bad c, _ => .bad c
  | .ok, [] => .ok
  | .ok, (fires, c) :: rest => if fires then .bad c else firstCause .ok rest

/-- `rx_payload` after the same checks: what a good frame now holds; nothing, when the frame has just gone bad (R142); as it
was, when it was bad before. -/
def heldPayload (before after : RxBad) (held good : List Byte) : List Byte :=
  match after with
  | .ok => good
  | .bad _ =>
    match before with
    | .ok => []
    | .bad _ => held

/-- The frame in flight has `MAX_FRAME` wire bytes or more already: the next byte passes the cap (R141). -/
def passesCap (s : State) : Bool := decide (s.cfg.maxFrame ≤ s.rx.rxWireLen)

/-- `rx_wire_len` after one more byte (R26): one more, saturating at `MAX_FRAME + 1`. -/
def nextWireLen (s : State) : Nat := min (s.rx.rxWireLen + 1) (s.cfg.maxFrame + 1)

/-- The event a frame ends in (R160), given `rx_bad` after the last checks. -/
def endOfFrame (bad : RxBad) (payload : List Byte) : Event :=
  match bad with
  | .ok => .packet payload
  | .bad c => .reject c

/-! ### A flipped bit in the checksum field -/

/-- Byte `b` with bit `k` flipped. -/
def flipBit (b : Byte) (k : Fin 8) : Byte := b ^^^ BitVec.ofNat 8 (2 ^ k.val)

/-- Of a hexadecimal digit: it is a letter, of either case (R91). -/
def isLetter (b : Byte) : Bool := decide (0x41 ≤ b.toNat)

/-- What R121 says of a good frame met in `s` at its checksum field, and finished in `t`, when bit `k` of the digit `d` of
the field arrives flipped. -/
def FlipOutcome (d : Byte) (k : Fin 8) (s t : State) : Prop :=
  if k = 5 ∧ isLetter d = true then
    t.rx = { Deframer.reset with evQ := s.rx.evQ ++ [.packet s.rx.rxPayload] }
  else if d = 0x43 ∧ k = 6 then
    t.rx.evQ = s.rx.evQ ++ [.interrupt] ∧ t.rx.rxState = .ck2
  else if hexval (flipBit d k) = none then
    t.rx = { Deframer.reset with evQ := s.rx.evQ ++ [.reject .badCkDigit] }
  else t.rx = { Deframer.reset with evQ := s.rx.evQ ++ [.reject .ckMismatch] }

/-! ### Named states -/

/-- The reset values of R45, field by field. -/
def AtResetValues (t : State) : Prop :=
  t.rx.rxState = .hunt ∧ t.rx.rxSum = 0 ∧ t.rx.rxPayload = [] ∧ t.rx.rxLast = none ∧ t.rx.rxBad = .ok ∧
  t.rx.rxWireLen = 0 ∧ t.rx.rxCkHi = 0 ∧ t.rx.evQ = [] ∧
  t.sess.sessState = .idle ∧ ackMode t.sess.sessState = true ∧ t.sess.noackArmed = false ∧ t.sess.retryCount = 0 ∧
  t.sess.txStored = none ∧ t.sess.fatalCause = none ∧ t.sess.txRleEn = false ∧ t.txFifo = [] ∧ t.hostQ = []

/-- The state R187 describes: closed with its cause, the deframer and the transmit side cleared; `retry_count`,
`tx_rle_en`, `host_q` and everything else as in `s`. -/
def closedBy (cause : CloseCause) (s : State) : State :=
  { s with
    rx :=
      { rxState := .hunt, rxSum := 0, rxPayload := [], rxLast := none, rxBad := .ok, rxWireLen := 0, rxCkHi := 0, evQ := [] }
    sess :=
      { sessState := .closed, noackArmed := false, retryCount := s.sess.retryCount, txStored := none
        fatalCause := some cause, txRleEn := s.sess.txRleEn }
    txFifo := [] }

/-- The state after one retransmission of `frame` (R186): everything else as in `s`. -/
def retriedWith (frame : List Byte) (s : State) : State :=
  { s with sess := { s.sess with retryCount := s.sess.retryCount + 1 }, txFifo := s.txFifo ++ frame }

/-! ### Runs of operations -/

/-- Operations run one after another, stopping at the first that does not answer a next state. -/
def execAll : List Instr → State → Host.Outcome State Fault Refusal
  | [], s => .next s
  | i :: rest, s =>
    match exec i s with
    | .next t => execAll rest t
    | .fault r => .fault r
    | .refused r => .refused r

/-- So many steps of the machine one after another, stopping at the first that does not answer a next state. -/
def stepN : Nat → State → Host.Outcome State Fault Refusal
  | 0, s => .next s
  | n + 1, s =>
    match step s with
    | .next t => stepN n t
    | .fault r => .fault r
    | .refused r => .refused r

/-! ### Pushed chunks among other operations (20_memory.md R66, R67) -/

/-- The bytes an operation pushes. -/
def pushedBytes : Instr → List Byte
  | .push chunk => chunk
  | _ => []

/-- How many steps an operation takes: a `PUSH` one for each byte (and one when it has none), every other one. -/
def stepsOf : Instr → Nat
  | .push chunk => max 1 chunk.length
  | _ => 1

/-- An operation is a `PUSH`. -/
def isPush : Instr → Bool
  | .push _ => true
  | _ => false

/-- The operations of the host, of the transmit side and of the Codec that neither read nor write the deframer group in
any state. `H_LINK_DOWN`, `H_TIMEOUT` and `RESET` are not among them: a close and a reset clear the deframer. -/
def sparesDeframer : Instr → Bool
  | .hStatus | .hSend _ | .hRecv | .hSetNoack | .hSetRle _ | .hReserved7 _ | .hReserved8F _ _ | .txPop => true
  | .cksum _ | .hexenc _ | .hexdec _ | .escEnc _ | .rlePlan _ | .encodeBody _ _ | .encodeFrame _ _ | .decodeFrame _ => true
  | .evAck | .evPacket _ | .evReject _ | .evInterrupt => true
  | _ => false

end Sys2Proof.Machine
end

