-- ==== Sys2Proof/Certificates/Slice0/Obligations.lean ====
section
/-! DEFINITION. The statements for the provers. Each says which rule of spec/ it formalises; where it rests on a choice of the
model it names the log entry. A next state is written as `s` with the fields an operation changes, so the frame (all the
rest unchanged) is part of every equation. -/

open Sys2Proof Sys2Proof.Machine

/-! ### Reset and the step -/

/-- R45, R197: in every state `RESET` answers a state with every field at its reset value and the parameters untouched; the
machine starts in such a state. -/
def Obligations.ResetGivesTheSpecValues : Prop :=
  AtResetValues State.reset ∧ ∀ s : State, ∃ t, exec .reset s = .next t ∧ AtResetValues t ∧ t.cfg = s.cfg

/-- R10 and log entry 3: when the oldest waiting port event decodes to an operation, the step is that operation's effect on
the state without the event. -/
def Obligations.StepRunsTheDecodedOperation : Prop :=
  ∀ (s : State) (e : PortEvent) (rest : List PortEvent) (i : Instr),
    s.inbox = e :: rest → decode (fetchWord s.rx.rxState e) = .ok i → step s = exec i { s with inbox := rest }

/-- R10, "between two operations the state does not change", and log entry 3: with no operation waiting a step changes
nothing; bytes that are no operation are refused with the decoder's reason (the model's choice). -/
def Obligations.StepWithoutAnOperation : Prop :=
  (∀ s : State, s.inbox = [] → step s = .next s) ∧
  (∀ (s : State) (e : PortEvent) (rest : List PortEvent) (r : DecodeError),
    s.inbox = e :: rest → decode (fetchWord s.rx.rxState e) = .error r → step s = .refused (.notAnOperation r))

/-- R240: every operation is total and returns; no operand and no state makes one stop. -/
def Obligations.EveryOperationAnswersANextState : Prop :=
  ∀ (i : Instr) (s : State), ∃ t, exec i s = .next t

/-- R8: the parameters are constant; no operation, `RESET` included, changes them. -/
def Obligations.ParametersAreConstant : Prop :=
  ∀ (i : Instr) (s t : State), exec i s = .next t → t.cfg = s.cfg

/-! ### Encoding -/

/-- R90, R97, R102 and log entry 4: decoding the encoding of a well-formed instruction gives it back, with every operand. -/
def Obligations.DecodeInvertsEncode : Prop :=
  ∀ i : Instr, i.WF → decode (encode i) = .ok i

/-- R90, R97, R102: what the decoder answers is well formed. -/
def Obligations.DecodedOperationsAreWellFormed : Prop :=
  ∀ (w : PortEvent) (i : Instr), decode w = .ok i → i.WF

/-- R90, R102: for every state and byte the byte-class map selects the first row of spec/opcode_table.json that applies to
the 11-bit key. -/
def Obligations.SelectionFollowsTheOpcodeTable : Prop :=
  ∀ (st : RxState) (b : Byte), tableMnemonic (st.code.toNat * 256 + b.toNat) = (selectRow st b).wireMnemonic

/-- Words written out from R90 and R97 decode to the instructions they stand for. -/
def Obligations.WordsOfTheSpecDecode : Prop :=
  decodeTableWord 16 0x024 = some .huntStart ∧ decodeTableWord 16 0x041 = some (.huntNoise 0x41) ∧
  decodeTableWord 16 0x203 = some (.escLit 0x03) ∧ decodeTableWord 16 0x403 = some (.inframeInt .ck1) ∧
  decodeTableWord 16 0x323 = some (.rleCount 0x23) ∧ decodeTableWord 16 0x31F = some (.rleBadcount 0x1F) ∧
  decodeTableWord 16 0x146 = some (.bodyData 0x46) ∧ decodeTableWord 16 0x546 = some (.ck2Digit 0x46) ∧
  decodeTableWord 8 0x0 = some .hStatus ∧ decodeTableWord 8 0x5 = some .hLinkDown ∧
  decodeTableWord 8 0xB = some (.hReserved8F 3 []) ∧ decodeTableWord 16 0x600 = none

/-- R140: one received byte at the input of the stand-alone Stream Decoder is one `deframe_step`, whichever row the decoder
selects for it. -/
def Obligations.WireByteRunsDeframeStep : Prop :=
  ∀ (s : State) (b : Byte) (rest : List PortEvent),
    s.inbox = ⟨.wire, [b]⟩ :: rest → step s = exec (.deframeStep b) { s with inbox := rest }

/-- R140: `deframe_step(b)` has the effect of the one row the byte-class map of R90 selects by `rx_state` and `b`. -/
def Obligations.DeframeStepIsTheSelectedRow : Prop :=
  ∀ (s : State) (b : Byte), ∃ t,
    exec (.deframeStep b) s = .next t ∧ exec (selectRow s.rx.rxState b) s = .next t

/-! ### The deframer's rows -/

/-- R145: `$` in `HUNT` clears the frame registers, counts one wire byte and moves to `BODY`. -/
def Obligations.StartOfFrameOpensABody : Prop :=
  ∀ s : State, s.cfg.WF → exec .huntStart s = .next { s with
    rx := { rxState := .body, rxSum := 0, rxPayload := [], rxLast := none, rxBad := .ok, rxWireLen := 1, rxCkHi := 0,
            evQ := s.rx.evQ }
    result := .none }

/-- R146 to R150: each signal byte, outside a frame and inside one, is one event and changes no register; any other byte
outside a frame is discarded. -/
def Obligations.SignalsEmitOneEventAndNoiseNone : Prop :=
  ∀ (s : State) (st : RxState) (b : Byte),
    exec .huntAck s = .next { s with rx := { s.rx with evQ := s.rx.evQ ++ [.ack] }, result := .none } ∧
    exec .huntNack s = .next { s with rx := { s.rx with evQ := s.rx.evQ ++ [.nack] }, result := .none } ∧
    exec .huntInt s = .next { s with rx := { s.rx with evQ := s.rx.evQ ++ [.interrupt] }, result := .none } ∧
    exec (.inframeInt st) s = .next { s with rx := { s.rx with evQ := s.rx.evQ ++ [.interrupt] }, result := .none } ∧
    exec (.huntNoise b) s = .next { s with result := .none }

/-- R151, R153: a literal byte stores itself and an escape operand stores its exclusive-or with 0x20; both are summed and
counted as they are, the cap is checked before the buffer. -/
def Obligations.LiteralAndEscapeOperandAreStored : Prop :=
  ∀ (s : State) (b : Byte),
    let bad := firstCause s.rx.rxBad
      [(passesCap s, .oversize), (decide (s.cfg.maxPayload ≤ s.rx.rxPayload.length), .oversize)]
    exec (.bodyData b) s = .next { s with
      rx := { s.rx with
        rxSum := s.rx.rxSum + b, rxWireLen := nextWireLen s, rxLast := some b, rxBad := bad
        rxPayload := heldPayload s.rx.rxBad bad s.rx.rxPayload (s.rx.rxPayload ++ [b]) }
      result := .none } ∧
    exec (.escLit b) s = .next { s with
      rx := { s.rx with
        rxState := .body
        rxSum := s.rx.rxSum + b, rxWireLen := nextWireLen s, rxLast := some (b ^^^ 0x20), rxBad := bad
        rxPayload := heldPayload s.rx.rxBad bad s.rx.rxPayload (s.rx.rxPayload ++ [b ^^^ 0x20]) }
      result := .none }

/-- R152, R154, R158: the escape marker and the run marker are summed, the terminator is not; a run marker without a
preceding decoded byte is malformed; each moves the scan to its operand. -/
def Obligations.MarkersAndTerminatorMoveTheScan : Prop :=
  ∀ s : State,
    let capped := firstCause s.rx.rxBad [(passesCap s, .oversize)]
    let marked := firstCause s.rx.rxBad [(passesCap s, .oversize), (s.rx.rxLast.isNone, .badRle)]
    exec .bodyEscMark s = .next { s with
      rx := { s.rx with
        rxState := .esc, rxSum := s.rx.rxSum + 0x7D, rxWireLen := nextWireLen s, rxBad := capped
        rxPayload := heldPayload s.rx.rxBad capped s.rx.rxPayload s.rx.rxPayload }
      result := .none } ∧
    exec .bodyRleMark s = .next { s with
      rx := { s.rx with
        rxState := .rle, rxSum := s.rx.rxSum + 0x2A, rxWireLen := nextWireLen s, rxBad := marked
        rxPayload := heldPayload s.rx.rxBad marked s.rx.rxPayload s.rx.rxPayload }
      result := .none } ∧
    exec .bodyEnd s = .next { s with
      rx := { s.rx with
        rxState := .ck1, rxWireLen := nextWireLen s, rxBad := capped
        rxPayload := heldPayload s.rx.rxBad capped s.rx.rxPayload s.rx.rxPayload }
      result := .none }

/-- R156, R157: a bad run count and a raw `$` mark the frame after the cap has been checked; both are summed; the payload
storage is released. -/
def Obligations.MalformedBodyBytesMarkTheFrame : Prop :=
  ∀ (s : State) (b : Byte),
    let badCount := firstCause s.rx.rxBad [(passesCap s, .oversize), (true, .badRle)]
    let dollar := firstCause s.rx.rxBad [(passesCap s, .oversize), (true, .rawDollar)]
    exec (.rleBadcount b) s = .next { s with
      rx := { s.rx with
        rxState := .body, rxSum := s.rx.rxSum + b, rxWireLen := nextWireLen s, rxBad := badCount
        rxPayload := heldPayload s.rx.rxBad badCount s.rx.rxPayload s.rx.rxPayload }
      result := .none } ∧
    exec .bodyRawDollar s = .next { s with
      rx := { s.rx with
        rxSum := s.rx.rxSum + 0x24, rxWireLen := nextWireLen s, rxBad := dollar
        rxPayload := heldPayload s.rx.rxBad dollar s.rx.rxPayload s.rx.rxPayload }
      result := .none }

/-- R155: a run count stores the preceding decoded byte `b - 29` more times, all of them or, when they do not fit, none and
the frame is `OVERSIZE`; with no preceding byte nothing is stored. -/
def Obligations.RunCountStoresTheCopies : Prop :=
  ∀ (s : State) (b : Byte), IsRunCount b →
    (∀ v, s.rx.rxLast = some v →
      let bad := firstCause s.rx.rxBad
        [(passesCap s, .oversize), (decide (s.cfg.maxPayload < s.rx.rxPayload.length + (b.toNat - 29)), .oversize)]
      exec (.rleCount b) s = .next { s with
        rx := { s.rx with
          rxState := .body, rxSum := s.rx.rxSum + b, rxWireLen := nextWireLen s, rxBad := bad
          rxPayload := heldPayload s.rx.rxBad bad s.rx.rxPayload
            (s.rx.rxPayload ++ List.replicate (b.toNat - 29) v) }
        result := .none }) ∧
    (s.rx.rxLast = none →
      let bad := firstCause s.rx.rxBad [(passesCap s, .oversize)]
      exec (.rleCount b) s = .next { s with
        rx := { s.rx with
          rxState := .body, rxSum := s.rx.rxSum + b, rxWireLen := nextWireLen s, rxBad := bad
          rxPayload := heldPayload s.rx.rxBad bad s.rx.rxPayload s.rx.rxPayload }
        result := .none })

/-- R159: the first checksum position takes a digit's value or marks `BAD_CK_DIGIT`; the scan moves on in both cases. -/
def Obligations.FirstChecksumPositionIsConsumed : Prop :=
  ∀ (s : State) (b : Byte),
    (IsHexDigit b →
      let bad := firstCause s.rx.rxBad [(passesCap s, .oversize)]
      ∃ h, hexval b = some h ∧ exec (.ck1Digit b) s = .next { s with
        rx := { s.rx with
          rxState := .ck2, rxCkHi := h, rxWireLen := nextWireLen s, rxBad := bad
          rxPayload := heldPayload s.rx.rxBad bad s.rx.rxPayload s.rx.rxPayload }
        result := .none }) ∧
    (¬ IsHexDigit b →
      let bad := firstCause s.rx.rxBad [(passesCap s, .oversize), (true, .badCkDigit)]
      exec (.ck1Baddigit b) s = .next { s with
        rx := { s.rx with
          rxState := .ck2, rxWireLen := nextWireLen s, rxBad := bad
          rxPayload := heldPayload s.rx.rxBad bad s.rx.rxPayload s.rx.rxPayload }
        result := .none })

/-- R160: the second checksum position ends the frame with exactly one event, `Packet` when no cause was found and the field
equals the sum, `Reject` with the first cause when not; the registers are cleared and the scan is back in `HUNT`. -/
def Obligations.SecondChecksumPositionEndsTheFrame : Prop :=
  ∀ (s : State) (b : Byte),
    (IsHexDigit b → ∃ lo, hexval b = some lo ∧ exec (.ck2Digit b) s = .next { s with
      rx := { Deframer.reset with
        evQ := s.rx.evQ ++ [endOfFrame
          (firstCause s.rx.rxBad [(passesCap s, .oversize),
            (decide (16 * s.rx.rxCkHi.toNat + lo.toNat ≠ s.rx.rxSum.toNat), .ckMismatch)]) s.rx.rxPayload] }
      result := .none }) ∧
    (¬ IsHexDigit b → exec (.ck2Baddigit b) s = .next { s with
      rx := { Deframer.reset with
        evQ := s.rx.evQ ++ [endOfFrame
          (firstCause s.rx.rxBad [(passesCap s, .oversize), (true, .badCkDigit)]) s.rx.rxPayload] }
      result := .none })

/-- R141, R142, R143, R144: what the four helpers of the deframer do. -/
def Obligations.DeframerHelpersChangeTheirRegisters : Prop :=
  ∀ (s : State) (c : Cause) (v : Byte),
    let capped := firstCause s.rx.rxBad [(passesCap s, .oversize)]
    let marked := firstCause s.rx.rxBad [(true, c)]
    let full := firstCause s.rx.rxBad [(decide (s.cfg.maxPayload ≤ s.rx.rxPayload.length), .oversize)]
    exec .countWire s = .next { s with
      rx := { s.rx with
        rxWireLen := nextWireLen s, rxBad := capped
        rxPayload := heldPayload s.rx.rxBad capped s.rx.rxPayload s.rx.rxPayload }
      result := .none } ∧
    exec (.markBad c) s = .next { s with
      rx := { s.rx with
        rxBad := marked, rxPayload := heldPayload s.rx.rxBad marked s.rx.rxPayload s.rx.rxPayload }
      result := .none } ∧
    exec (.store v) s = .next { s with
      rx := { s.rx with
        rxLast := some v, rxBad := full
        rxPayload := heldPayload s.rx.rxBad full s.rx.rxPayload (s.rx.rxPayload ++ [v]) }
      result := .none } ∧
    exec .clearFrame s = .next { s with
      rx := { s.rx with
        rxSum := 0, rxPayload := [], rxLast := none, rxBad := .ok, rxWireLen := 0, rxCkHi := 0 }
      result := .none }

/-! ### The Stream Decoder as a whole -/

/-- R140, R146 to R148, R150, R160: a step emits at most one event, and each kind of event has one place: signals at their
own byte, `Packet` and `Reject` at the second checksum position only. -/
def Obligations.DeframeStepEmitsAtMostOneEvent : Prop :=
  ∀ (s t : State) (b : Byte), exec (.deframeStep b) s = .next t →
    t.rx.evQ = s.rx.evQ ∨ ∃ e, t.rx.evQ = s.rx.evQ ++ [e] ∧
      match e with
      | .ack => s.rx.rxState = .hunt ∧ b = 0x2B
      | .nack => s.rx.rxState = .hunt ∧ b = 0x2D
      | .interrupt => s.rx.rxState ≠ .esc ∧ b = 0x03
      | .packet _ | .reject _ => s.rx.rxState = .ck2 ∧ b ≠ 0x03 ∧ t.rx.rxState = .hunt

/-- R142, R160, R161: a frame that has gone bad stays bad with its first cause until it ends, and ends in one `Reject` with
that cause; meanwhile only `Interrupt` events come out. -/
def Obligations.BadFrameEndsInItsFirstCause : Prop :=
  ∀ (s t : State) (b : Byte) (c : Cause),
    s.rx.rxBad = .bad c → s.rx.rxState ≠ .hunt → exec (.deframeStep b) s = .next t →
      (t.rx.rxState ≠ .hunt ∧ t.rx.rxBad = .bad c ∧
        (t.rx.evQ = s.rx.evQ ∨ t.rx.evQ = s.rx.evQ ++ [.interrupt])) ∨
      (t.rx.rxState = .hunt ∧ t.rx.rxBad = .ok ∧ t.rx.evQ = s.rx.evQ ++ [.reject c])

/-- R162, R67: a step of `PUSH` is the deframer's step on the first byte of the chunk; the rest of the chunk, if any, goes on
later, behind some of the waiting operations, all of them the host's, the transmit side's or reset's. Where it goes on is
free (log entry 9). -/
def Obligations.PushStepsThroughTheChunk : Prop :=
  ∀ (s : State) (b c : Byte) (cs : List Byte),
    exec (.push []) s = .next { s with result := .none } ∧
    exec (.push [b]) s = exec (.deframeStep b) s ∧
    ∃ t before after, exec (.deframeStep b) s = .next t ∧
      s.inbox = before ++ after ∧ (∀ e ∈ before, fallsBetween e = true) ∧
      exec (.push (b :: c :: cs)) s =
        .next { t with inbox := before ++ encode (.push (c :: cs)) :: after, freeUse := s.freeUse + 1 }

/-- R66, R67: other agents' operations may fall between the bytes of pushed chunks, and the result does not depend on where:
when the waiting operations are `PUSH`es and operations that spare the deframer, in any order, all of them are done after
one step for each byte and each other operation; the deframer is then as after all the pushed bytes in their order, and the
session and the boundary queues are as after the other operations alone. R163: the `NEXT`s issued behind them all return the
events of all those bytes, one each, oldest first, then `None`, whatever waits behind. -/
def Obligations.OperationsBetweenPushedBytesDoNotMatter : Prop :=
  ∀ (s : State) (ops : List Instr), (∀ i ∈ ops, i.WF ∧ (isPush i = true ∨ sparesDeframer i = true)) →
    (s.inbox = ops.map encode →
      ∃ t u, stepN (ops.map stepsOf).sum s = .next t ∧ t.inbox = [] ∧ t.cfg = s.cfg ∧
        t.rx = deframeAll s.cfg (ops.map pushedBytes).flatten s.rx ∧
        execAll (ops.filter fun i => !isPush i) s = .next u ∧
        t.sess = u.sess ∧ t.txFifo = u.txFifo ∧ t.hostQ = u.hostQ) ∧
    (∀ (k : Nat) (rest : List PortEvent), s.inbox = ops.map encode ++ List.replicate (k + 1) (encode .next) ++ rest →
      ∃ t, stepN ((ops.map stepsOf).sum + (k + 1)) s = .next t ∧ t.inbox = rest ∧
        t.rx = (let rx := deframeAll s.cfg (ops.map pushedBytes).flatten s.rx
                { rx with evQ := rx.evQ.drop (k + 1) }) ∧
        t.result = .event (deframeAll s.cfg (ops.map pushedBytes).flatten s.rx).evQ[k]?)

/-- R164: the events are a function of the concatenation of the chunks, the deframer registers and the parameters; not of
where the chunks are cut, not of the session state, and not of when `NEXT` is called. -/
def Obligations.ChunkingDoesNotMatter : Prop :=
  (∀ (s s' : State) (chunks chunks' : List (List Byte)), s.cfg = s'.cfg → s.rx = s'.rx →
    chunks.flatten = chunks'.flatten →
    s.inbox = chunks.map (fun c => encode (.push c)) → s'.inbox = chunks'.map (fun c => encode (.push c)) →
    ∃ t t', stepN (chunks.map fun c => stepsOf (.push c)).sum s = .next t ∧
      stepN (chunks'.map fun c => stepsOf (.push c)).sum s' = .next t' ∧
      t.inbox = [] ∧ t'.inbox = [] ∧ t.rx = t'.rx ∧ t.rx = deframeAll s.cfg chunks.flatten s.rx) ∧
  (∀ (s : State) (chunk : List Byte) (e : Event) (q : List Event), s.rx.evQ = e :: q →
    ∃ t t', stepN (1 + stepsOf (.push chunk)) { s with inbox := [encode .next, encode (.push chunk)] } = .next t ∧
      stepN (1 + stepsOf (.push chunk)) { s with inbox := [encode (.push chunk), encode .next] } = .next t' ∧
      t.inbox = [] ∧ t'.inbox = [] ∧ t.rx = t'.rx ∧
      t.rx = deframeAll s.cfg chunk { s.rx with evQ := q })

/-- R163: `NEXT` takes the oldest event, or returns `None` and disturbs nothing. -/
def Obligations.NextTakesTheOldestEvent : Prop :=
  ∀ s : State,
    (s.rx.evQ = [] → exec .next s = .next { s with result := .event none }) ∧
    (∀ e q, s.rx.evQ = e :: q →
      exec .next s = .next { s with rx := { s.rx with evQ := q }, result := .event (some e) })

/-! ### The session's reactions -/

/-- R182: an `Ack` settles the frame outstanding, with the switch to `NO_ACK` when it was armed, and is ignored in every other
state. -/
def Obligations.AckSettlesTheStoredFrame : Prop :=
  ∀ s : State,
    (s.sess.sessState = .ackPending → exec .evAck s = .next { s with
      sess := { s.sess with
        sessState := if s.sess.noackArmed then .noAck else .idle
        noackArmed := false, txStored := none, retryCount := 0 }
      result := .none }) ∧
    (s.sess.sessState ≠ .ackPending → exec .evAck s = .next { s with result := .none })

/-- R183, R186, R192: with a frame outstanding, a `Nack`, a timeout and `retry_or_fail` retransmit the stored bytes and count,
up to `MAX_RETRIES`; the next one closes the session. -/
def Obligations.NackAndTimeoutRetransmitOrClose : Prop :=
  ∀ (s : State) (f : List Byte), s.sess.sessState = .ackPending → s.sess.txStored = some f →
    (s.sess.retryCount < s.cfg.maxRetries →
      exec .retryOrFail s = .next { retriedWith f s with result := .none } ∧
      exec .evNack s = .next { retriedWith f s with result := .none } ∧
      exec .hTimeout s = .next { retriedWith f s with result := .status .ok }) ∧
    (s.cfg.maxRetries ≤ s.sess.retryCount →
      exec .retryOrFail s = .next { closedBy .retryExhausted s with result := .none } ∧
      exec .evNack s = .next { closedBy .retryExhausted s with result := .none } ∧
      exec .hTimeout s = .next { closedBy .retryExhausted s with result := .status .ok })

/-- R183, R192: a `Nack` is ignored and a timeout has no effect when no frame is outstanding; `CLOSED` refuses the
timeout. -/
def Obligations.NackAndTimeoutWithNothingOutstanding : Prop :=
  ∀ s : State,
    (s.sess.sessState ≠ .ackPending → exec .evNack s = .next { s with result := .none }) ∧
    (s.sess.sessState = .idle ∨ s.sess.sessState = .noAck →
      exec .hTimeout s = .next { s with result := .status .ok }) ∧
    (s.sess.sessState = .closed → exec .hTimeout s = .next { s with result := .status .closed })

/-- Log entry 5 (the model's choice, a free value): `retry_or_fail` outside its stated precondition, with nothing stored,
still counts, and appends bytes that nothing constrains. -/
def Obligations.RetryWithNothingStoredAppendsFreeBytes : Prop :=
  ∀ s : State, s.sess.txStored = none → s.sess.retryCount < s.cfg.maxRetries →
    ∃ u, exec .retryOrFail s = .next { retriedWith u s with result := .none, freeUse := s.freeUse + 1 }

/-- R184, R185, R188: a packet is answered with `+` and delivered, a reject answered with `-`, both answers only while
acknowledgment mode is on; an interrupt is delivered in every state. -/
def Obligations.PacketRejectAndInterruptReactions : Prop :=
  ∀ (s : State) (p : List Byte) (c : Cause),
    exec (.evPacket p) s = .next { s with
      txFifo := if s.sess.sessState = .idle ∨ s.sess.sessState = .ackPending then s.txFifo ++ [0x2B] else s.txFifo
      hostQ := s.hostQ ++ [.packet p], result := .none } ∧
    exec (.evReject c) s = .next { s with
      txFifo := if s.sess.sessState = .idle ∨ s.sess.sessState = .ackPending then s.txFifo ++ [0x2D] else s.txFifo
      result := .none } ∧
    exec .evInterrupt s = .next { s with hostQ := s.hostQ ++ [.interrupt], result := .none }

/-- R180: `session_event(E)` applies exactly the reaction of the event. -/
def Obligations.SessionEventSelectsItsReaction : Prop :=
  ∀ s : State,
    (∃ t, exec (.sessionEvent .ack) s = .next t ∧ exec .evAck s = .next t) ∧
    (∃ t, exec (.sessionEvent .nack) s = .next t ∧ exec .evNack s = .next t) ∧
    (∀ p, ∃ t, exec (.sessionEvent (.packet p)) s = .next t ∧ exec (.evPacket p) s = .next t) ∧
    (∀ c, ∃ t, exec (.sessionEvent (.reject c)) s = .next t ∧ exec (.evReject c) s = .next t) ∧
    (∃ t, exec (.sessionEvent .interrupt) s = .next t ∧ exec .evInterrupt s = .next t)

/-! ### The host's operations and the ports -/

/-- R187, R193: entering the fatal state clears the transmit side, the stored frame, the armed bit and the deframer, and keeps
the rest; `H_LINK_DOWN` does so except in `CLOSED`, where the first cause stays. -/
def Obligations.ClosingClearsAndKeeps : Prop :=
  ∀ (s : State) (c : CloseCause),
    exec (.enterClosed c) s = .next { closedBy c s with result := .none } ∧
    (s.sess.sessState ≠ .closed → exec .hLinkDown s = .next { closedBy .linkDown s with result := .status .ok }) ∧
    (s.sess.sessState = .closed → exec .hLinkDown s = .next { s with result := .status .ok })

/-- R189: `H_SEND` is refused with `CLOSED`, `BUSY` and `TOO_LONG`, in that order; else it appends the encoded frame, and from
`IDLE` stores it and waits for its acknowledgment. -/
def Obligations.SendAppendsAndStoresTheFrame : Prop :=
  ∀ (s : State) (p : List Byte),
    let f := encodeFrame p s.sess.txRleEn
    (s.sess.sessState = .closed → exec (.hSend p) s = .next { s with result := .status .closed }) ∧
    (s.sess.sessState = .ackPending → exec (.hSend p) s = .next { s with result := .status .busy }) ∧
    (s.sess.sessState = .idle ∨ s.sess.sessState = .noAck → s.cfg.maxFrame < f.length →
      exec (.hSend p) s = .next { s with result := .status .tooLong }) ∧
    (s.sess.sessState = .idle → f.length ≤ s.cfg.maxFrame →
      exec (.hSend p) s = .next { s with
        txFifo := s.txFifo ++ f
        sess := { s.sess with sessState := .ackPending, txStored := some f, retryCount := 0 }
        result := .status .ok }) ∧
    (s.sess.sessState = .noAck → f.length ≤ s.cfg.maxFrame →
      exec (.hSend p) s = .next { s with txFifo := s.txFifo ++ f, result := .status .ok })

/-- R190, R196: `H_RECV` and `TX_POP` take the oldest item or byte, or return `None` and change nothing, in every state. -/
def Obligations.RecvAndPopTakeTheOldest : Prop :=
  ∀ s : State,
    (s.hostQ = [] → exec .hRecv s = .next { s with result := .item none }) ∧
    (∀ x q, s.hostQ = x :: q → exec .hRecv s = .next { s with hostQ := q, result := .item (some x) }) ∧
    (s.txFifo = [] → exec .txPop s = .next { s with result := .byte none }) ∧
    (∀ b q, s.txFifo = b :: q → exec .txPop s = .next { s with txFifo := q, result := .byte (some b) })

/-- R191: `H_SET_NOACK` switches at once from `IDLE`, arms the switch in `ACK_PENDING`, and does nothing in `NO_ACK`. -/
def Obligations.SetNoackSwitchesOrArms : Prop :=
  ∀ s : State,
    (s.sess.sessState = .closed → exec .hSetNoack s = .next { s with result := .status .closed }) ∧
    (s.sess.sessState = .idle → exec .hSetNoack s =
      .next { s with sess := { s.sess with sessState := .noAck }, result := .status .ok }) ∧
    (s.sess.sessState = .ackPending → exec .hSetNoack s =
      .next { s with sess := { s.sess with noackArmed := true }, result := .status .ok }) ∧
    (s.sess.sessState = .noAck → exec .hSetNoack s = .next { s with result := .status .ok })

/-- R194: `H_SET_RLE` writes the control bit and nothing else; `CLOSED` refuses it. -/
def Obligations.SetRleWritesTheControlBit : Prop :=
  ∀ (s : State) (v : Bool),
    (s.sess.sessState = .closed → exec (.hSetRle v) s = .next { s with result := .status .closed }) ∧
    (s.sess.sessState ≠ .closed → exec (.hSetRle v) s =
      .next { s with sess := { s.sess with txRleEn := v }, result := .status .ok })

/-- R195, R41: `H_STATUS` returns the record and changes nothing, in every state. -/
def Obligations.StatusReturnsTheRecord : Prop :=
  ∀ s : State, exec .hStatus s = .next { s with
    result := .record
      { state := s.sess.sessState
        ackMode := decide (s.sess.sessState = .idle ∨ s.sess.sessState = .ackPending)
        noackArmed := s.sess.noackArmed, retryCount := s.sess.retryCount, fatalCause := s.sess.fatalCause
        txRleEn := s.sess.txRleEn, rxAvail := decide (s.hostQ ≠ []), txAvail := decide (s.txFifo ≠ []) } }

/-- R201: a reserved host code returns `BAD_OP` and changes nothing, in every state, whatever its argument. -/
def Obligations.ReservedCodesReturnBadOp : Prop :=
  ∀ (s : State) (low : BitVec 3) (arg : List Byte),
    exec (.hReserved7 arg) s = .next { s with result := .status .badOp } ∧
    exec (.hReserved8F low arg) s = .next { s with result := .status .badOp }

/-- R229: an operation that returns a status other than `OK` changes no state. -/
def Obligations.RefusalsChangeNothing : Prop :=
  ∀ (i : Instr) (s t : State) (st : Status),
    exec i s = .next t → t.result = .status st → st ≠ .ok → t = { s with result := .status st }

/-- R181: in `CLOSED` a received byte is discarded; else, with `ev_q` empty as it is between operations (R43 (11)), it is one
deframer step, the event it emits, if any, is given to the session at once, and `ev_q` is empty again. -/
def Obligations.ReceivedByteIsStepThenReaction : Prop :=
  ∀ (s : State) (b : Byte),
    (s.sess.sessState = .closed → exec (.rxByte b) s = .next { s with result := .none }) ∧
    (s.sess.sessState ≠ .closed → s.rx.evQ = [] → ∃ t, exec (.deframeStep b) s = .next t ∧
      ((t.rx.evQ = [] ∧ exec (.rxByte b) s = .next t) ∨
        ∃ e u, t.rx.evQ = [e] ∧ exec (.rxByte b) s = .next u ∧ u.rx.evQ = [] ∧
          exec (.sessionEvent e) { t with rx := { t.rx with evQ := [] } } = .next u))

/-! ### The Codec -/

/-- R110: the checksum is the sum of the bytes modulo 256. -/
def Obligations.ChecksumIsTheByteSum : Prop :=
  ∀ (s : State) (bytes : List Byte),
    exec (.cksum bytes) s =
      .next { s with result := .sum (BitVec.ofNat 8 ((bytes.map fun b => b.toNat).sum % 256)) }

/-- R111, R112, R91, R92: two lowercase digits, high nibble first; and the value of a digit of either case. -/
def Obligations.HexDigitsEncodeAndDecode : Prop :=
  (∀ (s : State) (c : Byte), ∃ hi lo, exec (.hexenc c) s = .next { s with result := .bytes [hi, lo] } ∧
    hi.toNat = (if c.toNat / 16 < 10 then 0x30 + c.toNat / 16 else 0x61 + (c.toNat / 16 - 10)) ∧
    lo.toNat = (if c.toNat % 16 < 10 then 0x30 + c.toNat % 16 else 0x61 + (c.toNat % 16 - 10))) ∧
  (∀ (s : State) (b : Byte), ∃ d, exec (.hexdec b) s = .next { s with result := .digit d } ∧
    ∀ v : Nibble, d = some v ↔
      (0x30 ≤ b.toNat ∧ b.toNat ≤ 0x39 ∧ v.toNat = b.toNat - 0x30) ∨
      (0x41 ≤ b.toNat ∧ b.toNat ≤ 0x46 ∧ v.toNat = b.toNat - 0x41 + 10) ∨
      (0x61 ≤ b.toNat ∧ b.toNat ≤ 0x66 ∧ v.toNat = b.toNat - 0x61 + 10))

/-- R113: the four special bytes become an escape sequence, every other byte stays as it is. -/
def Obligations.EscapeEncodesTheFourSpecialBytes : Prop :=
  ∀ (s : State) (b : Byte),
    (b = 0x23 ∨ b = 0x24 ∨ b = 0x2A ∨ b = 0x7D →
      exec (.escEnc b) s = .next { s with result := .bytes [0x7D, b ^^^ 0x20] }) ∧
    (b ≠ 0x23 ∧ b ≠ 0x24 ∧ b ≠ 0x2A ∧ b ≠ 0x7D → exec (.escEnc b) s = .next { s with result := .bytes [b] })

/-- R114: one run unit covers the run, at most 98 bytes, and 6 of a run of 7 or 8; so its count byte is in 0x20..0x7E and
neither `#` nor `$`. -/
def Obligations.RunPlanCoversAtMostTheRun : Prop :=
  ∀ (s : State) (run : Nat), 4 ≤ run →
    ∃ k, exec (.rlePlan run) s = .next { s with result := .count k } ∧
      k = (if run = 7 ∨ run = 8 then 6 else min run 98) ∧ 4 ≤ k ∧ k ≤ run ∧
      IsRunCount (countByte k) ∧ countByte k ≠ 0x23 ∧ countByte k ≠ 0x24

/-- R115: the three turns of the encoder's loop: a special byte is escaped, a run of 4 or more equal bytes becomes one run unit
when compression is on, and every other byte is a literal. -/
def Obligations.EncodeBodyFollowsTheLoop : Prop :=
  ∀ (s : State) (rle : Bool),
    exec (.encodeBody [] rle) s = .next { s with result := .bytes [] } ∧
    (∀ b p, b = 0x23 ∨ b = 0x24 ∨ b = 0x2A ∨ b = 0x7D →
      exec (.encodeBody (b :: p) rle) s =
        .next { s with result := .bytes (0x7D :: (b ^^^ 0x20) :: encodeBody p rle) }) ∧
    (∀ b n p, b ≠ 0x23 ∧ b ≠ 0x24 ∧ b ≠ 0x2A ∧ b ≠ 0x7D → p.head? ≠ some b →
      (rle = true ∧ 4 ≤ n →
        exec (.encodeBody (List.replicate n b ++ p) rle) s =
          .next { s with result := .bytes (b :: 0x2A :: countByte (rlePlan n)
            :: encodeBody (List.replicate (n - rlePlan n) b ++ p) rle) }) ∧
      (1 ≤ n ∧ (rle = false ∨ n < 4) →
        exec (.encodeBody (List.replicate n b ++ p) rle) s =
          .next { s with result := .bytes (b :: encodeBody (List.replicate (n - 1) b ++ p) rle) }))

/-- R116: a frame is `$`, the body, `#` and the two digits of the body's checksum. -/
def Obligations.EncodeFrameLaysOutTheFrame : Prop :=
  ∀ (s : State) (p : List Byte) (rle : Bool), ∃ body,
    exec (.encodeBody p rle) s = .next { s with result := .bytes body } ∧
    exec (.encodeFrame p rle) s =
      .next { s with result := .bytes ([0x24] ++ body ++ [0x23] ++ hexenc (cksum body)) }

/-- R117: the length of an encoded frame. -/
def Obligations.EncodedLengthIsBounded : Prop :=
  ∀ p : List Byte,
    (encodeFrame p false).length = 4 + p.length + (p.filter isSpecial).length ∧
    (encodeFrame p true).length ≤ (encodeFrame p false).length ∧
    ∀ (cfg : Config) (rle : Bool), 2 * p.length + 4 ≤ cfg.maxFrame → (encodeFrame p rle).length ≤ cfg.maxFrame

/-- R96: the body the encoder emits holds no `#` and no `$` at all, not even as an operand or a count. -/
def Obligations.EncodedBodyHoldsNoDelimiter : Prop :=
  ∀ (p : List Byte) (rle : Bool), (0x23 : Byte) ∉ encodeBody p rle ∧ (0x24 : Byte) ∉ encodeBody p rle

/-- R118: `decode_frame` is the outcome of the first event the deframer emits on the bytes from reset, with the count of bytes
it took; `Incomplete` exactly when no byte emits one. It writes no state. -/
def Obligations.DecodeFrameReportsTheFirstEvent : Prop :=
  ∀ (s : State) (buffer : List Byte), ∃ r,
    exec (.decodeFrame buffer) s = .next { s with result := .decoded r } ∧
    (r = .incomplete ↔ (deframeAll s.cfg buffer Deframer.reset).evQ = []) ∧
    ∀ (before : List Byte) (b : Byte) (after : List Byte) (e : Event), buffer = before ++ b :: after →
      (deframeAll s.cfg before Deframer.reset).evQ = [] →
      (deframeAll s.cfg (before ++ [b]) Deframer.reset).evQ = [e] →
      r = match e with
        | .packet p => .complete p (before.length + 1)
        | .reject c => .reject c (before.length + 1)
        | .ack => .signal .ack (before.length + 1)
        | .nack => .signal .nack (before.length + 1)
        | .interrupt => .signal .interrupt (before.length + 1)

/-- R120: the round trip. For every valid payload and both settings, the deframer from reset over the encoded frame emits
exactly one event, the packet, at the last byte, and is back in its reset state; so `decode_frame` gives the payload. -/
def Obligations.EncodeThenDecodeIsTheIdentity : Prop :=
  ∀ (s : State) (p : List Byte) (rle : Bool), ValidPayload s.cfg rle p →
    exec (.decodeFrame (encodeFrame p rle)) s =
      .next { s with result := .decoded (.complete p (encodeFrame p rle).length) } ∧
    (s.rx = Deframer.reset →
      execAll ((encodeFrame p rle).map Instr.deframeStep) s =
        .next { s with rx := { Deframer.reset with evQ := [.packet p] }, result := .none })

/-- R121: one flipped bit in the checksum field of a good frame. Flipping the case bit of a letter still matches; `C` with bit
6 flipped is 0x03, an `Interrupt`, and leaves the field one digit short; every other flip ends the frame in a `Reject`,
`BAD_CK_DIGIT` when the byte is no digit and `CK_MISMATCH` when it is. -/
def Obligations.ChecksumFieldIsSensitive : Prop :=
  ∀ (s : State) (d1 d2 : Byte) (v1 v2 : Nibble) (k : Fin 8),
    s.rx.rxState = .ck1 → s.rx.rxBad = .ok → s.rx.rxWireLen + 2 ≤ s.cfg.maxFrame →
    hexval d1 = some v1 → hexval d2 = some v2 → 16 * v1.toNat + v2.toNat = s.rx.rxSum.toNat →
      (∃ t, execAll [.deframeStep d1, .deframeStep d2] s = .next t ∧
        t.rx = { Deframer.reset with evQ := s.rx.evQ ++ [.packet s.rx.rxPayload] }) ∧
      (∃ t, execAll [.deframeStep (flipBit d1 k), .deframeStep d2] s = .next t ∧ FlipOutcome d1 k s t) ∧
      (∃ t, execAll [.deframeStep d1, .deframeStep (flipBit d2 k)] s = .next t ∧ FlipOutcome d2 k s t)

/-! ### Invariants -/

/-- The registers' and the session's invariants, and R43 (1) to (12) as a whole, hold after reset (R43, R45). -/
def Obligations.ResetMeetsTheInvariants : Prop :=
  RegisterInv State.reset.cfg State.reset.rx ∧ SessionInv State.reset.cfg State.reset.sess ∧ BlockInv State.reset

/-- R43 (3) to (8), the bound of (10), the layout of (12), R26, R33: whatever operation a step runs, of the 53, it keeps the
ranges and relations of the frame registers and of the session registers. -/
def Obligations.EveryStepKeepsRegisterAndSessionInvariants : Prop :=
  ∀ s t : State, RegisterInv s.cfg s.rx → SessionInv s.cfg s.sess → step s = .next t →
    RegisterInv t.cfg t.rx ∧ SessionInv t.cfg t.sess

/-- R43 (1) to (12): every operation of the assembled block keeps all the invariants that hold between operations. -/
def Obligations.BlockOperationsKeepTheBlockInvariant : Prop :=
  ∀ (s t : State) (e : PortEvent) (rest : List PortEvent) (i : Instr),
    s.inbox = e :: rest → decode (fetchWord s.rx.rxState e) = .ok i → isBlockOp i = true → BlockInv s →
    step s = .next t → BlockInv t

/-! ### Rules about the whole block -/

/-- R200: `NO_ACK` is left by `H_LINK_DOWN` and `RESET` only; meanwhile nothing is stored, nothing counted, and neither `+` nor
`-` is sent: an operation appends nothing or one encoded frame, or takes a byte. -/
def Obligations.NoAckModeIsPermanent : Prop :=
  ∀ (i : Instr) (s t : State), isBlockOp i = true → BlockInv s → s.sess.sessState = .noAck →
    i ≠ .hLinkDown → i ≠ .reset → exec i s = .next t →
      t.sess.sessState = .noAck ∧ t.sess.retryCount = 0 ∧ t.sess.txStored = none ∧
      (t.txFifo = s.txFifo ∨ (i = .txPop ∧ t.txFifo = s.txFifo.tail) ∨
        ∃ p, i = .hSend p ∧ t.txFifo = s.txFifo ++ encodeFrame p s.sess.txRleEn)

/-- R237: what a received byte cannot do: write the control bit, move the session into `NO_ACK` unless the host has armed it,
report the link down, or close the session before `MAX_RETRIES` retransmissions. -/
def Obligations.PeerBytesHaveLimitedEffect : Prop :=
  ∀ (s t : State) (b : Byte), BlockInv s → exec (.rxByte b) s = .next t →
    t.sess.txRleEn = s.sess.txRleEn ∧
    (t.sess.sessState = .noAck → s.sess.sessState = .noAck ∨ s.sess.noackArmed = true) ∧
    (t.sess.fatalCause = some .linkDown → s.sess.fatalCause = some .linkDown) ∧
    (t.sess.sessState = .closed → s.sess.sessState = .closed ∨
      (s.sess.sessState = .ackPending ∧ s.sess.retryCount = s.cfg.maxRetries))

/-- R72: the stored frame is a snapshot: it is replaced only by an `H_SEND` that stores, cleared only by an acknowledgment (a
`+` outside a frame), a close or a reset, and no other operation alters it. -/
def Obligations.StoredFrameIsASnapshot : Prop :=
  ∀ (i : Instr) (s t : State), isBlockOp i = true → BlockInv s → exec i s = .next t →
    t.sess.txStored = s.sess.txStored ∨
    (∃ p, i = .hSend p ∧ s.sess.sessState = .idle ∧ t.sess.txStored = some (encodeFrame p s.sess.txRleEn)) ∨
    (t.sess.txStored = none ∧
      ((i = .rxByte 0x2B ∧ s.rx.rxState = .hunt) ∨ t.sess.sessState = .closed ∨ i = .reset))

/-- R62, R199: every change of `tx_fifo` is one whole unit at its tail (`+`, `-`, the stored frame, or the encoded frame of a
send), one byte taken from its head, or its emptying by a close or a reset. -/
def Obligations.TransmitUnitsAreWhole : Prop :=
  ∀ (i : Instr) (s t : State), isBlockOp i = true → BlockInv s → exec i s = .next t →
    t.txFifo = s.txFifo ∨
    (i = .txPop ∧ t.txFifo = s.txFifo.tail) ∨
    (t.txFifo = [] ∧ (t.sess.sessState = .closed ∨ i = .reset)) ∨
    (∃ b, i = .rxByte b ∧ (t.txFifo = s.txFifo ++ [0x2B] ∨ t.txFifo = s.txFifo ++ [0x2D])) ∨
    (∃ f, s.sess.txStored = some f ∧ t.txFifo = s.txFifo ++ f ∧ ((∃ b, i = .rxByte b) ∨ i = .hTimeout)) ∨
    (∃ p, i = .hSend p ∧ t.txFifo = s.txFifo ++ encodeFrame p s.sess.txRleEn)

/-- R186, R227: a `Nack` and a timeout count alike; up to `MAX_RETRIES` of them in a row each retransmit the stored frame, and
one more closes the session with `RETRY_EXHAUSTED`. -/
def Obligations.RetryLimitClosesTheSession : Prop :=
  ∀ (s : State) (f : List Byte) (results : List Instr),
    (∀ i ∈ results, i = .evNack ∨ i = .hTimeout) →
    s.sess.sessState = .ackPending → s.sess.txStored = some f → s.sess.retryCount = 0 →
    (results.length ≤ s.cfg.maxRetries → ∃ t, execAll results s = .next t ∧
      t.sess = { s.sess with retryCount := results.length } ∧
      t.txFifo = s.txFifo ++ (List.replicate results.length f).flatten) ∧
    (results.length = s.cfg.maxRetries + 1 → ∃ t, execAll results s = .next t ∧
      t.sess.sessState = .closed ∧ t.sess.fatalCause = some .retryExhausted ∧ t.sess.retryCount = s.cfg.maxRetries ∧
      t.txFifo = [])
end

