-- ==== Sys2Proof/Laws/State.lean ====
section
/-! SUPPORT. One lemma per field per update of the state's shared operations, each true by unfolding once, so that no later
proof unfolds a record update. -/

namespace Sys2Proof.Machine

/-! ### `answer` -/

@[simp] theorem answer_cfg (r : Result) (s : State) : (answer r s).cfg = s.cfg := rfl
@[simp] theorem answer_rx (r : Result) (s : State) : (answer r s).rx = s.rx := rfl
@[simp] theorem answer_sess (r : Result) (s : State) : (answer r s).sess = s.sess := rfl
@[simp] theorem answer_txFifo (r : Result) (s : State) : (answer r s).txFifo = s.txFifo := rfl
@[simp] theorem answer_hostQ (r : Result) (s : State) : (answer r s).hostQ = s.hostQ := rfl
@[simp] theorem answer_result (r : Result) (s : State) : (answer r s).result = r := rfl
@[simp] theorem answer_inbox (r : Result) (s : State) : (answer r s).inbox = s.inbox := rfl
@[simp] theorem answer_freeUse (r : Result) (s : State) : (answer r s).freeUse = s.freeUse := rfl

/-! ### `onRx` -/

@[simp] theorem onRx_cfg (f : Config → Deframer → Deframer) (s : State) : (onRx f s).cfg = s.cfg := rfl
@[simp] theorem onRx_rx (f : Config → Deframer → Deframer) (s : State) : (onRx f s).rx = f s.cfg s.rx := rfl
@[simp] theorem onRx_sess (f : Config → Deframer → Deframer) (s : State) : (onRx f s).sess = s.sess := rfl
@[simp] theorem onRx_txFifo (f : Config → Deframer → Deframer) (s : State) : (onRx f s).txFifo = s.txFifo := rfl
@[simp] theorem onRx_hostQ (f : Config → Deframer → Deframer) (s : State) : (onRx f s).hostQ = s.hostQ := rfl
@[simp] theorem onRx_result (f : Config → Deframer → Deframer) (s : State) : (onRx f s).result = .none := rfl
@[simp] theorem onRx_inbox (f : Config → Deframer → Deframer) (s : State) : (onRx f s).inbox = s.inbox := rfl

/-! ### `transmit` and `deliver` -/

@[simp] theorem transmit_cfg (u : List Byte) (s : State) : (transmit u s).cfg = s.cfg := rfl
@[simp] theorem transmit_rx (u : List Byte) (s : State) : (transmit u s).rx = s.rx := rfl
@[simp] theorem transmit_sess (u : List Byte) (s : State) : (transmit u s).sess = s.sess := rfl
@[simp] theorem transmit_txFifo (u : List Byte) (s : State) : (transmit u s).txFifo = s.txFifo ++ u := rfl
@[simp] theorem transmit_hostQ (u : List Byte) (s : State) : (transmit u s).hostQ = s.hostQ := rfl
@[simp] theorem deliver_cfg (i : HostItem) (s : State) : (deliver i s).cfg = s.cfg := rfl
@[simp] theorem deliver_rx (i : HostItem) (s : State) : (deliver i s).rx = s.rx := rfl
@[simp] theorem deliver_sess (i : HostItem) (s : State) : (deliver i s).sess = s.sess := rfl
@[simp] theorem deliver_txFifo (i : HostItem) (s : State) : (deliver i s).txFifo = s.txFifo := rfl
@[simp] theorem deliver_hostQ (i : HostItem) (s : State) : (deliver i s).hostQ = s.hostQ ++ [i] := rfl

/-! ### `signalIfAckMode` -/

@[simp] theorem signalIfAckMode_cfg (b : Byte) (s : State) : (signalIfAckMode b s).cfg = s.cfg := by
  unfold signalIfAckMode; split <;> rfl
@[simp] theorem signalIfAckMode_rx (b : Byte) (s : State) : (signalIfAckMode b s).rx = s.rx := by
  unfold signalIfAckMode; split <;> rfl
@[simp] theorem signalIfAckMode_sess (b : Byte) (s : State) : (signalIfAckMode b s).sess = s.sess := by
  unfold signalIfAckMode; split <;> rfl
@[simp] theorem signalIfAckMode_hostQ (b : Byte) (s : State) : (signalIfAckMode b s).hostQ = s.hostQ := by
  unfold signalIfAckMode; split <;> rfl
theorem signalIfAckMode_txFifo (b : Byte) (s : State) :
    (signalIfAckMode b s).txFifo = if ackMode s.sess.sessState then s.txFifo ++ [b] else s.txFifo := by
  unfold signalIfAckMode; split <;> rfl

/-! ### `enterClosed` -/

@[simp] theorem enterClosed_cfg (c : CloseCause) (s : State) : (enterClosed c s).cfg = s.cfg := rfl
@[simp] theorem enterClosed_rx (c : CloseCause) (s : State) : (enterClosed c s).rx = Deframer.reset := rfl
@[simp] theorem enterClosed_sess (c : CloseCause) (s : State) : (enterClosed c s).sess =
    { s.sess with sessState := .closed, fatalCause := some c, txStored := none, noackArmed := false } := rfl
@[simp] theorem enterClosed_txFifo (c : CloseCause) (s : State) : (enterClosed c s).txFifo = [] := rfl
@[simp] theorem enterClosed_hostQ (c : CloseCause) (s : State) : (enterClosed c s).hostQ = s.hostQ := rfl

/-! ### `retransmit` -/

@[simp] theorem retransmit_cfg (s : State) : (retransmit s).cfg = s.cfg := by unfold retransmit; split <;> rfl
@[simp] theorem retransmit_rx (s : State) : (retransmit s).rx = s.rx := by unfold retransmit; split <;> rfl
@[simp] theorem retransmit_sess (s : State) : (retransmit s).sess = s.sess := by unfold retransmit; split <;> rfl
@[simp] theorem retransmit_hostQ (s : State) : (retransmit s).hostQ = s.hostQ := by unfold retransmit; split <;> rfl
theorem retransmit_stored (s : State) (f : List Byte) (h : s.sess.txStored = some f) :
    retransmit s = transmit f s := by simp [retransmit, h]

/-! ### `resetBlock` -/

@[simp] theorem resetBlock_cfg (s : State) : (resetBlock s).cfg = s.cfg := rfl
@[simp] theorem resetBlock_rx (s : State) : (resetBlock s).rx = Deframer.reset := rfl
@[simp] theorem resetBlock_sess (s : State) : (resetBlock s).sess = Session.reset := rfl
@[simp] theorem resetBlock_txFifo (s : State) : (resetBlock s).txFifo = [] := rfl
@[simp] theorem resetBlock_hostQ (s : State) : (resetBlock s).hostQ = [] := rfl

end Sys2Proof.Machine
end

