-- ==== Sys2Proof/Laws/Deframer.lean ====
section
/-! SUPPORT. What the deframer's helpers do, field by field, and which invariants they keep; cited instead of unfolding them. -/

namespace Sys2Proof.Machine

variable {cfg : Config} {d : Deframer}

/-! ### Fields the helpers leave alone -/

@[simp] theorem markBad_rxState (c : Cause) (d : Deframer) : (markBad c d).rxState = d.rxState := by
  unfold markBad; split <;> rfl
@[simp] theorem markBad_rxSum (c : Cause) (d : Deframer) : (markBad c d).rxSum = d.rxSum := by
  unfold markBad; split <;> rfl
@[simp] theorem markBad_rxLast (c : Cause) (d : Deframer) : (markBad c d).rxLast = d.rxLast := by
  unfold markBad; split <;> rfl
@[simp] theorem markBad_rxWireLen (c : Cause) (d : Deframer) : (markBad c d).rxWireLen = d.rxWireLen := by
  unfold markBad; split <;> rfl
@[simp] theorem markBad_rxCkHi (c : Cause) (d : Deframer) : (markBad c d).rxCkHi = d.rxCkHi := by
  unfold markBad; split <;> rfl
@[simp] theorem markBad_evQ (c : Cause) (d : Deframer) : (markBad c d).evQ = d.evQ := by
  unfold markBad; split <;> rfl

/-- `mark_bad` on a good frame. -/
theorem markBad_of_ok (c : Cause) (h : d.rxBad = .ok) : markBad c d = { d with rxBad := .bad c, rxPayload := [] } := by
  simp [markBad, h]

/-- `mark_bad` on a frame that is already bad does nothing: the first cause sticks. -/
theorem markBad_of_bad {k : Cause} (c : Cause) (h : d.rxBad = .bad k) : markBad c d = d := by simp [markBad, h]

/-- After `mark_bad` the frame is bad. -/
theorem markBad_rxBad_ne_ok (c : Cause) (d : Deframer) : (markBad c d).rxBad ≠ .ok := by
  cases h : d.rxBad with
  | ok => simp [markBad_of_ok c h]
  | bad k => simp [markBad_of_bad c h, h]

@[simp] theorem addSum_rxState (b : Byte) (d : Deframer) : (addSum b d).rxState = d.rxState := rfl
@[simp] theorem addSum_rxSum (b : Byte) (d : Deframer) : (addSum b d).rxSum = d.rxSum + b := rfl
@[simp] theorem addSum_rxPayload (b : Byte) (d : Deframer) : (addSum b d).rxPayload = d.rxPayload := rfl
@[simp] theorem addSum_rxLast (b : Byte) (d : Deframer) : (addSum b d).rxLast = d.rxLast := rfl
@[simp] theorem addSum_rxBad (b : Byte) (d : Deframer) : (addSum b d).rxBad = d.rxBad := rfl
@[simp] theorem addSum_rxWireLen (b : Byte) (d : Deframer) : (addSum b d).rxWireLen = d.rxWireLen := rfl
@[simp] theorem addSum_rxCkHi (b : Byte) (d : Deframer) : (addSum b d).rxCkHi = d.rxCkHi := rfl
@[simp] theorem addSum_evQ (b : Byte) (d : Deframer) : (addSum b d).evQ = d.evQ := rfl

@[simp] theorem countWire_rxState (cfg : Config) (d : Deframer) : (countWire cfg d).rxState = d.rxState := by
  simp only [countWire]; split <;> simp
@[simp] theorem countWire_rxSum (cfg : Config) (d : Deframer) : (countWire cfg d).rxSum = d.rxSum := by
  simp only [countWire]; split <;> simp
@[simp] theorem countWire_rxLast (cfg : Config) (d : Deframer) : (countWire cfg d).rxLast = d.rxLast := by
  simp only [countWire]; split <;> simp
@[simp] theorem countWire_rxCkHi (cfg : Config) (d : Deframer) : (countWire cfg d).rxCkHi = d.rxCkHi := by
  simp only [countWire]; split <;> simp
@[simp] theorem countWire_evQ (cfg : Config) (d : Deframer) : (countWire cfg d).evQ = d.evQ := by
  simp only [countWire]; split <;> simp
@[simp] theorem countWire_rxWireLen (cfg : Config) (d : Deframer) :
    (countWire cfg d).rxWireLen = min (d.rxWireLen + 1) (cfg.maxFrame + 1) := by
  simp only [countWire]; split <;> simp

/-- `count_wire` within the cap only counts. -/
theorem countWire_of_lt (h : d.rxWireLen < cfg.maxFrame) :
    countWire cfg d = { d with rxWireLen := d.rxWireLen + 1 } := by
  have h1 : min (d.rxWireLen + 1) (cfg.maxFrame + 1) = d.rxWireLen + 1 := by omega
  have h2 : ¬ cfg.maxFrame < d.rxWireLen + 1 := by omega
  simp [countWire, h1, h2]

/-- `count_wire` at and past the cap counts, saturating, and marks `OVERSIZE`. -/
theorem countWire_of_ge (h : cfg.maxFrame ≤ d.rxWireLen) :
    countWire cfg d = markBad .oversize { d with rxWireLen := cfg.maxFrame + 1 } := by
  have h1 : min (d.rxWireLen + 1) (cfg.maxFrame + 1) = cfg.maxFrame + 1 := by omega
  simp [countWire, h1]

/-- `rx_bad` after `count_wire`. -/
theorem countWire_rxBad (cfg : Config) (d : Deframer) :
    (countWire cfg d).rxBad = firstCause d.rxBad [(decide (cfg.maxFrame ≤ d.rxWireLen), .oversize)] := by
  by_cases h : cfg.maxFrame ≤ d.rxWireLen
  · rw [countWire_of_ge h]; cases d.rxBad <;> simp [markBad, firstCause, h]
  · rw [countWire_of_lt (by omega)]; cases d.rxBad <;> simp [firstCause, h]

/-- `rx_payload` after `count_wire`. -/
theorem countWire_rxPayload (cfg : Config) (d : Deframer) :
    (countWire cfg d).rxPayload =
      heldPayload d.rxBad (firstCause d.rxBad [(decide (cfg.maxFrame ≤ d.rxWireLen), .oversize)]) d.rxPayload
        d.rxPayload := by
  by_cases h : cfg.maxFrame ≤ d.rxWireLen
  · rw [countWire_of_ge h]; cases d.rxBad <;> simp [markBad, firstCause, heldPayload, h]
  · rw [countWire_of_lt (by omega)]; cases d.rxBad <;> simp [firstCause, heldPayload, h]

@[simp] theorem store_rxState (cfg : Config) (v : Byte) (d : Deframer) : (store cfg v d).rxState = d.rxState := by
  simp only [store]; split <;> (try split) <;> simp
@[simp] theorem store_rxSum (cfg : Config) (v : Byte) (d : Deframer) : (store cfg v d).rxSum = d.rxSum := by
  simp only [store]; split <;> (try split) <;> simp
@[simp] theorem store_rxLast (cfg : Config) (v : Byte) (d : Deframer) : (store cfg v d).rxLast = some v := rfl
@[simp] theorem store_rxWireLen (cfg : Config) (v : Byte) (d : Deframer) : (store cfg v d).rxWireLen = d.rxWireLen := by
  simp only [store]; split <;> (try split) <;> simp
@[simp] theorem store_rxCkHi (cfg : Config) (v : Byte) (d : Deframer) : (store cfg v d).rxCkHi = d.rxCkHi := by
  simp only [store]; split <;> (try split) <;> simp
@[simp] theorem store_evQ (cfg : Config) (v : Byte) (d : Deframer) : (store cfg v d).evQ = d.evQ := by
  simp only [store]; split <;> (try split) <;> simp

/-- `store` into a good frame with room. -/
theorem store_of_room (v : Byte) (h : d.rxBad = .ok) (hr : d.rxPayload.length < cfg.maxPayload) :
    store cfg v d = { d with rxPayload := d.rxPayload ++ [v], rxLast := some v } := by
  have hn : ¬ cfg.maxPayload ≤ d.rxPayload.length := by omega
  simp [store, h, hn]

/-- `store` into a good frame whose buffer is full. -/
theorem store_of_full (v : Byte) (h : d.rxBad = .ok) (hr : cfg.maxPayload ≤ d.rxPayload.length) :
    store cfg v d = { d with rxBad := .bad .oversize, rxPayload := [], rxLast := some v } := by
  simp [store, h, hr, markBad]

/-- `store` into a bad frame only tracks the last byte. -/
theorem store_of_bad {c : Cause} (v : Byte) (h : d.rxBad = .bad c) : store cfg v d = { d with rxLast := some v } := by
  simp [store, h]

/-- "repeat n times: store(v)" on a bad frame. -/
theorem storeN_of_bad {c : Cause} (v : Byte) (n : Nat) (h : d.rxBad = .bad c) (hl : d.rxLast = some v) :
    storeN cfg v n d = d := by
  induction n generalizing d with
  | zero => rfl
  | succ n ih =>
    have h1 : store cfg v d = d := by rw [store_of_bad v h, ← hl]
    rw [storeN, h1, ih h hl]

/-- "repeat n times: store(v)" on a good frame with room for all the copies. -/
theorem storeN_of_room (v : Byte) (n : Nat) (h : d.rxBad = .ok) (hl : d.rxLast = some v)
    (hr : d.rxPayload.length + n ≤ cfg.maxPayload) :
    storeN cfg v n d = { d with rxPayload := d.rxPayload ++ List.replicate n v } := by
  induction n generalizing d with
  | zero => simp [storeN]
  | succ n ih =>
    rw [storeN, store_of_room v h (by omega), ih (by simpa using h) rfl (by simp; omega)]
    simp [List.replicate_succ, ← hl]

/-- "repeat n times: store(v)" on a good frame without room for all the copies. -/
theorem storeN_of_full (v : Byte) (n : Nat) (h : d.rxBad = .ok) (hl : d.rxLast = some v)
    (hb : d.rxPayload.length ≤ cfg.maxPayload) (hr : cfg.maxPayload < d.rxPayload.length + n) :
    storeN cfg v n d = { d with rxBad := .bad .oversize, rxPayload := [] } := by
  induction n generalizing d with
  | zero => omega
  | succ n ih =>
    rw [storeN]
    by_cases hf : cfg.maxPayload ≤ d.rxPayload.length
    · rw [store_of_full v h hf, storeN_of_bad (c := .oversize) v n rfl rfl, ← hl]
    · rw [store_of_room v h (by omega), ih (by simpa using h) rfl (by simp; omega) (by simp; omega)]
      simp [← hl]

@[simp] theorem storeN_evQ (cfg : Config) (v : Byte) (n : Nat) (d : Deframer) : (storeN cfg v n d).evQ = d.evQ := by
  induction n generalizing d with
  | zero => rfl
  | succ n ih => rw [storeN, ih, store_evQ]
@[simp] theorem storeN_rxState (cfg : Config) (v : Byte) (n : Nat) (d : Deframer) :
    (storeN cfg v n d).rxState = d.rxState := by
  induction n generalizing d with
  | zero => rfl
  | succ n ih => rw [storeN, ih, store_rxState]
@[simp] theorem storeN_rxWireLen (cfg : Config) (v : Byte) (n : Nat) (d : Deframer) :
    (storeN cfg v n d).rxWireLen = d.rxWireLen := by
  induction n generalizing d with
  | zero => rfl
  | succ n ih => rw [storeN, ih, store_rxWireLen]
@[simp] theorem storeN_rxSum (cfg : Config) (v : Byte) (n : Nat) (d : Deframer) :
    (storeN cfg v n d).rxSum = d.rxSum := by
  induction n generalizing d with
  | zero => rfl
  | succ n ih => rw [storeN, ih, store_rxSum]

@[simp] theorem checkField_rxWireLen (b : Byte) (d : Deframer) : (checkField b d).rxWireLen = d.rxWireLen := by
  unfold checkField; split <;> (try split) <;> simp
@[simp] theorem checkField_evQ (b : Byte) (d : Deframer) : (checkField b d).evQ = d.evQ := by
  unfold checkField; split <;> (try split) <;> simp

/-- A frame that is bad already goes through the test of the checksum field unchanged. -/
theorem checkField_of_bad {c : Cause} (b : Byte) (h : d.rxBad = .bad c) : checkField b d = d := by
  unfold checkField; split
  · exact markBad_of_bad _ h
  · simp [h]

/-! ### The invariant of the frame registers -/

/-- The invariant speaks of four registers only. -/
theorem RegisterInv.of_eq {d' : Deframer} (h : RegisterInv cfg d) (hb : d'.rxBad = d.rxBad)
    (hp : d'.rxPayload = d.rxPayload) (hw : d'.rxWireLen = d.rxWireLen) : RegisterInv cfg d' :=
  ⟨by rw [hb, hp]; exact h.bad_released, by rw [hb, hw]; exact h.oversize_marked, by rw [hp]; exact h.payload_bound,
    by rw [hw]; exact h.wire_bound⟩

theorem RegisterInv.reset (cfg : Config) : RegisterInv cfg Deframer.reset :=
  ⟨by simp [Deframer.reset], by simp [Deframer.reset], by simp [Deframer.reset], by simp [Deframer.reset]⟩

theorem RegisterInv.clearFrame (cfg : Config) (d : Deframer) : RegisterInv cfg (clearFrame d) :=
  ⟨by simp [Machine.clearFrame], by simp [Machine.clearFrame], by simp [Machine.clearFrame], by simp [Machine.clearFrame]⟩

theorem RegisterInv.markBad (c : Cause) (h : RegisterInv cfg d) : RegisterInv cfg (markBad c d) := by
  cases hb : d.rxBad with
  | ok => rw [markBad_of_ok c hb]; exact ⟨by simp, by simp, by simp, h.wire_bound⟩
  | bad k => rwa [markBad_of_bad c hb]

theorem RegisterInv.addSum (b : Byte) (h : RegisterInv cfg d) : RegisterInv cfg (addSum b d) := h.of_eq rfl rfl rfl

theorem RegisterInv.emit (e : Event) (h : RegisterInv cfg d) : RegisterInv cfg (emit e d) := h.of_eq rfl rfl rfl

theorem RegisterInv.countWire (h : RegisterInv cfg d) : RegisterInv cfg (countWire cfg d) := by
  by_cases hc : cfg.maxFrame ≤ d.rxWireLen
  · rw [countWire_of_ge hc]
    cases hb : d.rxBad with
    | ok => rw [markBad_of_ok _ rfl]; exact ⟨by simp, by simp, by simp, by simp⟩
    | bad k =>
      rw [markBad_of_bad (k := k) _ rfl]
      exact ⟨fun _ => h.bad_released (by simp [hb]), fun _ => by simp, h.payload_bound, by simp⟩
  · rw [countWire_of_lt (by omega)]
    exact ⟨h.bad_released, by intro hw; simp only at hw; omega, h.payload_bound, by simp only; omega⟩

theorem RegisterInv.store (v : Byte) (h : RegisterInv cfg d) : RegisterInv cfg (store cfg v d) := by
  cases hb : d.rxBad with
  | bad c => rw [store_of_bad v hb]; exact h.of_eq rfl rfl rfl
  | ok =>
    by_cases hr : cfg.maxPayload ≤ d.rxPayload.length
    · rw [store_of_full v hb hr]; exact ⟨by simp, by simp, by simp, h.wire_bound⟩
    · rw [store_of_room v hb (by omega)]
      exact ⟨by simp [hb], h.oversize_marked, by simp; omega, h.wire_bound⟩

theorem RegisterInv.storeN (v : Byte) (n : Nat) (h : RegisterInv cfg d) : RegisterInv cfg (storeN cfg v n d) := by
  induction n generalizing d with
  | zero => exact h
  | succ n ih => exact ih (h.store v)

theorem RegisterInv.checkField (b : Byte) (h : RegisterInv cfg d) : RegisterInv cfg (checkField b d) := by
  unfold Machine.checkField
  split
  · exact h.markBad _
  · split
    · exact h.markBad _
    · exact h

/-- Every rule of the deframer keeps the invariant of the frame registers. -/
theorem RegisterInv.rules (b : Byte) (h : RegisterInv cfg d) :
    RegisterInv cfg (rxHuntStart cfg d) ∧ RegisterInv cfg (rxBodyData cfg b d) ∧ RegisterInv cfg (rxBodyEscMark cfg d) ∧
    RegisterInv cfg (rxEscLit cfg b d) ∧ RegisterInv cfg (rxBodyRleMark cfg d) ∧ RegisterInv cfg (rxRleCount cfg b d) ∧
    RegisterInv cfg (rxRleBadcount cfg b d) ∧ RegisterInv cfg (rxBodyRawDollar cfg d) ∧
    RegisterInv cfg (rxBodyEnd cfg d) ∧ RegisterInv cfg (rxCk1 cfg b d) ∧ RegisterInv cfg (rxCk2 cfg b d) := by
  refine ⟨?_, ?_, ?_, ?_, ?_, ?_, ?_, ?_, ?_, ?_, ?_⟩
  · exact (RegisterInv.clearFrame cfg d).countWire.of_eq rfl rfl rfl
  · exact (h.countWire.addSum b).store b
  · exact (h.countWire.addSum 0x7D).of_eq rfl rfl rfl
  · exact ((h.countWire.addSum b).store _).of_eq rfl rfl rfl
  · refine RegisterInv.of_eq (d := match (Machine.addSum 0x2A (Machine.countWire cfg d)).rxLast with
      | none => Machine.markBad .badRle (Machine.addSum 0x2A (Machine.countWire cfg d))
      | some _ => Machine.addSum 0x2A (Machine.countWire cfg d)) ?_ rfl rfl rfl
    split
    · exact (h.countWire.addSum _).markBad _
    · exact h.countWire.addSum _
  · refine RegisterInv.of_eq (d := match (Machine.addSum b (Machine.countWire cfg d)).rxLast with
      | some v => Machine.storeN cfg v (runCopies b) (Machine.addSum b (Machine.countWire cfg d))
      | none => Machine.addSum b (Machine.countWire cfg d)) ?_ rfl rfl rfl
    split
    · exact (h.countWire.addSum _).storeN _ _
    · exact h.countWire.addSum _
  · exact ((h.countWire.addSum b).markBad _).of_eq rfl rfl rfl
  · exact (h.countWire.addSum _).markBad _
  · exact h.countWire.of_eq rfl rfl rfl
  · refine RegisterInv.of_eq (d := match hexval b with
      | some h1 => { Machine.countWire cfg d with rxCkHi := h1 }
      | none => Machine.markBad .badCkDigit (Machine.countWire cfg d)) ?_ rfl rfl rfl
    split
    · exact h.countWire.of_eq rfl rfl rfl
    · exact h.countWire.markBad _
  · exact (RegisterInv.clearFrame cfg (Machine.checkField b (Machine.countWire cfg d))).of_eq rfl rfl rfl

/-- The deframer's step keeps the invariant of the frame registers. -/
theorem RegisterInv.deframeStep (b : Byte) (h : RegisterInv cfg d) : RegisterInv cfg (deframeStep cfg b d) := by
  obtain ⟨h1, h2, h3, h4, h5, h6, h7, h8, h9, h10, h11⟩ := h.rules b
  unfold Machine.deframeStep
  split <;> repeat' split
  all_goals first | assumption | exact h.emit _

end Sys2Proof.Machine
end

