-- ==== Sys2Proof/Laws/Codec.lean ====
section
/-! SUPPORT. The encoder turn by turn, the shape of a frame, and the deframer over concatenated bytes. -/

namespace Sys2Proof.Machine

/-- The fuel of the encoder's loop does not matter once it covers the payload. -/
theorem encodeLoop_fuel (rle : Bool) {n m : Nat} {p : List Byte} (hn : p.length ≤ n) (hm : p.length ≤ m) :
    encodeLoop rle n p = encodeLoop rle m p := by
  induction n generalizing m p with
  | zero => cases p with
    | nil => cases m <;> rfl
    | cons b bs => simp at hn
  | succ n ih => cases p with
    | nil => cases m <;> rfl
    | cons b bs => cases m with
      | zero => simp at hm
      | succ m =>
        simp only [List.length_cons, Nat.add_le_add_iff_right] at hn hm
        simp only [encodeLoop]
        split
        · rw [ih hn hm]
        · split
          · rw [ih (m := m)] <;> simp only [List.length_drop] <;> omega
          · rw [ih hn hm]

theorem encodeBody_nil (rle : Bool) : encodeBody [] rle = [] := rfl

/-- One turn of the encoder's loop (R115). -/
theorem encodeBody_cons (b : Byte) (bs : List Byte) (rle : Bool) :
    encodeBody (b :: bs) rle =
      if isSpecial b then 0x7D :: escapeXor b :: encodeBody bs rle
      else if rle && decide (4 ≤ runTail b bs + 1) then
        b :: 0x2A :: countByte (rlePlan (runTail b bs + 1))
          :: encodeBody (bs.drop (rlePlan (runTail b bs + 1) - 1)) rle
      else b :: encodeBody bs rle := by
  have hd : encodeLoop rle bs.length (bs.drop (rlePlan (runTail b bs + 1) - 1))
      = encodeBody (bs.drop (rlePlan (runTail b bs + 1) - 1)) rle :=
    encodeLoop_fuel rle (by simp) (le_refl _)
  simp only [encodeBody, List.length_cons, encodeLoop] at *
  rw [hd]

theorem hexenc_length (c : Byte) : (hexenc c).length = 2 := rfl

theorem encodeFrame_length (p : List Byte) (rle : Bool) :
    (encodeFrame p rle).length = (encodeBody p rle).length + 4 := by
  simp [encodeFrame, hexenc]

/-- A frame within the cap has the shape R33 and R43 (12) give a stored frame. -/
theorem encodeFrame_shape {cfg : Config} (p : List Byte) (rle : Bool) (h : (encodeFrame p rle).length ≤ cfg.maxFrame) :
    FrameShape cfg (encodeFrame p rle) := by
  have hl := encodeFrame_length p rle
  refine ⟨by omega, h, rfl, ?_⟩
  rw [hl]
  simp [encodeFrame]

theorem deframeAll_append (cfg : Config) (a b : List Byte) (d : Deframer) :
    deframeAll cfg (a ++ b) d = deframeAll cfg b (deframeAll cfg a d) := by
  induction a generalizing d with
  | nil => rfl
  | cons x xs ih => exact ih _

theorem RegisterInv.deframeAll {cfg : Config} {d : Deframer} (bs : List Byte) (h : RegisterInv cfg d) :
    RegisterInv cfg (deframeAll cfg bs d) := by
  induction bs generalizing d with
  | nil => exact h
  | cons b bs ih => exact ih (h.deframeStep b)

/-! ### The deframer over one body unit of the encoder's (R83) -/

/-- A literal that is neither special nor 0x03 stores itself. -/
theorem deframeStep_literal {cfg : Config} {d : Deframer} (b : Byte) (hs : d.rxState = .body) (hok : d.rxBad = .ok)
    (h3 : b ≠ 0x03) (hsp : isSpecial b = false) (hw : d.rxWireLen < cfg.maxFrame)
    (hp : d.rxPayload.length < cfg.maxPayload) :
    deframeStep cfg b d =
      { d with
        rxPayload := d.rxPayload ++ [b], rxSum := d.rxSum + b, rxWireLen := d.rxWireLen + 1, rxLast := some b } := by
  have h : b ≠ 0x23 ∧ b ≠ 0x7D ∧ b ≠ 0x2A ∧ b ≠ 0x24 := by
    refine ⟨?_, ?_, ?_, ?_⟩ <;> rintro rfl <;> revert hsp <;> decide
  obtain ⟨a1, a2, a3, a4⟩ := h
  unfold deframeStep
  simp only [hs, if_neg h3, if_neg a1, if_neg a2, if_neg a3, if_neg a4]
  rw [rxBodyData, countWire_of_lt hw, store_of_room _ (by exact hok) (by exact hp)]
  simp [addSum, hs]

/-- An escape sequence stores the byte it was made from. -/
theorem deframeStep_escape {cfg : Config} {d : Deframer} (b : Byte) (hs : d.rxState = .body) (hok : d.rxBad = .ok)
    (hw : d.rxWireLen + 1 < cfg.maxFrame) (hp : d.rxPayload.length < cfg.maxPayload) :
    deframeStep cfg (escapeXor b) (deframeStep cfg 0x7D d) =
      { d with
        rxPayload := d.rxPayload ++ [b], rxSum := d.rxSum + 0x7D + escapeXor b, rxWireLen := d.rxWireLen + 2
        rxLast := some b } := by
  have h1 : deframeStep cfg 0x7D d =
      { d with rxState := .esc, rxSum := d.rxSum + 0x7D, rxWireLen := d.rxWireLen + 1 } := by
    unfold deframeStep
    simp only [hs]
    rw [if_neg (by decide), if_neg (by decide), if_pos trivial, rxBodyEscMark, countWire_of_lt (by omega)]
    rfl
  have hx : escapeXor (escapeXor b) = b := by revert b; decide +kernel
  rw [h1]
  unfold deframeStep
  simp only
  rw [rxEscLit, countWire_of_lt (by simpa using hw), store_of_room _ (by exact hok) (by exact hp), hx]
  simp [addSum, hs]

/-- A run unit stores `k - 1` copies of the preceding decoded byte. -/
theorem deframeStep_run {cfg : Config} {d : Deframer} (b : Byte) (k : Nat) (hs : d.rxState = .body)
    (hok : d.rxBad = .ok) (hl : d.rxLast = some b) (hk1 : 4 ≤ k) (hk : k ≤ 98)
    (hw : d.rxWireLen + 1 < cfg.maxFrame) (hp : d.rxPayload.length + (k - 1) ≤ cfg.maxPayload) :
    deframeStep cfg (countByte k) (deframeStep cfg 0x2A d) =
      { d with
        rxPayload := d.rxPayload ++ List.replicate (k - 1) b, rxSum := d.rxSum + 0x2A + countByte k
        rxWireLen := d.rxWireLen + 2 } := by
  have h1 : deframeStep cfg 0x2A d =
      { d with rxState := .rle, rxSum := d.rxSum + 0x2A, rxWireLen := d.rxWireLen + 1 } := by
    unfold deframeStep
    simp only [hs]
    rw [if_neg (by decide), if_neg (by decide), if_neg (by decide), if_pos trivial, rxBodyRleMark,
      countWire_of_lt (by omega)]
    simp [addSum, hl]
  have h2 : (countByte k).toNat = k + 28 := by simp [countByte]; omega
  have h3 : countByte k ≠ 0x03 := by intro h; rw [h] at h2; simp at h2
  have h4 : runCopies (countByte k) = k - 1 := by simp [runCopies, h2]
  rw [h1]
  unfold deframeStep
  simp only
  rw [if_neg h3, if_pos (by omega), rxRleCount, countWire_of_lt (by simpa using hw)]
  simp only [addSum, hl, h4]
  rw [storeN_of_room b (k - 1) (by exact hok) rfl (by simpa using hp), ← hs]

/-! ### What the encoder plans -/

/-- A unit covers 4 to 98 bytes of the run. -/
theorem rlePlan_bounds (n : Nat) (h : 4 ≤ n) : rlePlan n ≤ n ∧ 4 ≤ rlePlan n ∧ rlePlan n ≤ 98 := by
  unfold rlePlan
  dsimp only
  split <;> omega

/-- The bytes a run covers are copies of its byte. -/
theorem runTail_take (b : Byte) (l : List Byte) (k : Nat) (h : k ≤ runTail b l) : l.take k = List.replicate k b := by
  induction l generalizing k with
  | nil => simp [runTail] at h; subst h; simp
  | cons c cs ih =>
    cases k with
    | zero => simp
    | succ k =>
      simp only [runTail] at h
      split at h
      · rename_i hc
        subst hc
        simp [List.replicate_succ, ih k (by omega)]
      · omega

theorem runTail_le_length (b : Byte) (l : List Byte) : runTail b l ≤ l.length := by
  induction l with
  | nil => simp [runTail]
  | cons c cs ih => simp only [runTail, List.length_cons]; split <;> omega

end Sys2Proof.Machine
end

