-- ==== Sys2Proof/Laws/Session.lean ====
section
/-! SUPPORT. What the session's shared operations can do, and that each keeps the session's invariant. -/

namespace Sys2Proof.Machine

variable {cfg : Config} {s : State}

theorem SessionInv.reset (cfg : Config) : SessionInv cfg Session.reset :=
  ⟨by simp [Session.reset], by simp [Session.reset], by simp [Session.reset], by simp [Session.reset],
    by simp [Session.reset]⟩

/-- What `retry_or_fail` can do: close the session at the limit, or count and retransmit below it. -/
theorem retryOrFail_cases (s : State) :
    (s.cfg.maxRetries ≤ s.sess.retryCount ∧ retryOrFail s = enterClosed .retryExhausted s) ∨
    (s.sess.retryCount < s.cfg.maxRetries ∧
      retryOrFail s = retransmit { s with sess := { s.sess with retryCount := s.sess.retryCount + 1 } }) := by
  unfold retryOrFail
  split
  · exact .inl ⟨‹_›, rfl⟩
  · exact .inr ⟨by omega, rfl⟩

@[simp] theorem retryOrFail_cfg (s : State) : (retryOrFail s).cfg = s.cfg := by
  rcases retryOrFail_cases s with ⟨-, h⟩ | ⟨-, h⟩ <;> rw [h] <;> simp

/-- Entering the fatal state keeps the session's invariant. -/
theorem SessionInv.enterClosed (c : CloseCause) (h : SessionInv s.cfg s.sess) :
    SessionInv s.cfg (enterClosed c s).sess :=
  ⟨by simp, by simp, by simp, by simpa using h.retry_bound, by simp⟩

/-- `retry_or_fail` keeps the session's invariant, in whatever state it runs. -/
theorem SessionInv.retryOrFail (h : SessionInv s.cfg s.sess) : SessionInv s.cfg (retryOrFail s).sess := by
  rcases retryOrFail_cases s with ⟨-, hr⟩ | ⟨hlt, hr⟩
  · rw [hr]; exact h.enterClosed _
  · rw [hr, retransmit_sess]
    exact ⟨h.stored_iff_pending, h.armed_pending, h.fatal_iff_closed, hlt, h.stored_shape⟩

/-- What `EV_ACK` can do: settle the outstanding frame in `ACK_PENDING`, nothing in every other state. -/
theorem evAck_cases (s : State) :
    (s.sess.sessState = .ackPending ∧ evAck s =
      { s with sess := { s.sess with
        sessState := if s.sess.noackArmed then .noAck else .idle
        noackArmed := false, txStored := none, retryCount := 0 } }) ∨
    (s.sess.sessState ≠ .ackPending ∧ evAck s = s) := by
  cases h : s.sess.sessState <;> simp [evAck, h]

/-- `EV_ACK` keeps the session's invariant. -/
theorem SessionInv.evAck (h : SessionInv s.cfg s.sess) : SessionInv s.cfg (evAck s).sess := by
  rcases evAck_cases s with ⟨hp, he⟩ | ⟨-, he⟩ <;> rw [he]
  · have hf : s.sess.fatalCause = none := by
      by_contra hne
      rw [h.fatal_iff_closed.mp hne] at hp
      cases hp
    exact ⟨by simp; split <;> simp, by simp, by simp [hf]; split <;> simp, by simp, by simp⟩
  · exact h

/-- What `EV_NACK` can do. -/
theorem evNack_cases (s : State) :
    (s.sess.sessState = .ackPending ∧ evNack s = retryOrFail s) ∨ (s.sess.sessState ≠ .ackPending ∧ evNack s = s) := by
  cases h : s.sess.sessState <;> simp [evNack, h]

@[simp] theorem sessionEvent_cfg (e : Event) (s : State) : (sessionEvent e s).cfg = s.cfg := by
  cases e with
  | ack => rcases evAck_cases s with ⟨-, h⟩ | ⟨-, h⟩ <;> simp [sessionEvent, h]
  | nack => rcases evNack_cases s with ⟨-, h⟩ | ⟨-, h⟩ <;> simp [sessionEvent, h]
  | interrupt => rfl
  | reject c => simp [sessionEvent, evReject]
  | packet p => simp [sessionEvent, evPacket]

/-- Every reaction keeps the session's invariant. -/
theorem SessionInv.sessionEvent (e : Event) (h : SessionInv s.cfg s.sess) : SessionInv s.cfg (sessionEvent e s).sess := by
  cases e with
  | ack => exact h.evAck
  | nack =>
    rcases evNack_cases s with ⟨-, he⟩ | ⟨-, he⟩
    · simpa [Machine.sessionEvent, he] using h.retryOrFail
    · simpa [Machine.sessionEvent, he] using h
  | interrupt => exact h
  | reject c => simpa [Machine.sessionEvent, evReject] using h
  | packet p => simpa [Machine.sessionEvent, evPacket] using h

/-- A reaction leaves the deframer as it is, or in its reset state when it closes the session. -/
theorem sessionEvent_rx (e : Event) (s : State) :
    (sessionEvent e s).rx = s.rx ∨
      ((sessionEvent e s).rx = Deframer.reset ∧ (sessionEvent e s).sess.sessState = .closed) := by
  cases e with
  | ack => rcases evAck_cases s with ⟨-, h⟩ | ⟨-, h⟩ <;> simp [sessionEvent, h]
  | nack =>
    rcases evNack_cases s with ⟨-, h⟩ | ⟨-, h⟩
    · rcases retryOrFail_cases s with ⟨-, hr⟩ | ⟨-, hr⟩
      · right; simp [sessionEvent, h, hr]
      · left; simp [sessionEvent, h, hr]
    · left; simp [sessionEvent, h]
  | interrupt => left; rfl
  | reject c => left; simp [sessionEvent, evReject]
  | packet p => left; simp [sessionEvent, evPacket]

/-- The loop of R181 does nothing when no event waits. -/
theorem drain_nil (n : Nat) (h : s.rx.evQ = []) : drain n s = s := by
  cases n with
  | zero => rfl
  | succ n => simp [drain, h]

/-- Draining keeps the registers' and the session's invariants and the parameters. -/
theorem drain_inv (n : Nat) (hr : RegisterInv s.cfg s.rx) (hs : SessionInv s.cfg s.sess) :
    (drain n s).cfg = s.cfg ∧ RegisterInv s.cfg (drain n s).rx ∧ SessionInv s.cfg (drain n s).sess := by
  induction n generalizing s with
  | zero => exact ⟨rfl, hr, hs⟩
  | succ n ih =>
    unfold drain
    split
    · exact ⟨rfl, hr, hs⟩
    · rename_i e q _
      have h1 : RegisterInv s.cfg { s.rx with evQ := q } := hr.of_eq rfl rfl rfl
      have h2 := SessionInv.sessionEvent (s := { s with rx := { s.rx with evQ := q } }) e hs
      have h3 : RegisterInv s.cfg (Machine.sessionEvent e { s with rx := { s.rx with evQ := q } }).rx := by
        rcases sessionEvent_rx e { s with rx := { s.rx with evQ := q } } with h | ⟨h, -⟩ <;> rw [h]
        · exact h1
        · exact RegisterInv.reset _
      have h4 := ih (s := Machine.sessionEvent e { s with rx := { s.rx with evQ := q } }) (by simpa using h3)
        (by simpa using h2)
      simpa using h4

/-- What `H_SEND` can do. -/
theorem hSend_cases (p : List Byte) (s : State) :
    (s.sess.sessState = .closed ∧ hSend p s = answer (.status .closed) s) ∨
    (s.sess.sessState = .ackPending ∧ hSend p s = answer (.status .busy) s) ∨
    ((s.sess.sessState = .idle ∨ s.sess.sessState = .noAck) ∧
      s.cfg.maxFrame < (encodeFrame p s.sess.txRleEn).length ∧ hSend p s = answer (.status .tooLong) s) ∨
    (s.sess.sessState = .idle ∧ (encodeFrame p s.sess.txRleEn).length ≤ s.cfg.maxFrame ∧
      hSend p s = answer (.status .ok) { transmit (encodeFrame p s.sess.txRleEn) s with
        sess := { s.sess with
          txStored := some (encodeFrame p s.sess.txRleEn), retryCount := 0, sessState := .ackPending } }) ∨
    (s.sess.sessState = .noAck ∧ (encodeFrame p s.sess.txRleEn).length ≤ s.cfg.maxFrame ∧
      hSend p s = answer (.status .ok) (transmit (encodeFrame p s.sess.txRleEn) s)) := by
  by_cases hl : s.cfg.maxFrame < (encodeFrame p s.sess.txRleEn).length
  · cases h : s.sess.sessState <;> simp [hSend, sendFrame, h, hl, Nat.not_le.mpr hl]
  · cases h : s.sess.sessState <;> simp [hSend, sendFrame, h, hl, Nat.not_lt.mp hl]

/-- `H_SEND` keeps the session's invariant. -/
theorem SessionInv.hSend (p : List Byte) (h : SessionInv s.cfg s.sess) : SessionInv s.cfg (hSend p s).sess := by
  rcases hSend_cases p s with ⟨-, he⟩ | ⟨-, he⟩ | ⟨-, -, he⟩ | ⟨hi, hl, he⟩ | ⟨-, -, he⟩ <;> rw [he]
  · exact h
  · exact h
  · exact h
  · have hf : s.sess.fatalCause = none := by
      by_contra hne
      rw [h.fatal_iff_closed.mp hne] at hi
      cases hi
    exact ⟨by simp, by simp, by simp [hf], by simp,
      fun f hf => by simp at hf; subst hf; exact encodeFrame_shape p _ hl⟩
  · exact h

end Sys2Proof.Machine
end

