-- ==== Sys2Proof/Laws/PerInstr.lean ====
section
/-! SUPPORT. Per-instruction families: statements about an instruction as syntax, one lemma per constructor of `Instr`. -/

namespace Sys2Proof

/-- A received-byte key decodes to the row the byte-class map selects. -/
theorem decode_wireKey (st : RxState) (b : Byte) : decode (wireKey st b) = .ok (selectRow st b) := by
  cases st <;> rfl

/-- A reserved code 0x8 to 0xF decodes with its low bits. -/
theorem decode_reserved (low : BitVec 3) (arg : List Byte) :
    decode ⟨.host, (0x8 ||| low.setWidth 8) :: arg⟩ = .ok (.hReserved8F low arg) := by
  have h : ∀ x : BitVec 3, (0x8 ||| x.setWidth 8 : Byte) ≠ 0x0 ∧ (0x8 ||| x.setWidth 8 : Byte) ≠ 0x1 ∧
      (0x8 ||| x.setWidth 8 : Byte) ≠ 0x2 ∧ (0x8 ||| x.setWidth 8 : Byte) ≠ 0x3 ∧ (0x8 ||| x.setWidth 8 : Byte) ≠ 0x4 ∧
      (0x8 ||| x.setWidth 8 : Byte) ≠ 0x5 ∧ (0x8 ||| x.setWidth 8 : Byte) ≠ 0x6 ∧ (0x8 ||| x.setWidth 8 : Byte) ≠ 0x7 ∧
      (0x8 ||| x.setWidth 8 : Byte).toNat < 16 ∧ (0x8 ||| x.setWidth 8 : Byte).setWidth 3 = x := by decide
  obtain ⟨h0, h1, h2, h3, h4, h5, h6, h7, h8, h9⟩ := h low
  simp only [decode, decodeHost, if_neg h0, if_neg h1, if_neg h2, if_neg h3, if_neg h4, if_neg h5, if_neg h6, if_neg h7,
    if_pos h8, h9]

/-! ### Decoding the encoding gives the instruction back (R90, R97, R102) -/

/-- The decoder inverts the encoder on a well-formed instruction. -/
def Laws.EncodeRoundTrip.Statement (i : Instr) : Prop := i.WF → decode (encode i) = .ok i

namespace Laws.EncodeRoundTrip

theorem huntStart : Statement .huntStart := fun _ => rfl

theorem huntAck : Statement .huntAck := fun _ => rfl

theorem huntNack : Statement .huntNack := fun _ => rfl

theorem huntInt : Statement .huntInt := fun _ => rfl

theorem huntNoise (b : Byte) : Statement (.huntNoise b) := by
  intro h
  simp only [Instr.WF, Instr.wf, decide_eq_true_eq] at h
  simp only [encode, decode_wireKey, selectRow, if_neg h.1, if_neg h.2.1, if_neg h.2.2.1, if_neg h.2.2.2]

theorem escLit (b : Byte) : Statement (.escLit b) := fun _ => rfl

theorem inframeInt (st : RxState) : Statement (.inframeInt st) := by
  intro h
  cases st <;> first | rfl | cases h

theorem bodyEnd : Statement .bodyEnd := fun _ => rfl

theorem bodyEscMark : Statement .bodyEscMark := fun _ => rfl

theorem bodyRleMark : Statement .bodyRleMark := fun _ => rfl

theorem bodyRawDollar : Statement .bodyRawDollar := fun _ => rfl

theorem bodyData (b : Byte) : Statement (.bodyData b) := by
  intro h
  simp only [Instr.WF, Instr.wf, decide_eq_true_eq] at h
  simp only [encode, decode_wireKey, selectRow, if_neg h.1, if_neg h.2.1, if_neg h.2.2.1, if_neg h.2.2.2.1,
    if_neg h.2.2.2.2]

theorem rleCount (b : Byte) : Statement (.rleCount b) := by
  intro h
  simp only [Instr.WF, Instr.wf, decide_eq_true_eq] at h
  have h3 : b ≠ 0x03 := by rintro rfl; simp [IsRunCount] at h
  simp only [encode, decode_wireKey, selectRow, if_neg h3, if_pos h]

theorem rleBadcount (b : Byte) : Statement (.rleBadcount b) := by
  intro h
  simp only [Instr.WF, Instr.wf, decide_eq_true_eq] at h
  simp only [encode, decode_wireKey, selectRow, if_neg h.1, if_neg h.2]

theorem ck1Digit (b : Byte) : Statement (.ck1Digit b) := by
  intro h
  simp only [Instr.WF, Instr.wf, decide_eq_true_eq] at h
  have h3 : b ≠ 0x03 := by rintro rfl; simp [IsHexDigit] at h
  simp only [encode, decode_wireKey, selectRow, if_neg h3, if_pos h]

theorem ck1Baddigit (b : Byte) : Statement (.ck1Baddigit b) := by
  intro h
  simp only [Instr.WF, Instr.wf, decide_eq_true_eq] at h
  simp only [encode, decode_wireKey, selectRow, if_neg h.1, if_neg h.2]

theorem ck2Digit (b : Byte) : Statement (.ck2Digit b) := by
  intro h
  simp only [Instr.WF, Instr.wf, decide_eq_true_eq] at h
  have h3 : b ≠ 0x03 := by rintro rfl; simp [IsHexDigit] at h
  simp only [encode, decode_wireKey, selectRow, if_neg h3, if_pos h]

theorem ck2Baddigit (b : Byte) : Statement (.ck2Baddigit b) := by
  intro h
  simp only [Instr.WF, Instr.wf, decide_eq_true_eq] at h
  simp only [encode, decode_wireKey, selectRow, if_neg h.1, if_neg h.2]

theorem hStatus : Statement .hStatus := fun _ => rfl

theorem hSend (payload : List Byte) : Statement (.hSend payload) := fun _ => rfl

theorem hRecv : Statement .hRecv := fun _ => rfl

theorem hSetNoack : Statement .hSetNoack := fun _ => rfl

theorem hTimeout : Statement .hTimeout := fun _ => rfl

theorem hLinkDown : Statement .hLinkDown := fun _ => rfl

theorem hSetRle (v : Bool) : Statement (.hSetRle v) := by
  intro _
  cases v <;> rfl

theorem hReserved7 (arg : List Byte) : Statement (.hReserved7 arg) := fun _ => rfl

theorem hReserved8F (low : BitVec 3) (arg : List Byte) : Statement (.hReserved8F low arg) := by
  intro _
  rw [encode]
  exact decode_reserved low arg

theorem rxByte (b : Byte) : Statement (.rxByte b) := fun _ => rfl

theorem txPop : Statement .txPop := fun _ => rfl

theorem reset : Statement .reset := fun _ => rfl

theorem evAck : Statement .evAck := fun _ => rfl

theorem evNack : Statement .evNack := fun _ => rfl

theorem evPacket (payload : List Byte) : Statement (.evPacket payload) := fun _ => rfl

theorem evReject (cause : Cause) : Statement (.evReject cause) := by
  intro _
  cases cause <;> rfl

theorem evInterrupt : Statement .evInterrupt := fun _ => rfl

theorem cksum (s : List Byte) : Statement (.cksum s) := fun _ => rfl

theorem hexenc (c : Byte) : Statement (.hexenc c) := fun _ => rfl

theorem hexdec (b : Byte) : Statement (.hexdec b) := fun _ => rfl

theorem escEnc (b : Byte) : Statement (.escEnc b) := fun _ => rfl

theorem rlePlan (run : Nat) : Statement (.rlePlan run) := by
  intro h
  simp only [Instr.WF, Instr.wf, decide_eq_true_eq] at h
  simp [encode, decode, decodeFunc, decodePlan, h]

theorem encodeBody (payload : List Byte) (rle : Bool) : Statement (.encodeBody payload rle) := by
  intro _
  cases rle <;> rfl

theorem encodeFrame (payload : List Byte) (rle : Bool) : Statement (.encodeFrame payload rle) := by
  intro _
  cases rle <;> rfl

theorem decodeFrame (buffer : List Byte) : Statement (.decodeFrame buffer) := fun _ => rfl

theorem push (chunk : List Byte) : Statement (.push chunk) := fun _ => rfl

theorem next : Statement .next := fun _ => rfl

theorem deframeStep (b : Byte) : Statement (.deframeStep b) := fun _ => rfl

theorem countWire : Statement .countWire := fun _ => rfl

theorem markBad (cause : Cause) : Statement (.markBad cause) := by
  intro _
  cases cause <;> rfl

theorem store (v : Byte) : Statement (.store v) := fun _ => rfl

theorem clearFrame : Statement .clearFrame := fun _ => rfl

theorem sessionEvent (e : Event) : Statement (.sessionEvent e) := by
  intro _
  cases e with
  | reject c => cases c <;> rfl
  | ack => rfl
  | nack => rfl
  | interrupt => rfl
  | packet p => rfl

theorem retryOrFail : Statement .retryOrFail := fun _ => rfl

theorem enterClosed (cause : CloseCause) : Statement (.enterClosed cause) := by
  intro _
  cases cause <;> rfl

end Laws.EncodeRoundTrip

end Sys2Proof
end

