-- ==== Sys2Proof/Laws/Push.lean ====
section
/-! SUPPORT. What a step of `PUSH` can do, where the rest of a chunk goes on, and runs of steps. -/

namespace Sys2Proof.Machine

/-! ### Fields `pushRest` leaves alone -/

@[simp] theorem pushRest_cfg (c : List Byte) (s : State) : (pushRest c s).cfg = s.cfg := by cases c <;> rfl
@[simp] theorem pushRest_rx (c : List Byte) (s : State) : (pushRest c s).rx = s.rx := by cases c <;> rfl
@[simp] theorem pushRest_sess (c : List Byte) (s : State) : (pushRest c s).sess = s.sess := by cases c <;> rfl
@[simp] theorem pushRest_txFifo (c : List Byte) (s : State) : (pushRest c s).txFifo = s.txFifo := by cases c <;> rfl
@[simp] theorem pushRest_hostQ (c : List Byte) (s : State) : (pushRest c s).hostQ = s.hostQ := by cases c <;> rfl
@[simp] theorem pushRest_result (c : List Byte) (s : State) : (pushRest c s).result = s.result := by cases c <;> rfl

/-- Where an operation that goes on is put back among waiting ones followed by some whose first, if any, may not fall
between: behind some of the former, each of which may, and before all of the latter. -/
theorem resume_append (e : PortEvent) (n : Nat) (l tail : List PortEvent)
    (htail : ∀ w ∈ tail.head?, fallsBetween w = false) :
    ∃ before after, l = before ++ after ∧ resume e n (l ++ tail) = before ++ e :: (after ++ tail) ∧
      ∀ w ∈ before, fallsBetween w = true := by
  induction l generalizing n with
  | nil =>
    refine ⟨[], [], rfl, ?_, by simp⟩
    cases tail with
    | nil => rfl
    | cons w ws => simp [resume, htail w rfl]
  | cons v vs ih =>
    by_cases hv : fallsBetween v = false ∨ n = 0
    · exact ⟨[], v :: vs, rfl, by simp [resume, hv], by simp⟩
    · obtain ⟨before, after, h1, h2, h3⟩ := ih (n - 1)
      have hv' : fallsBetween v = true := by simpa using fun h => hv (.inl h)
      exact ⟨v :: before, after, by simp [h1], by simp only [List.cons_append, resume, if_neg hv, h2],
        fun w hw => by rcases List.mem_cons.mp hw with rfl | hw; exacts [hv', h3 w hw]⟩

/-- Where an operation that goes on is put back: behind some of the waiting ones, each of which may fall between. -/
theorem resume_split (e : PortEvent) (n : Nat) (l : List PortEvent) :
    ∃ before after, l = before ++ after ∧ resume e n l = before ++ e :: after ∧
      ∀ w ∈ before, fallsBetween w = true := by
  simpa using resume_append e n l [] (by simp)

/-- A waiting list holding nothing else leaves the rest of a chunk no choice. -/
theorem resume_nil (e : PortEvent) (n : Nat) : resume e n [] = [e] := rfl

/-- Steps run one after another. -/
theorem stepN_succ {s t : State} (n : Nat) (h : step s = .next t) : stepN (n + 1) s = stepN n t := by
  simp [stepN, h]

/-- A run of steps is one of some of them and one of the others. -/
theorem stepN_add (m n : Nat) {s t : State} (h : stepN m s = .next t) : stepN (m + n) s = stepN n t := by
  induction m generalizing s with
  | zero => simp_all [stepN]
  | succ m ih =>
    rw [Nat.succ_add]
    simp only [stepN] at h ⊢
    split at h <;> simp_all

/-- A step with a decodable operation waiting is that operation's effect. -/
theorem step_of_inbox {s : State} {e : PortEvent} {rest : List PortEvent} {i : Instr} (h : s.inbox = e :: rest)
    (hd : decode (fetchWord s.rx.rxState e) = .ok i) : step s = exec i { s with inbox := rest } := by
  simp [step, fetch, h, hd]

/-! ### What a chunk is stepped through with

A step changes `rx_state` and reads it at the wire port only; at every other port the event is its own key. -/

/-- At every port but the wire port an event is decoded as it stands. -/
theorem fetchWord_of_ne_wire (st : RxState) {e : PortEvent} (h : e.port ≠ .wire) : fetchWord st e = e := by
  cases e with
  | mk p b => cases p <;> first | rfl | exact absurd rfl h

/-- No chunk's rest passes a `PUSH`. -/
theorem fallsBetween_push (c : List Byte) : fallsBetween (encode (.push c)) = false := rfl

/-- No chunk's rest passes a `NEXT`. -/
theorem fallsBetween_next : fallsBetween (encode .next) = false := rfl

/-- What a step of a `PUSH` of two bytes or more can do, with `tail` waiting behind the operations that may come between. -/
theorem pushByte_more_append (b c : Byte) (cs : List Byte) (s : State) (l tail : List PortEvent)
    (hs : s.inbox = l ++ tail) (htail : ∀ w ∈ tail.head?, fallsBetween w = false) :
    ∃ before after, l = before ++ after ∧ (∀ w ∈ before, fallsBetween w = true) ∧
      pushByte (b :: c :: cs) s =
        { onRx (fun cfg => deframeStep cfg b) s with
          inbox := before ++ encode (.push (c :: cs)) :: (after ++ tail), freeUse := s.freeUse + 1 } := by
  obtain ⟨before, after, h1, h2, h3⟩ := resume_append (encode (.push (c :: cs))) (Config.freeTurns s.freeUse) l tail htail
  refine ⟨before, after, h1, h3, ?_⟩
  rw [← h2, ← hs]
  rfl

/-- What a step of a `PUSH` of two bytes or more can do. -/
theorem pushByte_more (b c : Byte) (cs : List Byte) (s : State) :
    ∃ before after, s.inbox = before ++ after ∧ (∀ w ∈ before, fallsBetween w = true) ∧
      pushByte (b :: c :: cs) s =
        { onRx (fun cfg => deframeStep cfg b) s with
          inbox := before ++ encode (.push (c :: cs)) :: after, freeUse := s.freeUse + 1 } := by
  simpa using pushByte_more_append b c cs s s.inbox [] (by simp) (by simp)

end Sys2Proof.Machine
end

