-- ==== Sys2Proof/Tests/Slice0.lean ====
section
/-! SUPPORT. Tests: ill-formed terms each check of `Instr.wf` refuses; words written out from 30_encoding.md; one or two steps
of each instruction on small states, with the values of 95_test_vectors.md (its vector is named in each comment); and a
witness for the hypotheses of each statement that has some. -/

namespace Sys2Proof.Tests

open Sys2Proof.Machine

/-! ### Small states -/

/-- Reset with the parameters of vectors V36 to V39. -/
def tiny : State := { State.reset with cfg := ⟨8, 4, 3⟩ }

/-- Reset with the given deframer registers. -/
def withRx (rx : Deframer) : State := { State.reset with rx := rx }

/-- Registers after `$OK` (V20b). -/
def okBody : Deframer := ⟨.body, 0x9A, [0x4F, 0x4B], some 0x4B, .ok, 3, 0, []⟩

/-- Registers after `$OK#` (V20c). -/
def okCk1 : Deframer := { okBody with rxState := .ck1, rxWireLen := 4 }

/-- Registers after `$OK#9` (V20d). -/
def okCk2 : Deframer := { okBody with rxState := .ck2, rxWireLen := 5, rxCkHi := 9 }

/-- Registers after `$a*` (before the count of V10). -/
def aRle : Deframer := ⟨.rle, 0x8B, [0x61], some 0x61, .ok, 3, 0, []⟩

/-- A frame that went bad in its body, with the first cause `RAW_DOLLAR`. -/
def badBody : Deframer := ⟨.body, 0x00, [], none, .bad .rawDollar, 2, 0, []⟩

/-- The frame `$OK#9a` (V6). -/
def okFrame : List Byte := [0x24, 0x4F, 0x4B, 0x23, 0x39, 0x61]

/-- After V63: `H_SEND("OK")` from reset. -/
def pending : State :=
  { State.reset with
    sess := { Session.reset with sessState := .ackPending, txStored := some okFrame }
    txFifo := okFrame }

/-- `pending` after as many retransmissions as `MAX_RETRIES` allows (V68). -/
def spent : State := { pending with sess := { pending.sess with retryCount := 3 } }

/-- In no-acknowledgment mode. -/
def inNoAck : State := { State.reset with sess := { Session.reset with sessState := .noAck } }

/-- Closed by `LINK_DOWN` (V78). -/
def down : State :=
  { State.reset with sess := { Session.reset with sessState := .closed, fatalCause := some .linkDown } }

/-- The next state of an instruction. -/
def nextOf (i : Instr) (s : State) : Option State :=
  match exec i s with
  | .next t => some t
  | .fault _ => none
  | .refused _ => none

/-- A field of the next state of an instruction. -/
def after {α : Type} (i : Instr) (s : State) (f : State → α) : Option α := (nextOf i s).map f

/-! ### WellFormed: each check refuses an ill-formed term -/

theorem test_wf_huntNoise : ¬ (Instr.huntNoise 0x24).WF := by decide
theorem test_wf_inframeInt : ¬ (Instr.inframeInt .hunt).WF ∧ ¬ (Instr.inframeInt .esc).WF := by decide
theorem test_wf_bodyData : ¬ (Instr.bodyData 0x23).WF := by decide
theorem test_wf_rleCount : ¬ (Instr.rleCount 0x1F).WF ∧ ¬ (Instr.rleCount 0x7F).WF := by decide
theorem test_wf_rleBadcount : ¬ (Instr.rleBadcount 0x20).WF ∧ ¬ (Instr.rleBadcount 0x03).WF := by decide
theorem test_wf_ck1Digit : ¬ (Instr.ck1Digit 0x67).WF := by decide
theorem test_wf_ck1Baddigit : ¬ (Instr.ck1Baddigit 0x30).WF ∧ ¬ (Instr.ck1Baddigit 0x03).WF := by decide
theorem test_wf_ck2Digit : ¬ (Instr.ck2Digit 0x67).WF := by decide
theorem test_wf_ck2Baddigit : ¬ (Instr.ck2Baddigit 0x30).WF ∧ ¬ (Instr.ck2Baddigit 0x03).WF := by decide
theorem test_wf_rlePlan : ¬ (Instr.rlePlan 3).WF := by decide

/-! ### Decode: words written out from R90, R97 and R102 -/

/-- The received-byte rows, as 11-bit keys: three bits of state code, eight bits of byte. -/
theorem test_decode_hunt_and_esc :
    decodeTableWord 16 0b00000100100 = some .huntStart ∧ decodeTableWord 16 0b00000101011 = some .huntAck ∧
    decodeTableWord 16 0b00000101101 = some .huntNack ∧ decodeTableWord 16 0b00000000011 = some .huntInt ∧
    decodeTableWord 16 0b00001000001 = some (.huntNoise 0x41) ∧
    decodeTableWord 16 0b01000000011 = some (.escLit 0x03) := by decide

theorem test_decode_body :
    decodeTableWord 16 0b00100000011 = some (.inframeInt .body) ∧ decodeTableWord 16 0b00100100011 = some .bodyEnd ∧
    decodeTableWord 16 0b00101111101 = some .bodyEscMark ∧ decodeTableWord 16 0b00100101010 = some .bodyRleMark ∧
    decodeTableWord 16 0b00100100100 = some .bodyRawDollar ∧
    decodeTableWord 16 0b00101100001 = some (.bodyData 0x61) := by decide

theorem test_decode_rle_and_checksum :
    decodeTableWord 16 0b01100100000 = some (.rleCount 0x20) ∧ decodeTableWord 16 0b01101111111 = some (.rleBadcount 0x7F) ∧
    decodeTableWord 16 0b10001100110 = some (.ck1Digit 0x66) ∧ decodeTableWord 16 0b10001100111 = some (.ck1Baddigit 0x67) ∧
    decodeTableWord 16 0b10101000001 = some (.ck2Digit 0x41) ∧ decodeTableWord 16 0b10100100100 = some (.ck2Baddigit 0x24) ∧
    decodeTableWord 16 0b11000000000 = none := by decide

/-- The 4-bit host codes of R97, with operands. -/
theorem test_decode_host :
    decode ⟨.host, [0x0]⟩ = .ok .hStatus ∧ decode ⟨.host, [0x1, 0x4F, 0x4B]⟩ = .ok (.hSend [0x4F, 0x4B]) ∧
    decode ⟨.host, [0x2]⟩ = .ok .hRecv ∧ decode ⟨.host, [0x3]⟩ = .ok .hSetNoack ∧ decode ⟨.host, [0x4]⟩ = .ok .hTimeout ∧
    decode ⟨.host, [0x5]⟩ = .ok .hLinkDown ∧ decode ⟨.host, [0x6, 1]⟩ = .ok (.hSetRle true) ∧
    decode ⟨.host, [0x7]⟩ = .ok (.hReserved7 []) ∧ decode ⟨.host, [0xF, 9]⟩ = .ok (.hReserved8F 7 [9]) ∧
    decode ⟨.host, [0x10]⟩ = .error .noSuchHostCode := by decide

/-- The operations without a code: the port and the model's selector name them (log entry 4). -/
theorem test_decode_ports_and_events :
    decode ⟨.rx, [0x2B]⟩ = .ok (.rxByte 0x2B) ∧ decode ⟨.tx, []⟩ = .ok .txPop ∧ decode ⟨.rst, []⟩ = .ok .reset ∧
    decode ⟨.event, [1]⟩ = .ok .evAck ∧ decode ⟨.event, [2]⟩ = .ok .evNack ∧ decode ⟨.event, [3, 7]⟩ = .ok (.evPacket [7]) ∧
    decode ⟨.event, [4, 3]⟩ = .ok (.evReject .oversize) ∧ decode ⟨.event, [5]⟩ = .ok .evInterrupt := by decide

theorem test_decode_functions :
    decode ⟨.func, [0, 1, 2]⟩ = .ok (.cksum [1, 2]) ∧ decode ⟨.func, [1, 9]⟩ = .ok (.hexenc 9) ∧
    decode ⟨.func, [2, 9]⟩ = .ok (.hexdec 9) ∧ decode ⟨.func, [3, 9]⟩ = .ok (.escEnc 9) ∧
    decode ⟨.func, [4, 7, 7, 7, 7]⟩ = .ok (.rlePlan 4) ∧ decode ⟨.func, [5, 1, 8]⟩ = .ok (.encodeBody [8] true) ∧
    decode ⟨.func, [6, 0, 8]⟩ = .ok (.encodeFrame [8] false) ∧ decode ⟨.func, [7, 8]⟩ = .ok (.decodeFrame [8]) ∧
    decode ⟨.func, [8, 8]⟩ = .ok (.push [8]) ∧ decode ⟨.func, [9]⟩ = .ok .next := by decide

theorem test_decode_helpers :
    decode ⟨.helper, [0, 9]⟩ = .ok (.deframeStep 9) ∧ decode ⟨.helper, [1]⟩ = .ok .countWire ∧
    decode ⟨.helper, [2, 1]⟩ = .ok (.markBad .badRle) ∧ decode ⟨.helper, [3, 9]⟩ = .ok (.store 9) ∧
    decode ⟨.helper, [4]⟩ = .ok .clearFrame ∧ decode ⟨.helper, [5, 1]⟩ = .ok (.sessionEvent .ack) ∧
    decode ⟨.helper, [6]⟩ = .ok .retryOrFail ∧ decode ⟨.helper, [7, 2]⟩ = .ok (.enterClosed .linkDown) := by decide

/-! ### The Stream Decoder's rows -/

/-- V20a -/
theorem test_huntStart : after .huntStart State.reset (·.rx) = some ⟨.body, 0, [], none, .ok, 1, 0, []⟩ := by decide
/-- V28 -/
theorem test_huntAck : after .huntAck State.reset (·.rx.evQ) = some [.ack] := by decide
/-- V28 -/
theorem test_huntNack : after .huntNack State.reset (·.rx.evQ) = some [.nack] := by decide
/-- V28 -/
theorem test_huntInt : after .huntInt State.reset (·.rx.evQ) = some [.interrupt] := by decide
/-- The text after V22: `junk` leaves the reset state. -/
theorem test_huntNoise : after (.huntNoise 0x6A) State.reset (·.rx) = some Deframer.reset := by decide
/-- V20b: `K` after `$O`. -/
theorem test_bodyData :
    after (.bodyData 0x4B) (withRx ⟨.body, 0x4F, [0x4F], some 0x4F, .ok, 2, 0, []⟩) (·.rx) = some okBody := by decide
/-- V37: `e`, the fifth payload byte with `MAX_PAYLOAD = 4`, marks `OVERSIZE` and releases the storage. -/
theorem test_bodyData_full :
    after (.bodyData 0x65) { tiny with rx := ⟨.body, 0x8A, [0x61, 0x62, 0x63, 0x64], some 0x64, .ok, 5, 0, []⟩ } (·.rx) =
      some ⟨.body, 0xEF, [], some 0x65, .bad .oversize, 6, 0, []⟩ := by decide
/-- V21: the escape marker after `$ab`. -/
theorem test_bodyEscMark :
    after .bodyEscMark (withRx ⟨.body, 0xC3, [0x61, 0x62], some 0x62, .ok, 3, 0, []⟩) (·.rx) =
      some ⟨.esc, 0x40, [0x61, 0x62], some 0x62, .ok, 4, 0, []⟩ := by decide
/-- V24: 0x03 as an escape operand is no interrupt. -/
theorem test_escLit :
    after (.escLit 0x03) (withRx ⟨.esc, 0xDE, [0x61], some 0x61, .ok, 3, 0, []⟩) (·.rx) =
      some ⟨.body, 0xE1, [0x61, 0x23], some 0x23, .ok, 4, 0, []⟩ := by decide
/-- V24: the checksum wraps at `*`. -/
theorem test_bodyRleMark :
    after .bodyRleMark (withRx ⟨.body, 0xE1, [0x61, 0x23], some 0x23, .ok, 4, 0, []⟩) (·.rx) =
      some ⟨.rle, 0x0B, [0x61, 0x23], some 0x23, .ok, 5, 0, []⟩ := by decide
/-- V14: no preceding decoded byte. -/
theorem test_bodyRleMark_first :
    after .bodyRleMark (withRx ⟨.body, 0, [], none, .ok, 1, 0, []⟩) (·.rx.rxBad) = some (.bad .badRle) := by decide
/-- V24: `!` stands for four more. -/
theorem test_rleCount :
    after (.rleCount 0x21) (withRx ⟨.rle, 0x0B, [0x61, 0x23], some 0x23, .ok, 5, 0, []⟩) (·.rx) =
      some ⟨.body, 0x2C, [0x61, 0x23, 0x23, 0x23, 0x23, 0x23], some 0x23, .ok, 6, 0, []⟩ := by decide
/-- V38b: five payload bytes exceed `MAX_PAYLOAD = 4`. -/
theorem test_rleCount_full :
    after (.rleCount 0x21) { tiny with rx := aRle } (·.rx) =
      some ⟨.body, 0xAC, [], some 0x61, .bad .oversize, 4, 0, []⟩ := by decide
/-- V12: 0x1F, one below the range. -/
theorem test_rleBadcount :
    after (.rleBadcount 0x1F) (withRx aRle) (·.rx) = some ⟨.body, 0xAA, [], some 0x61, .bad .badRle, 4, 0, []⟩ := by decide
/-- V17: `$` after `$ab`. -/
theorem test_bodyRawDollar :
    after .bodyRawDollar (withRx ⟨.body, 0xC3, [0x61, 0x62], some 0x62, .ok, 3, 0, []⟩) (·.rx) =
      some ⟨.body, 0xE7, [], some 0x62, .bad .rawDollar, 4, 0, []⟩ := by decide
/-- V39c: the first cause sticks when the cap is passed later. -/
theorem test_bodyEnd_past_cap :
    after .bodyEnd { tiny with rx := { badBody with rxWireLen := 8 } } (·.rx) =
      some { badBody with rxState := .ck1, rxWireLen := 9 } := by decide
/-- V20c -/
theorem test_bodyEnd : after .bodyEnd (withRx okBody) (·.rx) = some okCk1 := by decide
/-- V20d -/
theorem test_ck1Digit : after (.ck1Digit 0x39) (withRx okCk1) (·.rx) = some okCk2 := by decide
/-- `$OK#g` of the vectors on bad checksum digits. -/
theorem test_ck1Baddigit :
    after (.ck1Baddigit 0x67) (withRx okCk1) (·.rx) =
      some { okCk2 with rxPayload := [], rxBad := .bad .badCkDigit, rxCkHi := 0 } := by decide
/-- V6 -/
theorem test_ck2Digit :
    after (.ck2Digit 0x61) (withRx okCk2) (·.rx) = some { Deframer.reset with evQ := [.packet [0x4F, 0x4B]] } := by decide
/-- `$OK#9b`: a wrong checksum. -/
theorem test_ck2Digit_mismatch :
    after (.ck2Digit 0x62) (withRx okCk2) (·.rx) = some { Deframer.reset with evQ := [.reject .ckMismatch] } := by decide
/-- `$OK#9g` -/
theorem test_ck2Baddigit :
    after (.ck2Baddigit 0x67) (withRx okCk2) (·.rx) = some { Deframer.reset with evQ := [.reject .badCkDigit] } := by decide
/-- V26: 0x03 in the second checksum position does not satisfy it. -/
theorem test_inframeInt :
    after (.inframeInt .ck2) (withRx okCk2) (·.rx) = some { okCk2 with evQ := [.interrupt] } := by decide

/-! ### The host's operations -/

/-- V73 -/
theorem test_hStatus :
    after .hStatus State.reset (·.result) = some (.record ⟨.idle, true, false, 0, none, false, false, false⟩) := by decide
/-- V63 -/
theorem test_hSend :
    after (.hSend [0x4F, 0x4B]) State.reset id = some { pending with result := .status .ok } := by decide
/-- V77: 13 bytes `0` with `MAX_FRAME = 16`. -/
theorem test_hSend_tooLong :
    after (.hSend (List.replicate 13 0x30)) { State.reset with cfg := ⟨16, 12, 3⟩ } (fun t => (t.result, t.txFifo)) =
      some (.status .tooLong, []) := by decide
/-- Program P1, operation 3. -/
theorem test_hRecv :
    after .hRecv { State.reset with hostQ := [.packet [0x67], .interrupt] } (fun t => (t.result, t.hostQ)) =
      some (.item (some (.packet [0x67])), [.interrupt]) := by decide
/-- V69 -/
theorem test_hSetNoack : after .hSetNoack State.reset (·.sess.sessState) = some .noAck := by decide
/-- V70 -/
theorem test_hSetNoack_armed :
    after .hSetNoack pending (fun t => (t.sess.sessState, t.sess.noackArmed)) = some (.ackPending, true) := by decide
/-- V68 -/
theorem test_hTimeout_exhausted :
    after .hTimeout spent (fun t => (t.result, t.sess, t.txFifo)) =
      some (.status .ok, ⟨.closed, false, 3, none, some .retryExhausted, false⟩, []) := by decide
/-- R192 in `IDLE`: no effect. -/
theorem test_hTimeout_idle : after .hTimeout State.reset id = some { State.reset with result := .status .ok } := by decide
/-- R193 from `ACK_PENDING`. -/
theorem test_hLinkDown :
    after .hLinkDown pending (fun t => (t.sess, t.txFifo)) = some (down.sess, []) := by decide
/-- V78: the first cause stays. -/
theorem test_hLinkDown_closed :
    after .hLinkDown { spent with sess := { spent.sess with sessState := .closed, fatalCause := some .retryExhausted } }
      (·.sess.fatalCause) = some (some .retryExhausted) := by decide
/-- V78 and R194. -/
theorem test_hSetRle :
    after (.hSetRle true) State.reset (·.sess.txRleEn) = some true ∧
    after (.hSetRle true) down id = some { down with result := .status .closed } := by decide
/-- V76 -/
theorem test_hReserved :
    after (.hReserved7 [1]) State.reset id = some { State.reset with result := .status .badOp } ∧
    after (.hReserved8F 7 [1]) pending id = some { pending with result := .status .badOp } := by decide

/-! ### The ports -/

/-- V64 -/
theorem test_rxByte_ack :
    after (.rxByte 0x2B) pending (fun t => (t.sess, t.txFifo)) = some (Session.reset, okFrame) := by decide
/-- V65 -/
theorem test_rxByte_nack :
    after (.rxByte 0x2D) pending (fun t => (t.sess.retryCount, t.txFifo)) = some (1, okFrame ++ okFrame) := by decide
/-- V75 and program P1, operation 6. -/
theorem test_txPop :
    after .txPop State.reset (·.result) = some (.byte none) ∧
    after .txPop pending (fun t => (t.result, t.txFifo)) = some (.byte (some 0x24), okFrame.tail) := by decide
/-- R197 from a closed session in the middle of a frame. -/
theorem test_reset : after .reset { down with rx := okBody, hostQ := [.interrupt] } id = some State.reset := by decide

/-! ### The session's reactions -/

/-- V70: the armed switch. -/
theorem test_evAck :
    after .evAck { pending with sess := { pending.sess with noackArmed := true, retryCount := 2 } } (·.sess) =
      some ⟨.noAck, false, 0, none, none, false⟩ := by decide
/-- V80: `MAX_RETRIES = 0`. -/
theorem test_evNack :
    after .evNack { pending with cfg := ⟨4096, 4092, 0⟩ } (fun t => (t.sess.sessState, t.sess.fatalCause, t.sess.retryCount)) =
      some (.closed, some .retryExhausted, 0) := by decide
/-- V67 and V71. -/
theorem test_evPacket :
    after (.evPacket [0x67]) pending (fun t => (t.txFifo, t.hostQ)) = some (okFrame ++ [0x2B], [.packet [0x67]]) ∧
    after (.evPacket [0x67]) inNoAck (fun t => (t.txFifo, t.hostQ)) = some ([], [.packet [0x67]]) := by decide
/-- V62 and V71. -/
theorem test_evReject :
    after (.evReject .ckMismatch) State.reset (·.txFifo) = some [0x2D] ∧
    after (.evReject .ckMismatch) inNoAck (·.txFifo) = some [] := by decide
/-- V72 -/
theorem test_evInterrupt :
    after .evInterrupt State.reset (fun t => (t.txFifo, t.hostQ)) = some ([], [.interrupt]) := by decide

/-! ### The functions -/

/-- V50: the sum of `m0,4`. -/
theorem test_cksum : after (.cksum [0x6D, 0x30, 0x2C, 0x34]) State.reset (·.result) = some (.sum 0xFD) := by decide
/-- V51 -/
theorem test_hexenc : after (.hexenc 0x9A) State.reset (·.result) = some (.bytes [0x39, 0x61]) := by decide
/-- V51 -/
theorem test_hexdec :
    after (.hexdec 0x46) State.reset (·.result) = some (.digit (some 15)) ∧
    after (.hexdec 0x3A) State.reset (·.result) = some (.digit none) := by decide
/-- V30 -/
theorem test_escEnc : after (.escEnc 0x2A) State.reset (·.result) = some (.bytes [0x7D, 0x0A]) := by decide
/-- V54 -/
theorem test_rlePlan :
    (after (.rlePlan 7) State.reset (·.result), after (.rlePlan 8) State.reset (·.result),
      after (.rlePlan 9) State.reset (·.result), after (.rlePlan 99) State.reset (·.result)) =
      (some (.count 6), some (.count 6), some (.count 9), some (.count 98)) := by decide
/-- V52, the row of 8 bytes `a`. -/
theorem test_encodeBody :
    after (.encodeBody (List.replicate 8 0x61) true) State.reset (·.result) =
      some (.bytes [0x61, 0x2A, 0x22, 0x61, 0x61]) := by decide
/-- V31 -/
theorem test_encodeFrame :
    after (.encodeFrame [0x24, 0x23, 0x2A, 0x7D] true) State.reset (·.result) =
      some (.bytes [0x24, 0x7D, 0x04, 0x7D, 0x03, 0x7D, 0x0A, 0x7D, 0x5D, 0x23, 0x36, 0x32]) := by decide
/-- V55: `xyz$OK#9a`, and the incomplete `$OK#9`. -/
theorem test_decodeFrame :
    after (.decodeFrame ([0x78, 0x79, 0x7A] ++ okFrame)) State.reset (·.result) =
      some (.decoded (.complete [0x4F, 0x4B] 9)) ∧
    after (.decodeFrame [0x24, 0x4F, 0x4B, 0x23, 0x39]) State.reset (·.result) = some (.decoded .incomplete) := by
  decide +kernel
/-- R67: a step of `PUSH` decodes one byte, and the rest of the chunk waits. -/
theorem test_push :
    after (.push [0x4F, 0x4B]) (withRx ⟨.body, 0, [], none, .ok, 1, 0, []⟩) (fun t => (t.rx.rxPayload, t.inbox)) =
      some ([0x4F], [encode (.push [0x4B])]) := by decide
/-- R67, R66: an operation of the host issued between two bytes of a chunk. -/
theorem test_push_between :
    (match stepN 2 { withRx okCk2 with inbox := [⟨.host, [0x0]⟩, encode (.push [0x61])] } with
      | .next t => some (t.rx, t.inbox)
      | .fault _ => none
      | .refused _ => none) = some ({ Deframer.reset with evQ := [.packet [0x4F, 0x4B]] }, []) := by decide
/-- R163 -/
theorem test_next :
    after .next (withRx { okBody with evQ := [.ack, .nack] }) (fun t => (t.result, t.rx)) =
      some (.event (some .ack), { okBody with evQ := [.nack] }) := by decide
/-- R163's example: after `PUSH("+$OK#9a")` three calls return `Ack`, the packet and `None`. -/
theorem test_next_after_push :
    [8, 9, 10].map (fun n =>
      match stepN n { State.reset with inbox := encode (.push (0x2B :: okFrame)) :: List.replicate 3 (encode .next) } with
      | .next t => some t.result
      | .fault _ => none
      | .refused _ => none) =
      [some (.event (some .ack)), some (.event (some (.packet [0x4F, 0x4B]))), some (.event none)] := by decide +kernel

/-! ### The helpers -/

/-- V26 through `deframe_step`: a space in `RLE` is a count. -/
theorem test_deframeStep :
    after (.deframeStep 0x20) (withRx aRle) (fun t => (t.rx.rxState, t.rx.rxPayload)) =
      some (.body, [0x61, 0x61, 0x61, 0x61]) := by decide
/-- R141, R26: saturation. -/
theorem test_countWire :
    after .countWire { tiny with rx := { okBody with rxWireLen := 9 } } (fun t => (t.rx.rxWireLen, t.rx.rxBad)) =
      some (9, .bad .oversize) := by decide
/-- R142 -/
theorem test_markBad : after (.markBad .badRle) (withRx badBody) (·.rx) = some badBody := by decide
/-- R143 -/
theorem test_store :
    after (.store 0x7A) (withRx okBody) (·.rx) =
      some { okBody with rxPayload := [0x4F, 0x4B, 0x7A], rxLast := some 0x7A } := by decide
/-- R144: `rx_state` and `ev_q` stay. -/
theorem test_clearFrame :
    after .clearFrame (withRx { okCk2 with evQ := [.ack] }) (·.rx) =
      some { Deframer.reset with rxState := .ck2, evQ := [.ack] } := by decide
/-- R180 -/
theorem test_sessionEvent : after (.sessionEvent .interrupt) down (·.hostQ) = some [.interrupt] := by decide
/-- R186 -/
theorem test_retryOrFail :
    after .retryOrFail pending (fun t => (t.sess.retryCount, t.txFifo)) = some (1, okFrame ++ okFrame) := by decide
/-- R187: the count is kept, the deframer returns to `HUNT`. -/
theorem test_enterClosed :
    after (.enterClosed .linkDown) { spent with rx := okBody } (fun t => (t.sess.retryCount, t.rx)) =
      some (3, Deframer.reset) := by decide

/-- A table word placed by `withFetchWord` is the next operation: `$` in `HUNT` from reset. -/
theorem test_withFetchWord :
    (match step (State.reset.withFetchWord 16 0x024) with
      | .next t => some t
      | .fault _ => none
      | .refused _ => none) =
      some { State.reset with rx := { Deframer.reset with rxState := .body, rxWireLen := 1 } } := by decide

/-! ### Witnesses: states and operands that meet the hypotheses of the statements -/

theorem okFrame_shape : FrameShape Config.documented okFrame := by unfold FrameShape; decide

theorem pending_session : SessionInv Config.documented pending.sess :=
  ⟨by decide, by decide, by decide, by decide, fun f hf => by cases hf; exact okFrame_shape⟩

theorem spent_session : SessionInv Config.documented spent.sess :=
  ⟨by decide, by decide, by decide, by decide, fun f hf => by cases hf; exact okFrame_shape⟩

/-- The stored frame of `pending` is the frame of `OK`, and deframes to it (V6). -/
theorem okFrame_decodes (f : List Byte) (hf : some okFrame = some f) :
    ∃ payload rle, f = encodeFrame payload rle ∧ ((0x03 : Byte) ∉ payload →
      payload.length ≤ Config.documented.maxPayload →
      (deframeAll Config.documented f Deframer.reset).evQ = [.packet payload]) := by
  cases hf
  exact ⟨[0x4F, 0x4B], false, by decide, fun _ _ => by decide +kernel⟩

theorem pending_block : BlockInv pending :=
  ⟨RegisterInv.reset _, pending_session, by decide, by decide, by decide, by decide, by decide, okFrame_decodes⟩

theorem spent_block : BlockInv spent :=
  ⟨RegisterInv.reset _, spent_session, by decide, by decide, by decide, by decide, by decide, okFrame_decodes⟩

theorem inNoAck_block : BlockInv inNoAck :=
  ⟨RegisterInv.reset _, ⟨by decide, by decide, by decide, by decide, fun f hf => by cases hf⟩, by decide, by decide,
    by decide, by decide, by decide, fun f hf => by cases hf⟩

theorem down_block : BlockInv down :=
  ⟨RegisterInv.reset _, ⟨by decide, by decide, by decide, by decide, fun f hf => by cases hf⟩, by decide, by decide,
    by decide, by decide, by decide, fun f hf => by cases hf⟩

/-- `StepRunsTheDecodedOperation`: a received byte at the wire port, and a host operation. -/
theorem witness_StepRunsTheDecodedOperation :
    ({ State.reset with inbox := [⟨.wire, [0x24]⟩, ⟨.host, [0x2]⟩] } : State).inbox = ⟨.wire, [0x24]⟩ :: [⟨.host, [0x2]⟩] ∧
    decode (fetchWord State.reset.rx.rxState ⟨.wire, [0x24]⟩) = .ok .huntStart ∧
    decode (fetchWord State.reset.rx.rxState ⟨.host, [0x2]⟩) = .ok .hRecv := by decide

/-- `StepWithoutAnOperation`: an empty inbox; bytes that are no operation. -/
theorem witness_StepWithoutAnOperation :
    State.reset.inbox = [] ∧ decode (fetchWord State.reset.rx.rxState ⟨.host, []⟩) = .error .badLength ∧
    decode (fetchWord State.reset.rx.rxState ⟨.wire, []⟩) = .error .badLength := by decide

/-- `ParametersAreConstant`, `DeframeStepEmitsAtMostOneEvent`: instructions that answer a next state. -/
theorem witness_next_states :
    (nextOf .reset tiny).isSome = true ∧ (nextOf (.deframeStep 0x2B) tiny).isSome = true ∧
    (nextOf (.deframeStep 0x61) (withRx okCk2)).isSome = true := by decide

/-- `DecodeInvertsEncode`: well-formed instructions at the ends of their operand ranges. -/
theorem witness_DecodeInvertsEncode :
    (Instr.rleCount 0x20).WF ∧ (Instr.rleCount 0x7E).WF ∧ (Instr.huntNoise 0xFF).WF ∧ (Instr.rlePlan 4).WF ∧
    (Instr.hReserved8F 7 [1]).WF := by decide

/-- `DecodedOperationsAreWellFormed` -/
theorem witness_DecodedOperationsAreWellFormed :
    decode ⟨.wire, [0x7E, 3]⟩ = .ok (.rleCount 0x7E) ∧ decode ⟨.func, [4, 0, 0, 0, 0]⟩ = .ok (.rlePlan 4) := by decide

/-- `WireByteRunsDeframeStep` -/
theorem witness_WireByteRunsDeframeStep :
    ({ State.reset with inbox := [⟨.wire, [0x24]⟩] } : State).inbox = ⟨.wire, [0x24]⟩ :: [] := by decide

/-- `StartOfFrameOpensABody`: the smallest legal `MAX_FRAME`. -/
theorem witness_StartOfFrameOpensABody : (⟨4, 0, 0⟩ : Config).WF := by decide

/-- `RunCountStoresTheCopies`: the ends of the range, with and without a preceding byte. -/
theorem witness_RunCountStoresTheCopies :
    IsRunCount 0x20 ∧ IsRunCount 0x7E ∧ ¬ IsRunCount 0x1F ∧ ¬ IsRunCount 0x7F ∧ (withRx aRle).rx.rxLast = some 0x61 ∧
    State.reset.rx.rxLast = none := by decide

/-- `FirstChecksumPositionIsConsumed`, `SecondChecksumPositionEndsTheFrame`: the ends of the digit ranges and their
neighbours. -/
theorem witness_checksum_positions :
    (∀ b ∈ ([0x30, 0x39, 0x41, 0x46, 0x61, 0x66] : List Byte), IsHexDigit b) ∧
    (∀ b ∈ ([0x2F, 0x3A, 0x40, 0x47, 0x60, 0x67] : List Byte), ¬ IsHexDigit b) := by decide

/-- `BadFrameEndsInItsFirstCause`: in a body, and at the last byte. -/
theorem witness_BadFrameEndsInItsFirstCause :
    (withRx badBody).rx.rxBad = .bad .rawDollar ∧ (withRx badBody).rx.rxState ≠ .hunt ∧
    (nextOf (.deframeStep 0x03) (withRx badBody)).isSome = true ∧
    after (.deframeStep 0x30) (withRx { badBody with rxState := .ck2 }) (·.rx.evQ) = some [.reject .rawDollar] := by decide

/-- `OperationsBetweenPushedBytesDoNotMatter`: a chunk of two bytes with operations of the host and the transmit side behind
it, which may fall between the bytes; and a `NEXT` behind such ones. -/
theorem witness_OperationsBetweenPushedBytesDoNotMatter :
    (∀ i ∈ [Instr.push [0x24, 0x61], .hStatus, .txPop, .push []], i.WF ∧ (isPush i = true ∨ sparesDeframer i = true)) ∧
    ({ pending with inbox := [Instr.push [0x24, 0x61], .hStatus, .txPop, .push []].map encode } : State).inbox =
      [Instr.push [0x24, 0x61], .hStatus, .txPop, .push []].map encode ∧
    ({ pending with inbox := [Instr.push [0x24, 0x61], .hStatus, .next, .txPop].map encode } : State).inbox =
      [Instr.push [0x24, 0x61], .hStatus].map encode ++ List.replicate (0 + 1) (encode .next) ++ [encode .txPop] := by decide

/-- `ChunkingDoesNotMatter`: one chunk and the same bytes as two, in states that differ in the session. -/
theorem witness_ChunkingDoesNotMatter :
    State.reset.cfg = down.cfg ∧ State.reset.rx = down.rx ∧
    ([[0x24, 0x61]] : List (List Byte)).flatten = ([[0x24], [], [0x61]] : List (List Byte)).flatten ∧
    ({ State.reset with inbox := [encode (.push [0x24, 0x61])] } : State).inbox =
      ([[0x24, 0x61]] : List (List Byte)).map (fun c => encode (.push c)) := by decide

/-- `ChecksumFieldIsSensitive`: `$OK#9a`, and `$<#3C` of V42 with the flip that lands on 0x03. -/
theorem witness_ChecksumFieldIsSensitive :
    (withRx okCk1).rx.rxState = .ck1 ∧ (withRx okCk1).rx.rxBad = .ok ∧
    (withRx okCk1).rx.rxWireLen + 2 ≤ (withRx okCk1).cfg.maxFrame ∧ hexval 0x39 = some 9 ∧ hexval 0x61 = some 10 ∧
    16 * (9 : Nibble).toNat + (10 : Nibble).toNat = (withRx okCk1).rx.rxSum.toNat ∧
    hexval 0x33 = some 3 ∧ hexval 0x43 = some 12 ∧ flipBit 0x43 6 = 0x03 ∧
    16 * (3 : Nibble).toNat + (12 : Nibble).toNat =
      (withRx ⟨.ck1, 0x3C, [0x3C], some 0x3C, .ok, 3, 0, []⟩).rx.rxSum.toNat := by decide

/-- `NextTakesTheOldestEvent`, and the last part of `ChunkingDoesNotMatter`. -/
theorem witness_NextTakesTheOldestEvent :
    State.reset.rx.evQ = [] ∧ (withRx { okBody with evQ := [.ack] }).rx.evQ = .ack :: [] := by decide

/-- The four session states that `AckSettlesTheStoredFrame`, `NackAndTimeoutWithNothingOutstanding`, `ClosingClearsAndKeeps`,
`SetNoackSwitchesOrArms` and `SetRleWritesTheControlBit` distinguish. -/
theorem witness_session_states :
    State.reset.sess.sessState = .idle ∧ pending.sess.sessState = .ackPending ∧ inNoAck.sess.sessState = .noAck ∧
    down.sess.sessState = .closed := by decide

/-- `NackAndTimeoutRetransmitOrClose`: one retransmission left, and none left. -/
theorem witness_NackAndTimeoutRetransmitOrClose :
    pending.sess.sessState = .ackPending ∧ pending.sess.txStored = some okFrame ∧
    2 < pending.cfg.maxRetries ∧ pending.sess.retryCount < pending.cfg.maxRetries ∧
    spent.sess.sessState = .ackPending ∧ spent.sess.txStored = some okFrame ∧
    spent.cfg.maxRetries ≤ spent.sess.retryCount := by decide

/-- `RetryWithNothingStoredAppendsFreeBytes` -/
theorem witness_RetryWithNothingStoredAppendsFreeBytes :
    State.reset.sess.txStored = none ∧ State.reset.sess.retryCount < State.reset.cfg.maxRetries := by decide

/-- `SendAppendsAndStoresTheFrame`: frames of 8 and 9 bytes against `MAX_FRAME = 8`. -/
theorem witness_SendAppendsAndStoresTheFrame :
    tiny.sess.sessState = .idle ∧ (encodeFrame [0x61, 0x62, 0x63, 0x64] tiny.sess.txRleEn).length ≤ tiny.cfg.maxFrame ∧
    tiny.cfg.maxFrame < (encodeFrame [0x61, 0x62, 0x63, 0x64, 0x65] tiny.sess.txRleEn).length ∧
    inNoAck.sess.sessState = .noAck ∧ (encodeFrame [] inNoAck.sess.txRleEn).length ≤ inNoAck.cfg.maxFrame := by decide

/-- `RecvAndPopTakeTheOldest` -/
theorem witness_RecvAndPopTakeTheOldest :
    State.reset.hostQ = [] ∧ ({ State.reset with hostQ := [.interrupt] } : State).hostQ = .interrupt :: [] ∧
    State.reset.txFifo = [] ∧ pending.txFifo = 0x24 :: okFrame.tail := by decide

/-- `RefusalsChangeNothing` -/
theorem witness_RefusalsChangeNothing :
    after (.hSend [0x67]) pending (·.result) = some (.status .busy) ∧ Status.busy ≠ .ok := by decide

/-- `ReceivedByteIsStepThenReaction`: closed; open, with a byte that emits and one that does not. -/
theorem witness_ReceivedByteIsStepThenReaction :
    down.sess.sessState = .closed ∧ pending.sess.sessState ≠ .closed ∧ pending.rx.evQ = [] ∧
    after (.deframeStep 0x2B) pending (·.rx.evQ) = some [.ack] ∧ after (.deframeStep 0x24) pending (·.rx.evQ) = some [] := by
  decide

/-- `RunPlanCoversAtMostTheRun`, `EncodeBodyFollowsTheLoop`: a run of 4, a shorter one, and what follows a run. -/
theorem witness_runs :
    4 ≤ 4 ∧ 4 ≤ 99 ∧ ((0x61 : Byte) ≠ 0x23 ∧ (0x61 : Byte) ≠ 0x24 ∧ (0x61 : Byte) ≠ 0x2A ∧ (0x61 : Byte) ≠ 0x7D) ∧
    ([0x62] : List Byte).head? ≠ some 0x61 ∧ ([] : List Byte).head? ≠ some 0x61 ∧ (1 ≤ 3 ∧ 3 < 4) := by decide

/-- `EscapeEncodesTheFourSpecialBytes`: the neighbours 0x22 and 0x25 of the first two special bytes are not special. -/
theorem witness_EscapeEncodesTheFourSpecialBytes :
    isSpecial 0x23 = true ∧ isSpecial 0x24 = true ∧ isSpecial 0x2A = true ∧ isSpecial 0x7D = true ∧
    (∀ b ∈ ([0x22, 0x25, 0x03] : List Byte), b ≠ 0x23 ∧ b ≠ 0x24 ∧ b ≠ 0x2A ∧ b ≠ 0x7D) := by decide

/-- `EncodedLengthIsBounded`: three bytes against `MAX_FRAME = 10`. -/
theorem witness_EncodedLengthIsBounded : 2 * ([1, 2, 3] : List Byte).length + 4 ≤ (⟨10, 6, 3⟩ : Config).maxFrame := by decide

/-- `DecodeFrameReportsTheFirstEvent`: a frame with a byte after it, and a signal. -/
theorem witness_DecodeFrameReportsTheFirstEvent :
    okFrame ++ [0x2B] = [0x24, 0x4F, 0x4B, 0x23, 0x39] ++ 0x61 :: [0x2B] ∧
    (deframeAll Config.documented [0x24, 0x4F, 0x4B, 0x23, 0x39] Deframer.reset).evQ = [] ∧
    (deframeAll Config.documented ([0x24, 0x4F, 0x4B, 0x23, 0x39] ++ [0x61]) Deframer.reset).evQ =
      [.packet [0x4F, 0x4B]] ∧
    (deframeAll Config.documented ([] ++ [0x2B]) Deframer.reset).evQ = [.ack] := by decide +kernel

/-- `EncodeThenDecodeIsTheIdentity`: a payload that fills `MAX_FRAME` and `MAX_PAYLOAD` exactly (V36). -/
theorem witness_EncodeThenDecodeIsTheIdentity :
    ValidPayload tiny.cfg true [0x61, 0x62, 0x63, 0x64] ∧ tiny.rx = Deframer.reset := by unfold ValidPayload; decide

/-- `EveryStepKeepsRegisterAndSessionInvariants`: a timeout at the retry limit. -/
theorem witness_EveryStepKeepsRegisterAndSessionInvariants :
    RegisterInv spent.cfg spent.rx ∧ SessionInv spent.cfg spent.sess ∧
    ∃ t, step { spent with inbox := [⟨.host, [0x4]⟩] } = .next t :=
  ⟨spent_block.registers, spent_block.session, _, rfl⟩

/-- `BlockOperationsKeepTheBlockInvariant`: a received `-` at the retry limit. -/
theorem witness_BlockOperationsKeepTheBlockInvariant :
    BlockInv spent ∧ decode (fetchWord spent.rx.rxState ⟨.rx, [0x2D]⟩) = .ok (.rxByte 0x2D) ∧
    isBlockOp (.rxByte 0x2D) = true ∧ ∃ t, step { spent with inbox := [⟨.rx, [0x2D]⟩] } = .next t :=
  ⟨spent_block, rfl, rfl, _, rfl⟩

/-- `NoAckModeIsPermanent` -/
theorem witness_NoAckModeIsPermanent :
    BlockInv inNoAck ∧ inNoAck.sess.sessState = .noAck ∧ isBlockOp (.hSend [0x67]) = true ∧
    ∃ t, exec (.hSend [0x67]) inNoAck = .next t := ⟨inNoAck_block, rfl, rfl, _, rfl⟩

/-- `PeerBytesHaveLimitedEffect`: the byte that closes the session, a byte in a closed session, and one in no-acknowledgment
mode. -/
theorem witness_PeerBytesHaveLimitedEffect :
    BlockInv spent ∧ after (.rxByte 0x2D) spent (·.sess.sessState) = some .closed ∧ BlockInv down ∧
    after (.rxByte 0x2D) down (·.sess.fatalCause) = some (some .linkDown) ∧ BlockInv inNoAck ∧
    after (.rxByte 0x2B) inNoAck (·.sess.sessState) = some .noAck :=
  ⟨spent_block, by decide, down_block, by decide, inNoAck_block, by decide⟩

/-- `StoredFrameIsASnapshot`, `TransmitUnitsAreWhole`: a send, a retransmission, a settlement, a byte taken. -/
theorem witness_whole_block_rules :
    BlockInv State.reset ∧ isBlockOp (.hSend [0x4F, 0x4B]) = true ∧ (nextOf (.hSend [0x4F, 0x4B]) State.reset).isSome = true ∧
    BlockInv pending ∧ isBlockOp .hTimeout = true ∧ (nextOf .hTimeout pending).isSome = true ∧
    isBlockOp (.rxByte 0x2B) = true ∧ (nextOf (.rxByte 0x2B) pending).isSome = true ∧ isBlockOp .txPop = true ∧
    (nextOf .txPop pending).isSome = true :=
  ⟨⟨RegisterInv.reset _, SessionInv.reset _, by decide, by decide, by decide, by decide, by decide, fun f hf => by cases hf⟩,
    rfl, by decide,
    pending_block, rfl, by decide, rfl, by decide, rfl, by decide⟩

/-- `RetryLimitClosesTheSession`: as many negative results as `MAX_RETRIES`, and one more. -/
theorem witness_RetryLimitClosesTheSession :
    (∀ i ∈ [Instr.evNack, .hTimeout, .evNack], i = .evNack ∨ i = .hTimeout) ∧
    (∀ i ∈ [Instr.evNack, .hTimeout, .evNack, .hTimeout], i = .evNack ∨ i = .hTimeout) ∧
    pending.sess.sessState = .ackPending ∧ pending.sess.txStored = some okFrame ∧ pending.sess.retryCount = 0 ∧
    [Instr.evNack, .hTimeout, .evNack].length ≤ pending.cfg.maxRetries ∧
    [Instr.evNack, .hTimeout, .evNack, .hTimeout].length = pending.cfg.maxRetries + 1 := by decide

end Sys2Proof.Tests
end

section
/-! SUPPORT. The step and the parameters (00_scope.md R8, R10): what each operation over the session and the ports can do,
that none of them changes the parameters, and the statements about both. -/

namespace Sys2Proof.Machine

variable {s t : State}

/-! ### What the operations can do -/

/-- What `H_SET_NOACK` can do: refuse, switch at once, arm, or nothing. -/
theorem hSetNoack_cases (s : State) :
    (s.sess.sessState = .closed ∧ hSetNoack s = answer (.status .closed) s) ∨
    (s.sess.sessState = .idle ∧
      hSetNoack s = answer (.status .ok) { s with sess := { s.sess with sessState := .noAck } }) ∨
    (s.sess.sessState = .ackPending ∧
      hSetNoack s = answer (.status .ok) { s with sess := { s.sess with noackArmed := true } }) ∨
    (s.sess.sessState = .noAck ∧ hSetNoack s = answer (.status .ok) s) := by
  cases h : s.sess.sessState <;> simp [hSetNoack, h]

/-- What `H_TIMEOUT` can do: refuse, retransmit or close as `retry_or_fail` does, or nothing. -/
theorem hTimeout_cases (s : State) :
    (s.sess.sessState = .closed ∧ hTimeout s = answer (.status .closed) s) ∨
    (s.sess.sessState = .ackPending ∧ hTimeout s = answer (.status .ok) (retryOrFail s)) ∨
    ((s.sess.sessState = .idle ∨ s.sess.sessState = .noAck) ∧ hTimeout s = answer (.status .ok) s) := by
  cases h : s.sess.sessState <;> simp [hTimeout, h]

/-- What `H_LINK_DOWN` can do: enter the fatal state, or nothing when the session is in it. -/
theorem hLinkDown_cases (s : State) :
    (s.sess.sessState = .closed ∧ hLinkDown s = answer (.status .ok) s) ∨
    (s.sess.sessState ≠ .closed ∧ hLinkDown s = answer (.status .ok) (enterClosed .linkDown s)) := by
  cases h : s.sess.sessState <;> simp [hLinkDown, h]

/-- What `H_SET_RLE` can do: refuse, or write the control bit. -/
theorem hSetRle_cases (v : Bool) (s : State) :
    (s.sess.sessState = .closed ∧ hSetRle v s = answer (.status .closed) s) ∨
    (s.sess.sessState ≠ .closed ∧
      hSetRle v s = answer (.status .ok) { s with sess := { s.sess with txRleEn := v } }) := by
  cases h : s.sess.sessState <;> simp [hSetRle, h]

/-- What `RX_BYTE` can do: discard the byte, or step the deframer and give its events to the session. -/
theorem rxByte_cases (b : Byte) (s : State) :
    (s.sess.sessState = .closed ∧ rxByte b s = s) ∨
    (s.sess.sessState ≠ .closed ∧ rxByte b s = drain (receive b s).rx.evQ.length (receive b s)) := by
  cases h : s.sess.sessState <;> simp [rxByte, h]

/-! ### The parameters (R8) -/

@[simp] theorem evAck_cfg (s : State) : (evAck s).cfg = s.cfg := sessionEvent_cfg .ack s
@[simp] theorem evNack_cfg (s : State) : (evNack s).cfg = s.cfg := sessionEvent_cfg .nack s
@[simp] theorem evPacket_cfg (p : List Byte) (s : State) : (evPacket p s).cfg = s.cfg := sessionEvent_cfg (.packet p) s
@[simp] theorem evReject_cfg (c : Cause) (s : State) : (evReject c s).cfg = s.cfg := sessionEvent_cfg (.reject c) s
@[simp] theorem evInterrupt_cfg (s : State) : (evInterrupt s).cfg = s.cfg := rfl
@[simp] theorem hRecv_cfg (s : State) : (hRecv s).cfg = s.cfg := rfl
@[simp] theorem popTx_cfg (s : State) : (popTx s).cfg = s.cfg := rfl
@[simp] theorem popEvent_cfg (s : State) : (popEvent s).cfg = s.cfg := rfl
@[simp] theorem receive_cfg (b : Byte) (s : State) : (receive b s).cfg = s.cfg := rfl

@[simp] theorem hSend_cfg (p : List Byte) (s : State) : (hSend p s).cfg = s.cfg := by
  rcases hSend_cases p s with ⟨-, h⟩ | ⟨-, h⟩ | ⟨-, -, h⟩ | ⟨-, -, h⟩ | ⟨-, -, h⟩ <;> simp [h]

@[simp] theorem hSetNoack_cfg (s : State) : (hSetNoack s).cfg = s.cfg := by
  rcases hSetNoack_cases s with ⟨-, h⟩ | ⟨-, h⟩ | ⟨-, h⟩ | ⟨-, h⟩ <;> simp [h]

@[simp] theorem hTimeout_cfg (s : State) : (hTimeout s).cfg = s.cfg := by
  rcases hTimeout_cases s with ⟨-, h⟩ | ⟨-, h⟩ | ⟨-, h⟩ <;> simp [h]

@[simp] theorem hLinkDown_cfg (s : State) : (hLinkDown s).cfg = s.cfg := by
  rcases hLinkDown_cases s with ⟨-, h⟩ | ⟨-, h⟩ <;> simp [h]

@[simp] theorem hSetRle_cfg (v : Bool) (s : State) : (hSetRle v s).cfg = s.cfg := by
  rcases hSetRle_cases v s with ⟨-, h⟩ | ⟨-, h⟩ <;> simp [h]

/-- The loop of R181 keeps the parameters, as each reaction does. -/
@[simp] theorem drain_cfg (n : Nat) (s : State) : (drain n s).cfg = s.cfg := by
  induction n generalizing s with
  | zero => rfl
  | succ n ih =>
    unfold drain
    split
    · rfl
    · simp [ih]

@[simp] theorem rxByte_cfg (b : Byte) (s : State) : (rxByte b s).cfg = s.cfg := by
  rcases rxByte_cases b s with ⟨-, h⟩ | ⟨-, h⟩ <;> simp [h]

@[simp] theorem pushByte_cfg (chunk : List Byte) (s : State) : (pushByte chunk s).cfg = s.cfg := by
  cases chunk <;> simp [pushByte]

/-- An answer whose state has the parameters of `s` is a next state with the parameters of `s`. -/
theorem cfg_of_next {u : State} (hu : u.cfg = s.cfg) (h : (.next u : Answer) = .next t) : t.cfg = s.cfg := by
  injection h with h
  rw [← h, hu]

/-- Answering a result on top of such a state makes no difference. -/
theorem cfg_of_next_answer {u : State} {r : Result} (hu : u.cfg = s.cfg) (h : (.next (answer r u) : Answer) = .next t) :
    t.cfg = s.cfg :=
  cfg_of_next ((answer_cfg r u).trans hu) h

/-- Every operation keeps the parameters: the deframer's rules and helpers run through `onRx`, the Codec's functions only
answer, and the operations over the session and the ports keep them each by its own lemma. -/
theorem exec_cfg (i : Instr) (h : exec i s = .next t) : t.cfg = s.cfg := by
  cases i with
  | huntStart | huntAck | huntNack | huntInt | huntNoise | escLit | inframeInt | bodyEnd | bodyEscMark | bodyRleMark
  | bodyRawDollar | bodyData | rleCount | rleBadcount | ck1Digit | ck1Baddigit | ck2Digit | ck2Baddigit
  | deframeStep | countWire | markBad | store | clearFrame => exact cfg_of_next (onRx_cfg _ _) h
  | hStatus | hReserved7 | hReserved8F
  | cksum | hexenc | hexdec | escEnc | rlePlan | encodeBody | encodeFrame | decodeFrame =>
    exact cfg_of_next_answer rfl h
  | hSend p => exact cfg_of_next (hSend_cfg p s) h
  | hRecv => exact cfg_of_next (hRecv_cfg s) h
  | hSetNoack => exact cfg_of_next (hSetNoack_cfg s) h
  | hTimeout => exact cfg_of_next (hTimeout_cfg s) h
  | hLinkDown => exact cfg_of_next (hLinkDown_cfg s) h
  | hSetRle v => exact cfg_of_next (hSetRle_cfg v s) h
  | rxByte b => exact cfg_of_next_answer (rxByte_cfg b s) h
  | txPop => exact cfg_of_next (popTx_cfg s) h
  | reset => exact cfg_of_next (resetBlock_cfg s) h
  | evAck => exact cfg_of_next_answer (evAck_cfg s) h
  | evNack => exact cfg_of_next_answer (evNack_cfg s) h
  | evPacket p => exact cfg_of_next_answer (evPacket_cfg p s) h
  | evReject c => exact cfg_of_next_answer (evReject_cfg c s) h
  | evInterrupt => exact cfg_of_next_answer (evInterrupt_cfg s) h
  | push chunk => exact cfg_of_next (pushByte_cfg chunk s) h
  | next => exact cfg_of_next (popEvent_cfg s) h
  | sessionEvent e => exact cfg_of_next_answer (sessionEvent_cfg e s) h
  | retryOrFail => exact cfg_of_next_answer (retryOrFail_cfg s) h
  | enterClosed c => exact cfg_of_next_answer (enterClosed_cfg c s) h

/-! ### Steps that run no operation -/

/-- With no operation waiting a step answers the same state. -/
theorem step_of_inbox_nil (h : s.inbox = []) : step s = .next s := by
  simp [step, fetch, h]

/-- A step is refused with the decoder's reason when the oldest event is no operation. -/
theorem step_of_decode_error {e : PortEvent} {rest : List PortEvent} {r : DecodeError} (h : s.inbox = e :: rest)
    (hd : decode (fetchWord s.rx.rxState e) = .error r) : step s = .refused (.notAnOperation r) := by
  simp [step, fetch, h, hd]

end Sys2Proof.Machine

namespace Sys2Proof.Proofs

open Sys2Proof.Machine

/-- Settles O2: the step with a decodable operation waiting. -/
theorem stepRunsTheDecodedOperation : Obligations.StepRunsTheDecodedOperation :=
  fun _ _ _ _ hin hd => step_of_inbox hin hd

/-- Settles O3: the two steps that run no operation. -/
theorem stepWithoutAnOperation : Obligations.StepWithoutAnOperation :=
  ⟨fun _ hin => step_of_inbox_nil hin, fun _ _ _ _ hin hd => step_of_decode_error hin hd⟩

/-- Settles O5, by the parameters' lemma of each operation (`exec_cfg`). -/
theorem parametersAreConstant : Obligations.ParametersAreConstant :=
  fun i _ _ h => exec_cfg i h

end Sys2Proof.Proofs
end

section
/-! SUPPORT. The invariants of the frame registers and of the session registers (10_state.md R43 (3) to (8), R26, R33): every
operation keeps them, whatever state it runs in. -/

namespace Sys2Proof.Machine

variable {s t : State}

/-- The two invariants that every operation keeps, as one property of the state. -/
structure StateInv (s : State) : Prop where
  registers : RegisterInv s.cfg s.rx
  session : SessionInv s.cfg s.sess

/-- What holds of the state an operation is defined to answer holds of the next state. -/
theorem of_next {P : State → Prop} {u : State} (hu : P u) (h : (.next u : Answer) = .next t) : P t := by
  injection h with h
  exact h ▸ hu

/-! ### What the session's invariant says of the open states -/

/-- A session that is not closed has no fatal cause (R43 (8)). -/
theorem SessionInv.fatalCause_eq_none {cfg : Config} {m : Session} (h : SessionInv cfg m) (ho : m.sessState ≠ .closed) :
    m.fatalCause = none :=
  not_not.mp (mt h.fatal_iff_closed.mp ho)

/-- Outside `ACK_PENDING` no frame is stored (R43 (6)). -/
theorem SessionInv.txStored_eq_none {cfg : Config} {m : Session} (h : SessionInv cfg m)
    (hp : m.sessState ≠ .ackPending) : m.txStored = none :=
  not_not.mp (mt h.stored_iff_pending.mp hp)

/-- Outside `ACK_PENDING` nothing is armed (R43 (7)). -/
theorem SessionInv.noackArmed_eq_false {cfg : Config} {m : Session} (h : SessionInv cfg m)
    (hp : m.sessState ≠ .ackPending) : m.noackArmed = false :=
  Bool.eq_false_iff.mpr (mt h.armed_pending hp)

/-! ### The session registers after the host operations that write them -/

theorem SessionInv.hSetNoack (h : SessionInv s.cfg s.sess) : SessionInv s.cfg (hSetNoack s).sess := by
  rcases hSetNoack_cases s with ⟨-, he⟩ | ⟨hi, he⟩ | ⟨hp, he⟩ | ⟨-, he⟩ <;> rw [he]
  · exact h
  · have hst := h.txStored_eq_none (by simp [hi])
    have harm := h.noackArmed_eq_false (by simp [hi])
    have hfat := h.fatalCause_eq_none (by simp [hi])
    exact ⟨by simp [hst], by simp [harm], by simp [hfat], h.retry_bound, h.stored_shape⟩
  · exact ⟨h.stored_iff_pending, fun _ => hp, h.fatal_iff_closed, h.retry_bound, h.stored_shape⟩
  · exact h

theorem SessionInv.hTimeout (h : SessionInv s.cfg s.sess) : SessionInv s.cfg (hTimeout s).sess := by
  rcases hTimeout_cases s with ⟨-, he⟩ | ⟨-, he⟩ | ⟨-, he⟩ <;> rw [he]
  · exact h
  · exact h.retryOrFail
  · exact h

theorem SessionInv.hLinkDown (h : SessionInv s.cfg s.sess) : SessionInv s.cfg (hLinkDown s).sess := by
  rcases hLinkDown_cases s with ⟨-, he⟩ | ⟨-, he⟩ <;> rw [he]
  · exact h
  · exact h.enterClosed _

theorem SessionInv.hSetRle (v : Bool) (h : SessionInv s.cfg s.sess) : SessionInv s.cfg (hSetRle v s).sess := by
  rcases hSetRle_cases v s with ⟨-, he⟩ | ⟨-, he⟩ <;> rw [he]
  · exact h
  · exact ⟨h.stored_iff_pending, h.armed_pending, h.fatal_iff_closed, h.retry_bound, h.stored_shape⟩

/-! ### The deframer group after the operations over the session -/

@[simp] theorem hSend_rx (p : List Byte) (s : State) : (hSend p s).rx = s.rx := by
  rcases hSend_cases p s with ⟨-, h⟩ | ⟨-, h⟩ | ⟨-, -, h⟩ | ⟨-, -, h⟩ | ⟨-, -, h⟩ <;> simp [h]

@[simp] theorem hSetNoack_rx (s : State) : (hSetNoack s).rx = s.rx := by
  rcases hSetNoack_cases s with ⟨-, h⟩ | ⟨-, h⟩ | ⟨-, h⟩ | ⟨-, h⟩ <;> simp [h]

@[simp] theorem hSetRle_rx (v : Bool) (s : State) : (hSetRle v s).rx = s.rx := by
  rcases hSetRle_cases v s with ⟨-, h⟩ | ⟨-, h⟩ <;> simp [h]

/-- `retry_or_fail` leaves the deframer as it is below the limit, and in its reset state at it. -/
theorem retryOrFail_rx (s : State) : (retryOrFail s).rx = s.rx ∨ (retryOrFail s).rx = Deframer.reset := by
  rcases retryOrFail_cases s with ⟨-, h⟩ | ⟨-, h⟩
  · right; simp [h]
  · left; simp [h]

/-- `H_TIMEOUT` leaves the deframer as it is, unless it closes the session. -/
theorem hTimeout_rx (s : State) : (hTimeout s).rx = s.rx ∨ (hTimeout s).rx = Deframer.reset := by
  rcases hTimeout_cases s with ⟨-, h⟩ | ⟨-, h⟩ | ⟨-, h⟩ <;> rw [h]
  · exact .inl rfl
  · exact retryOrFail_rx s
  · exact .inl rfl

/-- `H_LINK_DOWN` leaves the deframer as it is, unless it closes the session. -/
theorem hLinkDown_rx (s : State) : (hLinkDown s).rx = s.rx ∨ (hLinkDown s).rx = Deframer.reset := by
  rcases hLinkDown_cases s with ⟨-, h⟩ | ⟨-, h⟩ <;> simp [h]

/-! ### Every operation keeps both invariants -/

namespace StateInv

/-- An operation that leaves the deframer as it is, or resets it, keeps the invariants when it keeps the session's. -/
theorem of_session (h : StateInv s) (hc : t.cfg = s.cfg) (hr : t.rx = s.rx ∨ t.rx = Deframer.reset)
    (hs : SessionInv s.cfg t.sess) : StateInv t := by
  refine ⟨?_, hc ▸ hs⟩
  rcases hr with hr | hr <;> rw [hr, hc]
  · exact h.registers
  · exact RegisterInv.reset _

theorem answer (r : Result) (h : StateInv s) : StateInv (answer r s) := ⟨h.registers, h.session⟩

theorem onRx {f : Config → Deframer → Deframer} (h : StateInv s) (hf : RegisterInv s.cfg (f s.cfg s.rx)) :
    StateInv (onRx f s) := ⟨hf, h.session⟩

theorem sessionEvent (e : Event) (h : StateInv s) : StateInv (sessionEvent e s) :=
  h.of_session (sessionEvent_cfg e s) ((sessionEvent_rx e s).imp_right And.left) (h.session.sessionEvent e)

theorem retryOrFail (h : StateInv s) : StateInv (retryOrFail s) :=
  h.of_session (retryOrFail_cfg s) (retryOrFail_rx s) h.session.retryOrFail

theorem enterClosed (c : CloseCause) (h : StateInv s) : StateInv (enterClosed c s) :=
  h.of_session rfl (.inr rfl) (h.session.enterClosed c)

theorem hSend (p : List Byte) (h : StateInv s) : StateInv (hSend p s) :=
  h.of_session (hSend_cfg p s) (.inl (hSend_rx p s)) (h.session.hSend p)

theorem hSetNoack (h : StateInv s) : StateInv (hSetNoack s) :=
  h.of_session (hSetNoack_cfg s) (.inl (hSetNoack_rx s)) h.session.hSetNoack

theorem hTimeout (h : StateInv s) : StateInv (hTimeout s) :=
  h.of_session (hTimeout_cfg s) (hTimeout_rx s) h.session.hTimeout

theorem hLinkDown (h : StateInv s) : StateInv (hLinkDown s) :=
  h.of_session (hLinkDown_cfg s) (hLinkDown_rx s) h.session.hLinkDown

theorem hSetRle (v : Bool) (h : StateInv s) : StateInv (hSetRle v s) :=
  h.of_session (hSetRle_cfg v s) (.inl (hSetRle_rx v s)) (h.session.hSetRle v)

theorem resetBlock (s : State) : StateInv (resetBlock s) := ⟨RegisterInv.reset _, SessionInv.reset _⟩

theorem hRecv (h : StateInv s) : StateInv (hRecv s) := ⟨h.registers, h.session⟩

theorem popTx (h : StateInv s) : StateInv (popTx s) := ⟨h.registers, h.session⟩

theorem popEvent (h : StateInv s) : StateInv (popEvent s) := ⟨h.registers.of_eq rfl rfl rfl, h.session⟩

theorem rxByte (b : Byte) (h : StateInv s) : StateInv (rxByte b s) := by
  rcases rxByte_cases b s with ⟨-, he⟩ | ⟨-, he⟩ <;> rw [he]
  · exact h
  · obtain ⟨hcfg, hreg, hsess⟩ := drain_inv (s := receive b s) (receive b s).rx.evQ.length
      (h.registers.deframeStep b) h.session
    exact ⟨hcfg ▸ hreg, hcfg ▸ hsess⟩

theorem pushByte (chunk : List Byte) (h : StateInv s) : StateInv (pushByte chunk s) := by
  cases chunk with
  | nil => exact h.answer _
  | cons b rest =>
    have h1 := h.onRx (f := fun cfg => Machine.deframeStep cfg b) (h.registers.deframeStep b)
    exact h1.of_session (pushRest_cfg _ _) (.inl (pushRest_rx _ _)) (by simpa [Machine.pushByte] using h1.session)

/-- Every operation of the 53 keeps the invariants of the frame registers and of the session registers: the deframer's
rules by `RegisterInv.rules`, the Codec's functions because they only answer, the rest each by its own lemma. -/
theorem exec (i : Instr) (h : StateInv s) (he : exec i s = .next t) : StateInv t := by
  have hemit (e : Event) : RegisterInv s.cfg (emit e s.rx) := h.registers.emit e
  cases i with
  | huntAck | huntNack | huntInt | inframeInt => exact of_next (h.onRx (hemit _)) he
  | huntNoise => exact of_next (h.onRx h.registers) he
  | huntStart =>
    obtain ⟨hr, -⟩ := h.registers.rules 0
    exact of_next (h.onRx hr) he
  | bodyData b =>
    obtain ⟨-, hr, -⟩ := h.registers.rules b
    exact of_next (h.onRx hr) he
  | bodyEscMark =>
    obtain ⟨-, -, hr, -⟩ := h.registers.rules 0
    exact of_next (h.onRx hr) he
  | escLit b =>
    obtain ⟨-, -, -, hr, -⟩ := h.registers.rules b
    exact of_next (h.onRx hr) he
  | bodyRleMark =>
    obtain ⟨-, -, -, -, hr, -⟩ := h.registers.rules 0
    exact of_next (h.onRx hr) he
  | rleCount b =>
    obtain ⟨-, -, -, -, -, hr, -⟩ := h.registers.rules b
    exact of_next (h.onRx hr) he
  | rleBadcount b =>
    obtain ⟨-, -, -, -, -, -, hr, -⟩ := h.registers.rules b
    exact of_next (h.onRx hr) he
  | bodyRawDollar =>
    obtain ⟨-, -, -, -, -, -, -, hr, -⟩ := h.registers.rules 0
    exact of_next (h.onRx hr) he
  | bodyEnd =>
    obtain ⟨-, -, -, -, -, -, -, -, hr, -⟩ := h.registers.rules 0
    exact of_next (h.onRx hr) he
  | ck1Digit b | ck1Baddigit b =>
    obtain ⟨-, -, -, -, -, -, -, -, -, hr, -⟩ := h.registers.rules b
    exact of_next (h.onRx hr) he
  | ck2Digit b | ck2Baddigit b =>
    obtain ⟨-, -, -, -, -, -, -, -, -, -, hr⟩ := h.registers.rules b
    exact of_next (h.onRx hr) he
  | deframeStep b => exact of_next (h.onRx (h.registers.deframeStep b)) he
  | countWire => exact of_next (h.onRx h.registers.countWire) he
  | markBad c => exact of_next (h.onRx (h.registers.markBad c)) he
  | store v => exact of_next (h.onRx (h.registers.store v)) he
  | clearFrame => exact of_next (h.onRx (RegisterInv.clearFrame _ _)) he
  | hStatus | hReserved7 | hReserved8F
  | cksum | hexenc | hexdec | escEnc | rlePlan | encodeBody | encodeFrame | decodeFrame =>
    exact of_next (h.answer _) he
  | hSend p => exact of_next (h.hSend p) he
  | hRecv => exact of_next h.hRecv he
  | txPop => exact of_next h.popTx he
  | hSetNoack => exact of_next h.hSetNoack he
  | hTimeout => exact of_next h.hTimeout he
  | hLinkDown => exact of_next h.hLinkDown he
  | hSetRle v => exact of_next (h.hSetRle v) he
  | rxByte b => exact of_next ((h.rxByte b).answer _) he
  | reset => exact of_next (resetBlock s) he
  | evAck => exact of_next ((h.sessionEvent .ack).answer _) he
  | evNack => exact of_next ((h.sessionEvent .nack).answer _) he
  | evPacket p => exact of_next ((h.sessionEvent (.packet p)).answer _) he
  | evReject c => exact of_next ((h.sessionEvent (.reject c)).answer _) he
  | evInterrupt => exact of_next ((h.sessionEvent .interrupt).answer _) he
  | sessionEvent e => exact of_next ((h.sessionEvent e).answer _) he
  | push chunk => exact of_next (h.pushByte chunk) he
  | next => exact of_next h.popEvent he
  | retryOrFail => exact of_next (h.retryOrFail.answer _) he
  | enterClosed c => exact of_next ((h.enterClosed c).answer _) he

/-- A step runs the oldest operation, or nothing at all, and is refused when the event is no operation. -/
theorem step (h : StateInv s) (hst : step s = .next t) : StateInv t := by
  cases hin : s.inbox with
  | nil =>
    rw [step_of_inbox_nil hin] at hst
    injection hst with hst
    exact hst ▸ h
  | cons e rest =>
    cases hd : decode (fetchWord s.rx.rxState e) with
    | error r =>
      rw [step_of_decode_error hin hd] at hst
      cases hst
    | ok i =>
      rw [step_of_inbox hin hd] at hst
      have hrest : StateInv { s with inbox := rest } := ⟨h.registers, h.session⟩
      exact hrest.exec i hst

end StateInv

end Sys2Proof.Machine
end

section
/-! SUPPORT. The Codec against the deframer (40_codec.md R120): the encoder's output turn by turn as one induction, and the
deframer over an encoded body, a checksum field and a whole frame. -/

namespace Sys2Proof.Machine

variable {cfg : Config} {d : Deframer}

/-! ### The encoder's turns -/

/-- The first `k` bytes of a run are copies of its byte, and the bytes after them are what the encoder goes on with. -/
theorem cons_eq_replicate_append (b : Byte) (bs : List Byte) {k : Nat} (hk : 1 ≤ k) (h : k ≤ runTail b bs + 1) :
    b :: bs = List.replicate k b ++ bs.drop (k - 1) := by
  obtain ⟨j, rfl⟩ : ∃ j, k = j + 1 := ⟨k - 1, by omega⟩
  rw [List.replicate_succ, ← runTail_take b bs j (by omega), Nat.add_sub_cancel, List.cons_append, List.take_append_drop]

/-- The encoder's loop (R115) as an induction on a payload and its encoded body together: an escaped special byte, a run
unit, a literal. -/
theorem encodeBody_induction {motive : List Byte → List Byte → Prop} (rle : Bool) (nil : motive [] [])
    (special : ∀ b p e, isSpecial b = true → motive p e → motive (b :: p) (0x7D :: escapeXor b :: e))
    (run : ∀ b n p e, isSpecial b = false → 4 ≤ n → motive p e →
      motive (List.replicate (rlePlan n) b ++ p) (b :: 0x2A :: countByte (rlePlan n) :: e))
    (literal : ∀ b p e, isSpecial b = false → motive p e → motive (b :: p) (b :: e))
    (p : List Byte) : motive p (encodeBody p rle) := by
  induction hl : p.length using Nat.strong_induction_on generalizing p with
  | _ len ih =>
    cases p with
    | nil => exact nil
    | cons b bs =>
      rw [List.length_cons] at hl
      have hbs : motive bs (encodeBody bs rle) := ih bs.length (by omega) bs rfl
      rw [encodeBody_cons]
      split
      · next hsp => exact special b bs _ hsp hbs
      · next hsp =>
        rw [Bool.not_eq_true] at hsp
        split
        · next hrun =>
          obtain ⟨-, hn⟩ : rle = true ∧ 4 ≤ runTail b bs + 1 := by simpa using hrun
          obtain ⟨hle, h4, -⟩ := rlePlan_bounds _ hn
          have hrest := ih _ (by rw [List.length_drop]; omega) (bs.drop (rlePlan (runTail b bs + 1) - 1)) rfl
          rw [cons_eq_replicate_append b bs (by omega) hle]
          exact run b _ _ _ hsp hn hrest
        · exact literal b bs _ hsp hbs

/-! ### The deframer over an encoded body -/

/-- The deframer after the bytes `e` of a body were taken and decoded to `p`: a good frame goes on, with the bytes counted and
summed and the payload stored. -/
def bodyTaken (p e : List Byte) (d : Deframer) : Deframer :=
  { d with
    rxPayload := d.rxPayload ++ p, rxSum := d.rxSum + cksum e, rxWireLen := d.rxWireLen + e.length
    rxLast := p.getLast?.or d.rxLast }

theorem bodyTaken_nil (d : Deframer) : bodyTaken [] [] d = d := by simp [bodyTaken, cksum]

/-- Two parts of a body, one after the other. -/
theorem bodyTaken_append (p q e f : List Byte) (d : Deframer) :
    bodyTaken q f (bodyTaken p e d) = bodyTaken (p ++ q) (e ++ f) d := by
  have hsum : cksum (e ++ f) = cksum e + cksum f := by
    induction e with
    | nil => simp [cksum]
    | cons b e ih => simp [cksum, ih, add_assoc]
  simp [bodyTaken, hsum, add_assoc, List.getLast?_append, Option.or_assoc]

/-- The bytes `e` of a body decode to `p`: inside a good frame, and with room for both, the deframer takes them so. -/
def DecodesTo (cfg : Config) (e p : List Byte) : Prop :=
  ∀ d : Deframer, d.rxState = .body → d.rxBad = .ok → (0x03 : Byte) ∉ p → d.rxWireLen + e.length ≤ cfg.maxFrame →
    d.rxPayload.length + p.length ≤ cfg.maxPayload → deframeAll cfg e d = bodyTaken p e d

namespace DecodesTo

theorem nil (cfg : Config) : DecodesTo cfg [] [] := fun d _ _ _ _ _ => (bodyTaken_nil d).symm

/-- Bytes that decode one after another decode together. -/
theorem append {e f p q : List Byte} (h1 : DecodesTo cfg e p) (h2 : DecodesTo cfg f q) :
    DecodesTo cfg (e ++ f) (p ++ q) := by
  intro d hs hok h3 hw hp
  rw [List.length_append] at hw hp
  obtain ⟨h3p, h3q⟩ : (0x03 : Byte) ∉ p ∧ (0x03 : Byte) ∉ q := by simpa using h3
  rw [deframeAll_append, h1 d hs hok h3p (by omega) (by omega),
    h2 (bodyTaken p e d) hs hok h3q (by simp only [bodyTaken]; omega)
      (by simp only [bodyTaken, List.length_append]; omega), bodyTaken_append]

/-- A literal decodes to itself. -/
theorem literal {b : Byte} (hsp : isSpecial b = false) : DecodesTo cfg [b] [b] := by
  intro d hs hok h3 hw hp
  have hb : b ≠ 0x03 := Ne.symm (by simpa using h3)
  simp only [List.length_singleton] at hw hp
  rw [deframeAll, deframeAll, deframeStep_literal b hs hok hb hsp (by omega) (by omega)]
  simp [bodyTaken, cksum]

/-- An escape sequence decodes to the byte it was made from. -/
theorem escape (b : Byte) : DecodesTo cfg [0x7D, escapeXor b] [b] := by
  intro d hs hok _ hw hp
  simp only [List.length_cons, List.length_nil] at hw hp
  rw [deframeAll, deframeAll, deframeAll, deframeStep_escape b hs hok (by omega) (by omega)]
  simp [bodyTaken, cksum, add_assoc]

/-- A run unit decodes to the copies of its byte. -/
theorem run {b : Byte} {k : Nat} (hsp : isSpecial b = false) (h4 : 4 ≤ k) (hk : k ≤ 98) :
    DecodesTo cfg [b, 0x2A, countByte k] (List.replicate k b) := by
  intro d hs hok h3 hw hp
  obtain ⟨j, rfl⟩ : ∃ j, k = j + 1 := ⟨k - 1, by omega⟩
  have hb : b ≠ 0x03 := Ne.symm (by simpa using h3)
  have hlast : (List.replicate (j + 1) b).getLast? = some b := by simp [List.getLast?_replicate]
  simp only [List.length_cons, List.length_nil, List.length_replicate] at hw hp
  rw [deframeAll, deframeAll, deframeAll, deframeAll, deframeStep_literal b hs hok hb hsp (by omega) (by omega),
    deframeStep_run b (j + 1) (by exact hs) (by exact hok) rfl h4 hk (by simp only; omega)
      (by simp only [List.length_append, List.length_singleton]; omega)]
  simp [bodyTaken, cksum, add_assoc, ← List.replicate_succ, hlast]

/-- An encoded body decodes to its payload. -/
theorem encodeBody (p : List Byte) (rle : Bool) : DecodesTo cfg (encodeBody p rle) p := by
  induction p using encodeBody_induction (rle := rle) with
  | nil => exact nil cfg
  | special b p e _ ih => exact (escape b).append ih
  | run b n p e hsp hn ih =>
    obtain ⟨-, h4, h98⟩ := rlePlan_bounds n hn
    exact (run hsp h4 h98).append ih
  | literal b p e hsp ih => exact (literal hsp).append ih

end DecodesTo

/-! ### The frame around the body -/

/-- The digits of R92 are read back as R91 reads digits, and none of them is 0x03. -/
theorem hexval_hexdigit (v : Nibble) : hexval (hexdigit v) = some v ∧ hexdigit v ≠ 0x03 := by
  revert v; decide

/-- The checksum field made of a byte's nibbles is the byte (R12, R85). -/
theorem ckField_nibbles (c : Byte) : ckField (highNibble c) (lowNibble c) = c := by
  apply BitVec.eq_of_toNat_eq
  have := c.isLt
  simp [ckField, highNibble, lowNibble]
  omega

/-- The deframer after the `$` that starts a frame (R145). -/
def frameStarted : Deframer := { Deframer.reset with rxState := .body, rxWireLen := 1 }

theorem deframeStep_dollar (hcfg : 1 ≤ cfg.maxFrame) : deframeStep cfg 0x24 Deframer.reset = frameStarted := by
  have hcount : countWire cfg (clearFrame Deframer.reset) = { Deframer.reset with rxWireLen := 1 } :=
    countWire_of_lt hcfg
  have hrule : deframeStep cfg 0x24 Deframer.reset = rxHuntStart cfg Deframer.reset := rfl
  rw [hrule, rxHuntStart, hcount, frameStarted]

/-- `#` and the digits of the running checksum end a good frame within the cap in its packet. -/
theorem deframeAll_checksumField (hs : d.rxState = .body) (hok : d.rxBad = .ok) (hw : d.rxWireLen + 3 ≤ cfg.maxFrame) :
    deframeAll cfg (0x23 :: hexenc d.rxSum) d = { Deframer.reset with evQ := d.evQ ++ [.packet d.rxPayload] } := by
  obtain ⟨hhi, hhi3⟩ := hexval_hexdigit (highNibble d.rxSum)
  obtain ⟨hlo, hlo3⟩ := hexval_hexdigit (lowNibble d.rxSum)
  have h1 : deframeStep cfg 0x23 d = { d with rxState := .ck1, rxWireLen := d.rxWireLen + 1 } := by
    unfold deframeStep
    simp only [hs]
    rw [if_neg (by decide), if_pos trivial, rxBodyEnd, countWire_of_lt (by omega)]
  have h2 : deframeStep cfg (hexdigit (highNibble d.rxSum)) { d with rxState := .ck1, rxWireLen := d.rxWireLen + 1 } =
      { d with rxState := .ck2, rxWireLen := d.rxWireLen + 2, rxCkHi := highNibble d.rxSum } := by
    unfold deframeStep
    simp only [if_neg hhi3]
    rw [rxCk1, countWire_of_lt (by simp only; omega), hhi]
  rw [hexenc, deframeAll, h1, deframeAll, h2, deframeAll, deframeAll]
  unfold deframeStep
  simp only [if_neg hlo3]
  rw [rxCk2, countWire_of_lt (by simp only; omega)]
  simp [checkField, hlo, ckField_nibbles, frameEvent, hok, emit, clearFrame, Deframer.reset]

/-- R120 on the deframer's registers: from reset, the frame of a payload without 0x03 that fits both bounds ends in its packet
and nothing else, back in the reset state. -/
theorem deframeAll_encodeFrame {rle : Bool} {p : List Byte} (hp : ValidPayload cfg rle p) :
    deframeAll cfg (encodeFrame p rle) Deframer.reset = { Deframer.reset with evQ := [.packet p] } := by
  obtain ⟨h3, hlen, hpay⟩ := hp
  rw [encodeFrame_length] at hlen
  have hbody : deframeAll cfg (encodeBody p rle) frameStarted = bodyTaken p (encodeBody p rle) frameStarted :=
    DecodesTo.encodeBody p rle frameStarted rfl rfl h3 (by simp only [frameStarted]; omega)
      (by simpa [frameStarted, Deframer.reset] using hpay)
  have hsum : (bodyTaken p (encodeBody p rle) frameStarted).rxSum = cksum (encodeBody p rle) := by
    simp [bodyTaken, frameStarted, Deframer.reset]
  rw [encodeFrame, deframeAll, deframeStep_dollar (by omega), deframeAll_append, hbody, ← hsum,
    deframeAll_checksumField rfl rfl (by simp only [bodyTaken, frameStarted]; omega)]
  simp [bodyTaken, frameStarted, Deframer.reset]

end Sys2Proof.Machine
end

section
/-! SUPPORT. What holds between the operations of the assembled block (10_state.md R43 (1) to (12)): what one deframer step
can do, and that each operation of the transport, the host and reset keeps R43. -/

namespace Sys2Proof.Machine

variable {cfg : Config} {d d' : Deframer} {s t : State}

/-! ### What a deframer step can do -/

/-- A step from `d` to `d'` that goes on with a frame: inside one, the byte counted, and no event emitted. -/
structure GoesOn (d d' : Deframer) : Prop where
  in_frame : d'.rxState ≠ .hunt
  counted : 1 ≤ d'.rxWireLen
  silent : d'.evQ = d.evQ

namespace GoesOn

theorem huntStart (cfg : Config) (d : Deframer) : GoesOn d (rxHuntStart cfg d) :=
  ⟨by simp [rxHuntStart], by simp [rxHuntStart], by simp [rxHuntStart, clearFrame]⟩

theorem bodyData (cfg : Config) (b : Byte) (h : d.rxState ≠ .hunt) : GoesOn d (rxBodyData cfg b d) :=
  ⟨by simpa [rxBodyData] using h, by simp [rxBodyData], by simp [rxBodyData]⟩

theorem bodyEscMark (cfg : Config) (d : Deframer) : GoesOn d (rxBodyEscMark cfg d) :=
  ⟨by simp [rxBodyEscMark], by simp [rxBodyEscMark], by simp [rxBodyEscMark]⟩

theorem escLit (cfg : Config) (b : Byte) (d : Deframer) : GoesOn d (rxEscLit cfg b d) :=
  ⟨by simp [rxEscLit], by simp [rxEscLit], by simp [rxEscLit]⟩

theorem bodyRleMark (cfg : Config) (d : Deframer) : GoesOn d (rxBodyRleMark cfg d) := by
  refine ⟨by simp [rxBodyRleMark], ?_, ?_⟩ <;> cases hl : d.rxLast <;> simp [rxBodyRleMark, hl]

theorem rleCount (cfg : Config) (b : Byte) (d : Deframer) : GoesOn d (rxRleCount cfg b d) := by
  refine ⟨by simp [rxRleCount], ?_, ?_⟩ <;> cases hl : d.rxLast <;> simp [rxRleCount, hl]

theorem rleBadcount (cfg : Config) (b : Byte) (d : Deframer) : GoesOn d (rxRleBadcount cfg b d) :=
  ⟨by simp [rxRleBadcount], by simp [rxRleBadcount], by simp [rxRleBadcount]⟩

theorem bodyRawDollar (cfg : Config) (h : d.rxState ≠ .hunt) : GoesOn d (rxBodyRawDollar cfg d) :=
  ⟨by simpa [rxBodyRawDollar] using h, by simp [rxBodyRawDollar], by simp [rxBodyRawDollar]⟩

theorem bodyEnd (cfg : Config) (d : Deframer) : GoesOn d (rxBodyEnd cfg d) :=
  ⟨by simp [rxBodyEnd], by simp [rxBodyEnd], by simp [rxBodyEnd]⟩

theorem ck1 (cfg : Config) (b : Byte) (d : Deframer) : GoesOn d (rxCk1 cfg b d) := by
  refine ⟨by simp [rxCk1], ?_, ?_⟩ <;> cases hv : hexval b <;> simp [rxCk1, hv]

end GoesOn

/-- What one deframer step can make of `d` (R145 to R160). -/
inductive StepOutcome (d : Deframer) : Deframer → Prop where
  /-- the byte is discarded -/
  | unchanged : StepOutcome d d
  /-- a signal is reported, and nothing else changes -/
  | signal (e : Event) : StepOutcome d (emit e d)
  /-- a frame ends in one event -/
  | ended (e : Event) : StepOutcome d { Deframer.reset with evQ := d.evQ ++ [e] }
  /-- a frame starts or goes on -/
  | goesOn {d' : Deframer} (h : GoesOn d d') : StepOutcome d d'

/-- The second checksum position ends the frame, with the registers back at their reset values (R160). -/
theorem rxCk2_outcome (cfg : Config) (b : Byte) (d : Deframer) : StepOutcome d (rxCk2 cfg b d) := by
  have h : rxCk2 cfg b d =
      { Deframer.reset with evQ := d.evQ ++ [frameEvent (checkField b (countWire cfg d))] } := by
    simp [rxCk2, clearFrame, emit, Deframer.reset]
  exact h ▸ .ended _

/-- The outcome of each rule that `deframe_step` selects (R140). -/
theorem deframeStep_outcome (cfg : Config) (b : Byte) (d : Deframer) : StepOutcome d (deframeStep cfg b d) := by
  unfold deframeStep
  cases hs : d.rxState with
  | hunt =>
    dsimp only
    split_ifs
    · exact .goesOn (.huntStart cfg d)
    · exact .signal .ack
    · exact .signal .nack
    · exact .signal .interrupt
    · exact .unchanged
  | esc => exact .goesOn (.escLit cfg b d)
  | body =>
    have hf : d.rxState ≠ .hunt := by simp [hs]
    dsimp only
    split_ifs
    · exact .signal .interrupt
    · exact .goesOn (.bodyEnd cfg d)
    · exact .goesOn (.bodyEscMark cfg d)
    · exact .goesOn (.bodyRleMark cfg d)
    · exact .goesOn (.bodyRawDollar cfg hf)
    · exact .goesOn (.bodyData cfg b hf)
  | rle =>
    dsimp only
    split_ifs
    · exact .signal .interrupt
    · exact .goesOn (.rleCount cfg b d)
    · exact .goesOn (.rleBadcount cfg b d)
  | ck1 =>
    dsimp only
    split_ifs
    · exact .signal .interrupt
    · exact .goesOn (.ck1 cfg b d)
  | ck2 =>
    dsimp only
    split_ifs
    · exact .signal .interrupt
    · exact rxCk2_outcome cfg b d

/-- A step emits at most one event (R161). -/
theorem StepOutcome.evQ (h : StepOutcome d d') : d'.evQ = d.evQ ∨ ∃ e, d'.evQ = d.evQ ++ [e] := by
  cases h with
  | unchanged => exact .inl rfl
  | signal e => exact .inr ⟨e, rfl⟩
  | ended e => exact .inr ⟨e, rfl⟩
  | goesOn h => exact .inl h.silent

/-! ### The frame registers between operations -/

/-- R43 (1) and (2) of the deframer group: in `HUNT` the frame registers hold their idle values, elsewhere the `$` at least
is counted. -/
structure FrameTracked (d : Deframer) : Prop where
  hunt_clear : d.rxState = .hunt → clearFrame d = d
  in_frame_counted : d.rxState ≠ .hunt → 1 ≤ d.rxWireLen

namespace FrameTracked

theorem iff_r43 (d : Deframer) : FrameTracked d ↔
    (d.rxState = .hunt →
      d.rxSum = 0 ∧ d.rxPayload = [] ∧ d.rxLast = none ∧ d.rxBad = .ok ∧ d.rxWireLen = 0 ∧ d.rxCkHi = 0) ∧
    (d.rxState ≠ .hunt → 1 ≤ d.rxWireLen) := by
  have hclear : clearFrame d = d ↔
      d.rxSum = 0 ∧ d.rxPayload = [] ∧ d.rxLast = none ∧ d.rxBad = .ok ∧ d.rxWireLen = 0 ∧ d.rxCkHi = 0 := by
    constructor
    · intro h
      rw [← h]
      exact ⟨rfl, rfl, rfl, rfl, rfl, rfl⟩
    · rintro ⟨h1, h2, h3, h4, h5, h6⟩
      simp only [clearFrame, ← h1, ← h2, ← h3, ← h4, ← h5, ← h6]
  rw [← hclear]
  exact ⟨fun h => ⟨h.hunt_clear, h.in_frame_counted⟩, fun h => ⟨h.1, h.2⟩⟩

theorem reset : FrameTracked Deframer.reset := ⟨fun _ => rfl, fun h => absurd rfl h⟩

/-- Neither invariant speaks of the events. -/
theorem withEvQ (q : List Event) (h : FrameTracked d) : FrameTracked { d with evQ := q } :=
  ⟨fun hs => congrArg (fun d : Deframer => { d with evQ := q }) (h.hunt_clear hs), h.in_frame_counted⟩

/-- A deframer step keeps both. -/
theorem of_outcome (h : FrameTracked d) (ho : StepOutcome d d') : FrameTracked d' := by
  cases ho with
  | unchanged => exact h
  | signal e => exact h.withEvQ _
  | ended e => exact reset.withEvQ _
  | goesOn hg => exact ⟨fun hs => absurd hs hg.in_frame, fun _ => hg.counted⟩

end FrameTracked

/-! ### The stored frame -/

/-- R43 (12) of a stored frame: it is the frame of a payload, and deframes to its packet when the payload holds no 0x03 and
fits the buffer. -/
def StoredDecodes (cfg : Config) (f : List Byte) : Prop :=
  ∃ payload rle, f = encodeFrame payload rle ∧
    ((0x03 : Byte) ∉ payload → payload.length ≤ cfg.maxPayload →
      (deframeAll cfg f Deframer.reset).evQ = [.packet payload])

/-- Every frame within the cap may be stored, by the round trip (`deframeAll_encodeFrame`). -/
theorem storedDecodes_encodeFrame (p : List Byte) (rle : Bool) (hl : (encodeFrame p rle).length ≤ cfg.maxFrame) :
    StoredDecodes cfg (encodeFrame p rle) :=
  ⟨p, rle, rfl, fun h3 hp => by rw [deframeAll_encodeFrame ⟨h3, hl, hp⟩]⟩

/-! ### The block's operations keep R43 -/

namespace BlockInv

theorem stateInv (h : BlockInv s) : StateInv s := ⟨h.registers, h.session⟩

theorem frameTracked (h : BlockInv s) : FrameTracked s.rx :=
  (FrameTracked.iff_r43 s.rx).mpr ⟨h.hunt_clear, h.in_frame_counted⟩

/-- R43 (9), the transmit side. -/
theorem txFifo_eq_nil (h : BlockInv s) (hc : s.sess.sessState = .closed) : s.txFifo = [] := (h.closed_quiet hc).1

/-- R43 (9), the deframer. -/
theorem rxState_eq_hunt (h : BlockInv s) (hc : s.sess.sessState = .closed) : s.rx.rxState = .hunt :=
  (h.closed_quiet hc).2.1

/-- R43 from its parts: the invariants of the registers, and what is left of (1), (2), (9) to (12). -/
theorem of_parts (hi : StateInv t) (hf : FrameTracked t.rx)
    (hq : t.sess.sessState = .closed → t.txFifo = [] ∧ t.rx.rxState = .hunt) (he : t.rx.evQ = [])
    (hr : t.sess.sessState = .idle ∨ t.sess.sessState = .noAck → t.sess.retryCount = 0)
    (hst : ∀ f, t.sess.txStored = some f → StoredDecodes t.cfg f) : BlockInv t := by
  obtain ⟨hclear, hcount⟩ := (FrameTracked.iff_r43 t.rx).mp hf
  have hquiet (hc : t.sess.sessState = .closed) : t.txFifo = [] ∧ t.rx.rxState = .hunt ∧ t.rx.evQ = [] :=
    ⟨(hq hc).1, (hq hc).2, he⟩
  exact ⟨hi.registers, hi.session, hclear, hcount, hquiet, hr, he, hst⟩

theorem resetBlock (s : State) : BlockInv (resetBlock s) :=
  of_parts (StateInv.resetBlock s) FrameTracked.reset (fun _ => ⟨rfl, rfl⟩) rfl (fun _ => rfl) (fun f hf => by cases hf)

/-- An operation that leaves the deframer and the session as they are, and appends nothing to the bytes to transmit while
closed, keeps R43. -/
theorem of_queues (h : BlockInv s) (hc : t.cfg = s.cfg) (hrx : t.rx = s.rx) (hs : t.sess = s.sess)
    (hq : s.sess.sessState = .closed → t.txFifo = []) : BlockInv t :=
  of_parts (h.stateInv.of_session hc (.inl hrx) (hs ▸ h.session)) (hrx ▸ h.frameTracked)
    (fun hcl => ⟨hq (hs ▸ hcl), hrx ▸ h.rxState_eq_hunt (hs ▸ hcl)⟩) (hrx ▸ h.events_drained) (hs ▸ h.retry_zero)
    (by rw [hs, hc]; exact h.stored_decodes)

theorem answer (r : Result) (h : BlockInv s) : BlockInv (answer r s) :=
  h.of_queues rfl rfl rfl h.txFifo_eq_nil

/-- An operation that writes the session registers and does not end in `CLOSED` keeps R43 when it keeps the session's
invariant, the second half of (10) and (12). -/
theorem of_open (h : BlockInv s) (hc : t.cfg = s.cfg) (hrx : t.rx = s.rx) (hs : SessionInv s.cfg t.sess)
    (ho : t.sess.sessState ≠ .closed)
    (hr : t.sess.sessState = .idle ∨ t.sess.sessState = .noAck → t.sess.retryCount = 0)
    (hst : ∀ f, t.sess.txStored = some f → StoredDecodes s.cfg f) : BlockInv t :=
  of_parts (h.stateInv.of_session hc (.inl hrx) hs) (hrx ▸ h.frameTracked) (fun hcl => absurd hcl ho)
    (hrx ▸ h.events_drained) hr (by rw [hc]; exact hst)

/-- Entering the fatal state establishes (9) and leaves nothing stored. -/
theorem enterClosed (c : CloseCause) (h : BlockInv s) : BlockInv (enterClosed c s) :=
  of_parts (h.stateInv.enterClosed c) FrameTracked.reset (fun _ => ⟨rfl, rfl⟩) rfl
    (fun hr => by simp at hr) (fun f hf => by simp at hf)

/-- `retry_or_fail` where R186 lets it be called. -/
theorem retryOrFail (h : BlockInv s) (hp : s.sess.sessState = .ackPending) : BlockInv (retryOrFail s) := by
  have hsess := h.session.retryOrFail
  rcases retryOrFail_cases s with ⟨-, he⟩ | ⟨-, he⟩
  · rw [he]; exact h.enterClosed _
  · rw [he] at hsess ⊢
    exact h.of_open (by simp) (by simp) hsess (by simp [hp]) (by simp [hp]) (by rw [retransmit_sess]; exact h.stored_decodes)

theorem evAck (h : BlockInv s) : BlockInv (evAck s) := by
  have hsess := h.session.evAck
  rcases evAck_cases s with ⟨-, he⟩ | ⟨-, he⟩
  · rw [he] at hsess ⊢
    exact h.of_open rfl rfl hsess (by dsimp only; split_ifs <;> simp) (fun _ => rfl) (fun f hf => by cases hf)
  · rwa [he]

theorem evNack (h : BlockInv s) : BlockInv (evNack s) := by
  rcases evNack_cases s with ⟨hp, he⟩ | ⟨-, he⟩ <;> rw [he]
  · exact h.retryOrFail hp
  · exact h

/-- While closed no signal byte is sent. -/
theorem signalIfAckMode (b : Byte) (h : BlockInv s) : BlockInv (signalIfAckMode b s) :=
  h.of_queues (by simp) (by simp) (by simp) fun hc => by
    simp [signalIfAckMode_txFifo, hc, ackMode, h.txFifo_eq_nil hc]

theorem deliver (item : HostItem) (h : BlockInv s) : BlockInv (deliver item s) :=
  h.of_queues rfl rfl rfl h.txFifo_eq_nil

/-- Every reaction of the session to an event keeps R43. -/
theorem sessionEvent (e : Event) (h : BlockInv s) : BlockInv (sessionEvent e s) := by
  cases e with
  | ack => exact h.evAck
  | nack => exact h.evNack
  | packet p => exact (h.signalIfAckMode _).deliver _
  | reject c => exact h.signalIfAckMode _
  | interrupt => exact h.deliver _

/-- The deframer's step, its event taken out, keeps R43 in an open session. -/
theorem received (b : Byte) (h : BlockInv s) (ho : s.sess.sessState ≠ .closed) :
    BlockInv { s with rx := { deframeStep s.cfg b s.rx with evQ := [] } } := by
  have hf : FrameTracked (deframeStep s.cfg b s.rx) := h.frameTracked.of_outcome (deframeStep_outcome s.cfg b s.rx)
  exact of_parts ⟨(h.registers.deframeStep b).of_eq rfl rfl rfl, h.session⟩ (hf.withEvQ [])
    (fun hc => absurd hc ho) rfl h.retry_zero h.stored_decodes

/-- `RX_BYTE` (R181): the deframer's step gives at most one event, and the session's reaction to it follows at once. -/
theorem rxByte (b : Byte) (h : BlockInv s) : BlockInv (rxByte b s) := by
  rcases rxByte_cases b s with ⟨-, he⟩ | ⟨ho, he⟩ <;> rw [he]
  · exact h
  · have hu := h.received b ho
    rcases (deframeStep_outcome s.cfg b s.rx).evQ with hq | ⟨e, hq⟩ <;> rw [h.events_drained] at hq
    · rw [drain_nil _ hq]
      rwa [← hq] at hu
    · have hq' : (receive b s).rx.evQ = [e] := hq
      rw [hq', List.length_singleton, drain, hq']
      exact hu.sessionEvent e

theorem popTx (h : BlockInv s) : BlockInv (popTx s) :=
  h.of_queues rfl rfl rfl fun hc => by simp [Machine.popTx, h.txFifo_eq_nil hc]

theorem hRecv (h : BlockInv s) : BlockInv (hRecv s) :=
  h.of_queues rfl rfl rfl h.txFifo_eq_nil

/-- `H_SEND` stores a frame within the cap from `IDLE`, and only appends to the bytes to transmit in `NO_ACK`. -/
theorem hSend (p : List Byte) (h : BlockInv s) : BlockInv (hSend p s) := by
  have hsess := h.session.hSend p
  rcases hSend_cases p s with ⟨-, he⟩ | ⟨-, he⟩ | ⟨-, -, he⟩ | ⟨-, hl, he⟩ | ⟨hn, -, he⟩ <;> rw [he] at hsess ⊢
  · exact h.answer _
  · exact h.answer _
  · exact h.answer _
  · refine h.of_open rfl rfl hsess (by simp) (by simp) fun f hf => ?_
    obtain rfl : encodeFrame p s.sess.txRleEn = f := by simpa using hf
    exact storedDecodes_encodeFrame p _ hl
  · exact h.of_queues rfl rfl rfl fun hc => by simp [hn] at hc

theorem hSetNoack (h : BlockInv s) : BlockInv (hSetNoack s) := by
  have hsess := h.session.hSetNoack
  rcases hSetNoack_cases s with ⟨-, he⟩ | ⟨hi, he⟩ | ⟨hp, he⟩ | ⟨-, he⟩ <;> rw [he] at hsess ⊢
  · exact h.answer _
  · exact h.of_open rfl rfl hsess (by simp) (fun _ => h.retry_zero (.inl hi)) h.stored_decodes
  · exact h.of_open rfl rfl hsess (by simp [hp]) (by simp [hp]) h.stored_decodes
  · exact h.answer _

theorem hTimeout (h : BlockInv s) : BlockInv (hTimeout s) := by
  rcases hTimeout_cases s with ⟨-, he⟩ | ⟨hp, he⟩ | ⟨-, he⟩ <;> rw [he]
  · exact h.answer _
  · exact (h.retryOrFail hp).answer _
  · exact h.answer _

theorem hLinkDown (h : BlockInv s) : BlockInv (hLinkDown s) := by
  rcases hLinkDown_cases s with ⟨-, he⟩ | ⟨-, he⟩ <;> rw [he]
  · exact h.answer _
  · exact (h.enterClosed _).answer _

theorem hSetRle (v : Bool) (h : BlockInv s) : BlockInv (hSetRle v s) := by
  have hsess := h.session.hSetRle v
  rcases hSetRle_cases v s with ⟨-, he⟩ | ⟨ho, he⟩ <;> rw [he] at hsess ⊢
  · exact h.answer _
  · exact h.of_open rfl rfl hsess ho h.retry_zero h.stored_decodes

/-- Every operation of the assembled block keeps R43. -/
theorem exec (i : Instr) (hb : isBlockOp i = true) (h : BlockInv s) (he : exec i s = .next t) : BlockInv t := by
  cases i with
  | rxByte b => exact of_next ((h.rxByte b).answer _) he
  | txPop => exact of_next h.popTx he
  | reset => exact of_next (resetBlock s) he
  | hStatus | hReserved7 | hReserved8F => exact of_next (h.answer _) he
  | hSend p => exact of_next (h.hSend p) he
  | hRecv => exact of_next h.hRecv he
  | hSetNoack => exact of_next h.hSetNoack he
  | hTimeout => exact of_next h.hTimeout he
  | hLinkDown => exact of_next h.hLinkDown he
  | hSetRle v => exact of_next (h.hSetRle v) he
  | _ => cases hb

end BlockInv

end Sys2Proof.Machine
end

section
/-! SUPPORT. The statements about reset (10_state.md R45) and about the invariants (R43). -/

namespace Sys2Proof.Proofs

open Sys2Proof.Machine

/-- Settles O1: every value is read off `State.reset`, which `RESET` answers but for the parameters and the model's own
`inbox` and `freeUse`. -/
theorem resetGivesTheSpecValues : Obligations.ResetGivesTheSpecValues := by
  have hvalues (s : State) : AtResetValues (resetBlock s) :=
    ⟨rfl, rfl, rfl, rfl, rfl, rfl, rfl, rfl, rfl, rfl, rfl, rfl, rfl, rfl, rfl, rfl, rfl⟩
  exact ⟨hvalues State.reset, fun s => ⟨resetBlock s, rfl, hvalues s, resetBlock_cfg s⟩⟩

/-- Settles O53: `RESET` establishes all the invariants from any state, and from the reset state it leads to itself. -/
theorem resetMeetsTheInvariants : Obligations.ResetMeetsTheInvariants := by
  have h : BlockInv State.reset := BlockInv.resetBlock State.reset
  exact ⟨h.registers, h.session, h⟩

/-- Settles O54: the oldest operation, whichever of the 53 it is, keeps both invariants (`StateInv.exec`). -/
theorem everyStepKeepsRegisterAndSessionInvariants : Obligations.EveryStepKeepsRegisterAndSessionInvariants := by
  intro s t hreg hsess hst
  have ht : StateInv t := StateInv.step ⟨hreg, hsess⟩ hst
  exact ⟨ht.registers, ht.session⟩

/-- Settles O55: the step runs the block's operation (`BlockInv.exec`) on the state without its event. -/
theorem blockOperationsKeepTheBlockInvariant : Obligations.BlockOperationsKeepTheBlockInvariant := by
  intro s t e rest i hin hd hb h hst
  rw [step_of_inbox hin hd] at hst
  have hrest : BlockInv { s with inbox := rest } := h.of_queues rfl rfl rfl h.txFifo_eq_nil
  exact hrest.exec i hb hst

end Sys2Proof.Proofs
end

section
/-! SUPPORT. Operations between the bytes of pushed chunks (20_memory.md R66, R67): an operation that spares the deframer does
the same whatever the deframer holds and whatever waits, and a run of steps over such operations and `PUSH`es, with `NEXT`s
behind them (41_deframer.md R163). -/

namespace Sys2Proof.Machine

/-! ### The two sides of the state -/

/-- `s` with another deframer side: the deframer group `d`, the last result `r`, the waiting operations `q` and the count `n`
of free values. The parameters, the session, `tx_fifo` and `host_q` are those of `s`. -/
def withRxSide (d : Deframer) (r : Result) (q : List PortEvent) (n : Nat) (s : State) : State :=
  { s with rx := d, result := r, inbox := q, freeUse := n }

theorem withRxSide_self (s : State) : withRxSide s.rx s.result s.inbox s.freeUse s = s := rfl

section
variable (d : Deframer) (r : Result) (q : List PortEvent) (n : Nat) (s : State)

@[simp] theorem withRxSide_cfg : (withRxSide d r q n s).cfg = s.cfg := rfl
@[simp] theorem withRxSide_rx : (withRxSide d r q n s).rx = d := rfl
@[simp] theorem withRxSide_sess : (withRxSide d r q n s).sess = s.sess := rfl
@[simp] theorem withRxSide_txFifo : (withRxSide d r q n s).txFifo = s.txFifo := rfl
@[simp] theorem withRxSide_hostQ : (withRxSide d r q n s).hostQ = s.hostQ := rfl
@[simp] theorem withRxSide_inbox : (withRxSide d r q n s).inbox = q := rfl
@[simp] theorem withRxSide_result : (withRxSide d r q n s).result = r := rfl

/-! ### The operations that spare the deframer do the same beside every deframer side -/

theorem signalIfAckMode_withRxSide (b : Byte) :
    signalIfAckMode b (withRxSide d r q n s) = withRxSide d r q n (signalIfAckMode b s) := by
  cases h : ackMode s.sess.sessState <;> simp [signalIfAckMode, h, transmit, withRxSide]

theorem evAck_withRxSide : evAck (withRxSide d r q n s) = withRxSide d r q n (evAck s) := by
  cases h : s.sess.sessState with
  | ackPending => simp [evAck, h]; rfl
  | idle | noAck | closed => simp [evAck, h]

theorem hSetNoack_withRxSide :
    hSetNoack (withRxSide d r q n s) = withRxSide d (hSetNoack s).result q n (hSetNoack s) := by
  cases h : s.sess.sessState <;> simp [hSetNoack, h] <;> rfl

theorem hSetRle_withRxSide (v : Bool) :
    hSetRle v (withRxSide d r q n s) = withRxSide d (hSetRle v s).result q n (hSetRle v s) := by
  cases h : s.sess.sessState <;> simp [hSetRle, h] <;> rfl

theorem sendFrame_withRxSide (f : List Byte) :
    sendFrame f (withRxSide d r q n s) = withRxSide d (sendFrame f s).result q n (sendFrame f s) := by
  by_cases hl : s.cfg.maxFrame < f.length
  · simp [sendFrame, hl]; rfl
  · cases h : s.sess.sessState <;> simp [sendFrame, hl, h] <;> rfl

theorem hSend_withRxSide (p : List Byte) :
    hSend p (withRxSide d r q n s) = withRxSide d (hSend p s).result q n (hSend p s) := by
  cases h : s.sess.sessState with
  | closed | ackPending => simp [hSend, h]; rfl
  | idle | noAck => simpa [hSend, h] using sendFrame_withRxSide d r q n s _

/-- An operation that spares the deframer neither reads nor writes the deframer side: beside every other one it answers the
same result and does the same to the rest of the state. -/
theorem exec_withRxSide {i : Instr} (hi : sparesDeframer i = true) :
    ∃ t, exec i s = .next t ∧ exec i (withRxSide d r q n s) = .next (withRxSide d t.result q n t) := by
  cases i with
  | hStatus | hReserved7 | hReserved8F | hRecv | txPop
  | cksum | hexenc | hexdec | escEnc | rlePlan | encodeBody | encodeFrame | decodeFrame
  | evInterrupt => exact ⟨_, rfl, rfl⟩
  | hSend p => exact ⟨_, rfl, congrArg _ (hSend_withRxSide d r q n s p)⟩
  | hSetNoack => exact ⟨_, rfl, congrArg _ (hSetNoack_withRxSide d r q n s)⟩
  | hSetRle v => exact ⟨_, rfl, congrArg _ (hSetRle_withRxSide d r q n s v)⟩
  | evAck => exact ⟨_, rfl, congrArg (fun t => Host.Outcome.next (answer .none t)) (evAck_withRxSide d r q n s)⟩
  | evPacket p =>
    exact ⟨_, rfl, congrArg (fun t => Host.Outcome.next (answer .none (deliver (.packet p) t)))
      (signalIfAckMode_withRxSide d r q n s 0x2B)⟩
  | evReject c =>
    exact ⟨_, rfl, congrArg (fun t => Host.Outcome.next (answer .none t)) (signalIfAckMode_withRxSide d r q n s 0x2D)⟩
  | _ => cases hi

end

/-! ### Fetching the operations of such a run -/

/-- An operation that spares the deframer is fetched as it was encoded, whatever state the deframer is in. -/
theorem decode_fetchWord_of_spares {i : Instr} (st : RxState) (hw : i.WF) (hi : sparesDeframer i = true) :
    decode (fetchWord st (encode i)) = .ok i := by
  cases i with
  | hStatus => exact Laws.EncodeRoundTrip.hStatus hw
  | hSend p => exact Laws.EncodeRoundTrip.hSend p hw
  | hRecv => exact Laws.EncodeRoundTrip.hRecv hw
  | hSetNoack => exact Laws.EncodeRoundTrip.hSetNoack hw
  | hSetRle v => exact Laws.EncodeRoundTrip.hSetRle v hw
  | hReserved7 arg => exact Laws.EncodeRoundTrip.hReserved7 arg hw
  | hReserved8F low arg => exact Laws.EncodeRoundTrip.hReserved8F low arg hw
  | txPop => exact Laws.EncodeRoundTrip.txPop hw
  | cksum bs => exact Laws.EncodeRoundTrip.cksum bs hw
  | hexenc c => exact Laws.EncodeRoundTrip.hexenc c hw
  | hexdec b => exact Laws.EncodeRoundTrip.hexdec b hw
  | escEnc b => exact Laws.EncodeRoundTrip.escEnc b hw
  | rlePlan run => exact Laws.EncodeRoundTrip.rlePlan run hw
  | encodeBody p rle => exact Laws.EncodeRoundTrip.encodeBody p rle hw
  | encodeFrame p rle => exact Laws.EncodeRoundTrip.encodeFrame p rle hw
  | decodeFrame buffer => exact Laws.EncodeRoundTrip.decodeFrame buffer hw
  | evAck => exact Laws.EncodeRoundTrip.evAck hw
  | evPacket p => exact Laws.EncodeRoundTrip.evPacket p hw
  | evReject c => exact Laws.EncodeRoundTrip.evReject c hw
  | evInterrupt => exact Laws.EncodeRoundTrip.evInterrupt hw
  | _ => cases hi

/-- An operation that spares the deframer pushes nothing and takes one step. -/
theorem of_sparesDeframer {i : Instr} (hi : sparesDeframer i = true) :
    isPush i = false ∧ pushedBytes i = [] ∧ stepsOf i = 1 := by
  cases i with
  | push c => cases hi
  | _ => exact ⟨rfl, rfl, rfl⟩

/-- What the rest of a chunk may pass pushes no bytes. -/
theorem pushedBytes_of_fallsBetween {i : Instr} (h : fallsBetween (encode i) = true) : pushedBytes i = [] := by
  cases i with
  | push c => cases h
  | _ => rfl

theorem exists_of_isPush {i : Instr} (hi : isPush i = true) : ∃ c, i = .push c := by
  cases i with
  | push c => exact ⟨c, rfl⟩
  | _ => cases hi

/-- Every operation takes a step. -/
theorem stepsOf_pos (i : Instr) : 1 ≤ stepsOf i := by
  cases i with
  | push c => exact Nat.le_max_left _ _
  | _ => exact le_rfl

/-! ### The run -/

/-- The operations of R66 and R67: `PUSH`es, and operations that spare the deframer. -/
def PushesAndSparers (ops : List Instr) : Prop :=
  ∀ i ∈ ops, i.WF ∧ (isPush i = true ∨ sparesDeframer i = true)

theorem PushesAndSparers.insert_push {ops1 ops2 : List Instr} (c : List Byte) (h : PushesAndSparers (ops1 ++ ops2)) :
    PushesAndSparers (ops1 ++ .push c :: ops2) := by
  obtain ⟨h1, h2⟩ := List.forall_mem_append.mp h
  exact List.forall_mem_append.mpr ⟨h1, List.forall_mem_cons.mpr ⟨⟨rfl, .inl rfl⟩, h2⟩⟩

/-- With `ops` waiting, `tail` behind them and the deframer at `d`, one step for each pushed byte and each other operation does
them all: the deframer takes the pushed bytes in order, the rest of the state is as after the other operations run alone, and
`tail` is left. -/
def RunsFrom (ops : List Instr) (tail : List PortEvent) (d : Deframer) (r : Result) (n : Nat) (s : State) : Prop :=
  ∃ u r' n', execAll (ops.filter fun i => !isPush i) s = .next u ∧ u.cfg = s.cfg ∧
    stepN (ops.map stepsOf).sum (withRxSide d r (ops.map encode ++ tail) n s) =
      .next (withRxSide (deframeAll s.cfg (ops.map pushedBytes).flatten d) r' tail n' u)

namespace RunsFrom

variable {ops ops' : List Instr} {tail : List PortEvent} {d d' : Deframer} {r r' : Result} {n n' : Nat} {s : State}

theorem nil : RunsFrom [] tail d r n s := ⟨s, r, n, rfl, rfl, rfl⟩

/-- An operation that spares the deframer comes first. -/
theorem cons_spares {i : Instr} (hw : i.WF) (hi : sparesDeframer i = true)
    (ih : ∀ r t, RunsFrom ops tail d r n t) : RunsFrom (i :: ops) tail d r n s := by
  obtain ⟨hpush, hbytes, hsteps⟩ := of_sparesDeframer hi
  obtain ⟨t, hexec, hbeside⟩ := exec_withRxSide d r (ops.map encode ++ tail) n s hi
  have hcfg : t.cfg = s.cfg := exec_cfg i hexec
  obtain ⟨u, r', n', hall, hu, hrun⟩ := ih t.result t
  refine ⟨u, r', n', by simpa [hpush, execAll, hexec] using hall, hu.trans hcfg, ?_⟩
  have hstep : step (withRxSide d r ((i :: ops).map encode ++ tail) n s) =
      .next (withRxSide d t.result (ops.map encode ++ tail) n t) :=
    (step_of_inbox rfl (decode_fetchWord_of_spares _ hw hi)).trans hbeside
  rw [List.map_cons, List.sum_cons, hsteps, Nat.add_comm, stepN_succ _ hstep, hrun, hcfg]
  simp [hbytes]

/-- One step of a `PUSH` leaves operations `ops'` that make the same run. -/
theorem of_pushByte {c : List Byte}
    (hstep : pushByte c (withRxSide d r (ops.map encode ++ tail) n s) =
      withRxSide d' r' (ops'.map encode ++ tail) n' s)
    (hother : ops'.filter (fun i => !isPush i) = ops.filter fun i => !isPush i)
    (hsteps : stepsOf (.push c) + (ops.map stepsOf).sum = (ops'.map stepsOf).sum + 1)
    (hbytes : deframeAll s.cfg (c ++ (ops.map pushedBytes).flatten) d =
      deframeAll s.cfg (ops'.map pushedBytes).flatten d')
    (ih : RunsFrom ops' tail d' r' n' s) : RunsFrom (.push c :: ops) tail d r n s := by
  obtain ⟨u, r1, n1, hall, hu, hrun⟩ := ih
  have hstep' : step (withRxSide d r ((Instr.push c :: ops).map encode ++ tail) n s) =
      .next (withRxSide d' r' (ops'.map encode ++ tail) n' s) :=
    (step_of_inbox (i := .push c) rfl rfl).trans (congrArg Host.Outcome.next hstep)
  refine ⟨u, r1, n1, (congrArg (execAll · s) hother).symm.trans hall, hu, ?_⟩
  rw [List.map_cons, List.sum_cons, hsteps, stepN_succ _ hstep', hrun, ← hbytes]
  rfl

/-- The rest of a chunk goes on behind operations that push nothing, so the bytes it holds come next (R66). -/
theorem split_push {before after : List PortEvent} (hsplit : ops.map encode = before ++ after)
    (hbefore : ∀ w ∈ before, fallsBetween w = true) :
    ∃ ops1 ops2, ops = ops1 ++ ops2 ∧ before = ops1.map encode ∧ after = ops2.map encode ∧
      (ops1.map pushedBytes).flatten = [] := by
  obtain ⟨ops1, ops2, rfl, rfl, rfl⟩ := List.map_eq_append_iff.mp hsplit
  refine ⟨ops1, ops2, rfl, rfl, rfl, ?_⟩
  rw [List.flatten_eq_nil_iff, List.forall_mem_map]
  exact fun i hi => pushedBytes_of_fallsBetween (hbefore _ (List.mem_map_of_mem hi))

/-- A `PUSH` of two bytes or more comes first: the rest of its chunk goes on somewhere among the operations that follow. -/
theorem cons_push_more {b b' : Byte} {bs : List Byte} (htail : ∀ w ∈ tail.head?, fallsBetween w = false)
    (ih : ∀ ops1 ops2 d n, ops = ops1 ++ ops2 → RunsFrom (ops1 ++ .push (b' :: bs) :: ops2) tail d .none n s) :
    RunsFrom (.push (b :: b' :: bs) :: ops) tail d r n s := by
  obtain ⟨before, after, hsplit, hbefore, hstep⟩ := pushByte_more_append b b' bs
    (withRxSide d r (ops.map encode ++ tail) n s) (ops.map encode) tail rfl htail
  obtain ⟨ops1, ops2, hops, rfl, rfl, hnone⟩ := split_push hsplit hbefore
  refine of_pushByte (ops' := ops1 ++ .push (b' :: bs) :: ops2) (d' := deframeStep s.cfg b d) (r' := .none)
    (n' := n + 1) ?_ ?_ ?_ ?_ (ih ops1 ops2 _ _ hops)
  · rw [hstep, List.map_append, List.map_cons, List.append_assoc]
    rfl
  · simp [hops, isPush]
  · simp [hops, stepsOf]
    omega
  · simp [hops, hnone, pushedBytes, deframeAll]

/-- Every run of `PUSH`es and operations that spare the deframer, by induction on its steps. -/
theorem of_allowed (htail : ∀ w ∈ tail.head?, fallsBetween w = false) (hops : PushesAndSparers ops) :
    RunsFrom ops tail d r n s := by
  induction hk : (ops.map stepsOf).sum generalizing ops d r n s with
  | zero =>
    cases ops with
    | nil => exact nil
    | cons i ops =>
      have := stepsOf_pos i
      rw [List.map_cons, List.sum_cons] at hk
      omega
  | succ k ih =>
    cases ops with
    | nil => cases hk
    | cons i ops =>
      obtain ⟨⟨hw, hi⟩, hrest⟩ := List.forall_mem_cons.mp hops
      rw [List.map_cons, List.sum_cons] at hk
      rcases hi with hpush | hspares
      · obtain ⟨c, rfl⟩ := exists_of_isPush hpush
        match c with
        | [] => exact of_pushByte rfl rfl (Nat.add_comm _ _) rfl (ih hrest (by simp [stepsOf] at hk; omega))
        | [b] => exact of_pushByte rfl rfl (Nat.add_comm _ _) rfl (ih hrest (by simp [stepsOf] at hk; omega))
        | b :: b' :: bs =>
          refine cons_push_more htail fun ops1 ops2 d n hsplit => ih (.insert_push _ (hsplit ▸ hrest)) ?_
          simp [hsplit, stepsOf] at hk ⊢
          omega
      · obtain ⟨-, -, hone⟩ := of_sparesDeframer hspares
        exact cons_spares hw hspares fun r t => ih hrest (by omega)

end RunsFrom

/-! ### `NEXT`s behind the run -/

/-- `k + 1` waiting `NEXT`s take the `k + 1` oldest events; the last returns the one at place `k` (R163). -/
theorem stepN_next {rest : List PortEvent} (k : Nat) {s : State}
    (hin : s.inbox = List.replicate (k + 1) (encode .next) ++ rest) :
    stepN (k + 1) s = .next { s with
      rx := { s.rx with evQ := s.rx.evQ.drop (k + 1) }, result := .event s.rx.evQ[k]?, inbox := rest } := by
  induction k generalizing s with
  | zero =>
    rw [stepN_succ 0 (step_of_inbox (i := .next) hin rfl)]
    simp [stepN, popEvent, List.head?_eq_getElem?]
  | succ k ih =>
    rw [stepN_succ (k + 1) (step_of_inbox (i := .next) hin rfl), ih rfl]
    simp [popEvent]

end Sys2Proof.Machine

namespace Sys2Proof.Proofs

open Sys2Proof.Machine

/-- Settles O24: both parts are the same run (`RunsFrom.of_allowed`), with nothing behind it, and with the `NEXT`s behind it,
which no chunk's rest passes. -/
theorem operationsBetweenPushedBytesDoNotMatter : Obligations.OperationsBetweenPushedBytesDoNotMatter := by
  intro s ops hops
  constructor
  · intro hin
    obtain ⟨u, r', n', hall, hcfg, hrun⟩ :=
      RunsFrom.of_allowed (tail := []) (d := s.rx) (r := s.result) (n := s.freeUse) (s := s) (by simp) hops
    rw [List.append_nil, ← hin, withRxSide_self] at hrun
    exact ⟨_, u, hrun, rfl, hcfg, rfl, hall, rfl, rfl, rfl⟩
  · intro k rest hin
    obtain ⟨u, r', n', -, -, hrun⟩ :=
      RunsFrom.of_allowed (tail := List.replicate (k + 1) (encode .next) ++ rest) (d := s.rx) (r := s.result)
        (n := s.freeUse) (s := s) (by simp [List.replicate_succ, fallsBetween_next]) hops
    rw [← List.append_assoc, ← hin, withRxSide_self] at hrun
    exact ⟨_, (stepN_add _ _ hrun).trans (stepN_next k rfl), rfl, rfl, rfl⟩

end Sys2Proof.Proofs
end

section
/-! SUPPORT. The stored frame and the bytes to transmit (20_memory.md R62, R72; 42_session.md R199): what each operation of the
assembled block does to them. -/

namespace Sys2Proof.Machine

variable {cfg : Config} {d d' : Deframer} {s : State}

/-- The next state of an operation is the one it is defined to answer. -/
theorem eq_of_next {t u : State} (h : (.next u : Answer) = .next t) : u = t := by
  injection h

/-! ### Where an `Ack` comes from -/

/-- A step that goes on with a frame leaves an empty `ev_q` empty. -/
theorem GoesOn.evQ_ne (h : GoesOn d d') (hd : d.evQ = []) (e : Event) : d'.evQ ≠ [e] := by
  simp [h.silent, hd]

theorem frameEvent_ne_ack (d : Deframer) : frameEvent d ≠ .ack := by
  cases h : d.rxBad <;> simp [frameEvent, h]

/-- The only byte the deframer reports as an `Ack` is a `+` in `HUNT` (R146). -/
theorem hunt_plus_of_evQ_ack {b : Byte} (hd : d.evQ = []) (h : (deframeStep cfg b d).evQ = [.ack]) :
    d.rxState = .hunt ∧ b = 0x2B := by
  have hint : (emit .interrupt d).evQ ≠ [.ack] := by simp [emit, hd]
  unfold deframeStep at h
  cases hs : d.rxState with
  | hunt =>
    simp only [hs] at h
    split_ifs at h with _ hplus
    · exact absurd h ((GoesOn.huntStart cfg d).evQ_ne hd _)
    · exact ⟨rfl, hplus⟩
    · simp [rxHuntNack, emit, hd] at h
    · exact absurd h hint
    · simp [rxHuntNoise, hd] at h
  | esc =>
    simp only [hs] at h
    exact absurd h ((GoesOn.escLit cfg b d).evQ_ne hd _)
  | body =>
    have hf : d.rxState ≠ .hunt := by simp [hs]
    simp only [hs] at h
    split_ifs at h
    · exact absurd h hint
    · exact absurd h ((GoesOn.bodyEnd cfg d).evQ_ne hd _)
    · exact absurd h ((GoesOn.bodyEscMark cfg d).evQ_ne hd _)
    · exact absurd h ((GoesOn.bodyRleMark cfg d).evQ_ne hd _)
    · exact absurd h ((GoesOn.bodyRawDollar cfg hf).evQ_ne hd _)
    · exact absurd h ((GoesOn.bodyData cfg b hf).evQ_ne hd _)
  | rle =>
    simp only [hs] at h
    split_ifs at h
    · exact absurd h hint
    · exact absurd h ((GoesOn.rleCount cfg b d).evQ_ne hd _)
    · exact absurd h ((GoesOn.rleBadcount cfg b d).evQ_ne hd _)
  | ck1 =>
    simp only [hs] at h
    split_ifs at h
    · exact absurd h hint
    · exact absurd h ((GoesOn.ck1 cfg b d).evQ_ne hd _)
  | ck2 =>
    simp only [hs] at h
    split_ifs at h
    · exact absurd h hint
    · simp [rxCk2, clearFrame, emit, hd, frameEvent_ne_ack] at h

/-- What `RX_BYTE` can do between operations (R181): it changes the deframer only, or the deframer and what the session's
reaction to one event changes; an `Ack` is a `+` in `HUNT`. -/
theorem rxByte_reaction_cases (h : BlockInv s) (b : Byte) :
    (∃ d, rxByte b s = { s with rx := d }) ∨
    ∃ e d, rxByte b s = sessionEvent e { s with rx := d } ∧ (e = .ack → s.rx.rxState = .hunt ∧ b = 0x2B) := by
  rcases rxByte_cases b s with ⟨-, he⟩ | ⟨-, he⟩ <;> rw [he]
  · exact .inl ⟨s.rx, rfl⟩
  · rcases (deframeStep_outcome s.cfg b s.rx).evQ with hq | ⟨e, hq⟩ <;> rw [h.events_drained] at hq
    · exact .inl ⟨_, drain_nil _ hq⟩
    · have hq' : (receive b s).rx.evQ = [e] := hq
      rw [hq', List.length_singleton, drain, hq']
      exact .inr ⟨e, _, rfl, fun hack => hunt_plus_of_evQ_ack h.events_drained (hack ▸ hq)⟩

/-! ### The stored frame -/

/-- In `ACK_PENDING` a frame is stored (R43 (6)). -/
theorem SessionInv.exists_txStored {m : Session} (h : SessionInv cfg m) (hp : m.sessState = .ackPending) :
    ∃ f, m.txStored = some f :=
  Option.ne_none_iff_exists'.mp (h.stored_iff_pending.mpr hp)

/-- `retry_or_fail` leaves the stored frame, or clears it and closes the session. -/
theorem retryOrFail_txStored (s : State) : (retryOrFail s).sess.txStored = s.sess.txStored ∨
    ((retryOrFail s).sess.txStored = none ∧ (retryOrFail s).sess.sessState = .closed) := by
  rcases retryOrFail_cases s with ⟨-, h⟩ | ⟨-, h⟩ <;> rw [h]
  · exact .inr ⟨rfl, rfl⟩
  · exact .inl (by rw [retransmit_sess])

/-- A reaction leaves the stored frame, or clears it: for an `Ack`, or in a close. -/
theorem sessionEvent_txStored (e : Event) (s : State) : (sessionEvent e s).sess.txStored = s.sess.txStored ∨
    ((sessionEvent e s).sess.txStored = none ∧ (e = .ack ∨ (sessionEvent e s).sess.sessState = .closed)) := by
  cases e with
  | ack =>
    rcases evAck_cases s with ⟨-, h⟩ | ⟨-, h⟩
    · exact .inr ⟨by rw [sessionEvent, h], .inl rfl⟩
    · exact .inl (by rw [sessionEvent, h])
  | nack =>
    rcases evNack_cases s with ⟨-, h⟩ | ⟨-, h⟩ <;> rw [sessionEvent, h]
    · exact (retryOrFail_txStored s).imp_right fun ⟨hnone, hclosed⟩ => ⟨hnone, .inr hclosed⟩
    · exact .inl rfl
  | packet p => exact .inl (by simp [sessionEvent, evPacket])
  | reject c => exact .inl (by simp [sessionEvent, evReject])
  | interrupt => exact .inl rfl

theorem rxByte_txStored (h : BlockInv s) (b : Byte) : (rxByte b s).sess.txStored = s.sess.txStored ∨
    ((rxByte b s).sess.txStored = none ∧
      ((b = 0x2B ∧ s.rx.rxState = .hunt) ∨ (rxByte b s).sess.sessState = .closed)) := by
  rcases rxByte_reaction_cases h b with ⟨d, he⟩ | ⟨e, d, he, hack⟩ <;> rw [he]
  · exact .inl rfl
  · exact (sessionEvent_txStored e { s with rx := d }).imp_right fun ⟨hnone, hwhy⟩ =>
      ⟨hnone, hwhy.imp_left fun he => (hack he).symm⟩

theorem hSend_txStored (p : List Byte) (s : State) : (hSend p s).sess.txStored = s.sess.txStored ∨
    (s.sess.sessState = .idle ∧ (hSend p s).sess.txStored = some (encodeFrame p s.sess.txRleEn)) := by
  rcases hSend_cases p s with ⟨-, h⟩ | ⟨-, h⟩ | ⟨-, -, h⟩ | ⟨hi, -, h⟩ | ⟨-, -, h⟩ <;> rw [h]
  · exact .inl rfl
  · exact .inl rfl
  · exact .inl rfl
  · exact .inr ⟨hi, rfl⟩
  · exact .inl rfl

theorem hTimeout_txStored (s : State) : (hTimeout s).sess.txStored = s.sess.txStored ∨
    ((hTimeout s).sess.txStored = none ∧ (hTimeout s).sess.sessState = .closed) := by
  rcases hTimeout_cases s with ⟨-, h⟩ | ⟨-, h⟩ | ⟨-, h⟩ <;> rw [h]
  · exact .inl rfl
  · exact retryOrFail_txStored s
  · exact .inl rfl

theorem hLinkDown_txStored (s : State) : (hLinkDown s).sess.txStored = s.sess.txStored ∨
    ((hLinkDown s).sess.txStored = none ∧ (hLinkDown s).sess.sessState = .closed) := by
  rcases hLinkDown_cases s with ⟨-, h⟩ | ⟨-, h⟩ <;> rw [h]
  · exact .inl rfl
  · exact .inr ⟨rfl, rfl⟩

@[simp] theorem hSetNoack_txStored (s : State) : (hSetNoack s).sess.txStored = s.sess.txStored := by
  rcases hSetNoack_cases s with ⟨-, h⟩ | ⟨-, h⟩ | ⟨-, h⟩ | ⟨-, h⟩ <;> simp [h]

@[simp] theorem hSetRle_txStored (v : Bool) (s : State) : (hSetRle v s).sess.txStored = s.sess.txStored := by
  rcases hSetRle_cases v s with ⟨-, h⟩ | ⟨-, h⟩ <;> simp [h]

/-! ### The bytes to transmit -/

/-- With a frame stored, `retry_or_fail` appends it whole, or empties `tx_fifo` and closes the session. -/
theorem retryOrFail_txFifo {f : List Byte} (hf : s.sess.txStored = some f) :
    (retryOrFail s).txFifo = s.txFifo ++ f ∨
    ((retryOrFail s).txFifo = [] ∧ (retryOrFail s).sess.sessState = .closed) := by
  rcases retryOrFail_cases s with ⟨-, h⟩ | ⟨-, h⟩ <;> rw [h]
  · exact .inr ⟨rfl, rfl⟩
  · exact .inl (by rw [retransmit_stored _ f (by exact hf), transmit_txFifo])

theorem signalIfAckMode_txFifo_cases (b : Byte) (s : State) :
    (signalIfAckMode b s).txFifo = s.txFifo ∨ (signalIfAckMode b s).txFifo = s.txFifo ++ [b] := by
  rw [signalIfAckMode_txFifo]
  split
  · exact .inr rfl
  · exact .inl rfl

/-- A reaction leaves `tx_fifo`, empties it in a close, or appends one unit: `+`, `-` or the stored frame (R199). -/
theorem sessionEvent_txFifo (h : SessionInv s.cfg s.sess) (e : Event) :
    (sessionEvent e s).txFifo = s.txFifo ∨
    ((sessionEvent e s).txFifo = [] ∧ (sessionEvent e s).sess.sessState = .closed) ∨
    ((sessionEvent e s).txFifo = s.txFifo ++ [0x2B] ∨ (sessionEvent e s).txFifo = s.txFifo ++ [0x2D]) ∨
    ∃ f, s.sess.txStored = some f ∧ (sessionEvent e s).txFifo = s.txFifo ++ f := by
  cases e with
  | ack => rcases evAck_cases s with ⟨-, he⟩ | ⟨-, he⟩ <;> exact .inl (by rw [sessionEvent, he])
  | nack =>
    rcases evNack_cases s with ⟨hp, he⟩ | ⟨-, he⟩ <;> rw [sessionEvent, he]
    · obtain ⟨f, hf⟩ := h.exists_txStored hp
      rcases retryOrFail_txFifo hf with hq | hq
      · exact .inr (.inr (.inr ⟨f, hf, hq⟩))
      · exact .inr (.inl hq)
    · exact .inl rfl
  | packet p => exact (signalIfAckMode_txFifo_cases 0x2B s).imp_right fun hq => .inr (.inl (.inl hq))
  | reject c => exact (signalIfAckMode_txFifo_cases 0x2D s).imp_right fun hq => .inr (.inl (.inr hq))
  | interrupt => exact .inl rfl

theorem rxByte_txFifo (h : BlockInv s) (b : Byte) :
    (rxByte b s).txFifo = s.txFifo ∨
    ((rxByte b s).txFifo = [] ∧ (rxByte b s).sess.sessState = .closed) ∨
    ((rxByte b s).txFifo = s.txFifo ++ [0x2B] ∨ (rxByte b s).txFifo = s.txFifo ++ [0x2D]) ∨
    ∃ f, s.sess.txStored = some f ∧ (rxByte b s).txFifo = s.txFifo ++ f := by
  rcases rxByte_reaction_cases h b with ⟨d, he⟩ | ⟨e, d, he, -⟩ <;> rw [he]
  · exact .inl rfl
  · exact sessionEvent_txFifo (s := { s with rx := d }) h.session e

theorem hSend_txFifo (p : List Byte) (s : State) : (hSend p s).txFifo = s.txFifo ∨
    (hSend p s).txFifo = s.txFifo ++ encodeFrame p s.sess.txRleEn := by
  rcases hSend_cases p s with ⟨-, h⟩ | ⟨-, h⟩ | ⟨-, -, h⟩ | ⟨-, -, h⟩ | ⟨-, -, h⟩ <;> rw [h]
  · exact .inl rfl
  · exact .inl rfl
  · exact .inl rfl
  · exact .inr rfl
  · exact .inr rfl

theorem hTimeout_txFifo (h : SessionInv s.cfg s.sess) : (hTimeout s).txFifo = s.txFifo ∨
    ((hTimeout s).txFifo = [] ∧ (hTimeout s).sess.sessState = .closed) ∨
    ∃ f, s.sess.txStored = some f ∧ (hTimeout s).txFifo = s.txFifo ++ f := by
  rcases hTimeout_cases s with ⟨-, he⟩ | ⟨hp, he⟩ | ⟨-, he⟩ <;> rw [he]
  · exact .inl rfl
  · obtain ⟨f, hf⟩ := h.exists_txStored hp
    rcases retryOrFail_txFifo hf with hq | hq
    · exact .inr (.inr ⟨f, hf, hq⟩)
    · exact .inr (.inl hq)
  · exact .inl rfl

theorem hLinkDown_txFifo (s : State) : (hLinkDown s).txFifo = s.txFifo ∨
    ((hLinkDown s).txFifo = [] ∧ (hLinkDown s).sess.sessState = .closed) := by
  rcases hLinkDown_cases s with ⟨-, h⟩ | ⟨-, h⟩ <;> rw [h]
  · exact .inl rfl
  · exact .inr ⟨rfl, rfl⟩

@[simp] theorem hSetNoack_txFifo (s : State) : (hSetNoack s).txFifo = s.txFifo := by
  rcases hSetNoack_cases s with ⟨-, h⟩ | ⟨-, h⟩ | ⟨-, h⟩ | ⟨-, h⟩ <;> simp [h]

@[simp] theorem hSetRle_txFifo (v : Bool) (s : State) : (hSetRle v s).txFifo = s.txFifo := by
  rcases hSetRle_cases v s with ⟨-, h⟩ | ⟨-, h⟩ <;> simp [h]

end Sys2Proof.Machine

namespace Sys2Proof.Proofs

open Sys2Proof.Machine

/-- Settles O58, by what each of the block's operations does to the stored frame. -/
theorem storedFrameIsASnapshot : Obligations.StoredFrameIsASnapshot := by
  intro i s t hb h he
  cases i with
  | hStatus | hReserved7 | hReserved8F | hRecv | txPop =>
    obtain rfl := eq_of_next he
    exact .inl rfl
  | hSetNoack =>
    obtain rfl := eq_of_next he
    exact .inl (hSetNoack_txStored s)
  | hSetRle v =>
    obtain rfl := eq_of_next he
    exact .inl (hSetRle_txStored v s)
  | hSend p =>
    obtain rfl := eq_of_next he
    exact (hSend_txStored p s).imp_right fun hstores => .inl ⟨p, rfl, hstores⟩
  | hTimeout =>
    obtain rfl := eq_of_next he
    exact (hTimeout_txStored s).imp_right fun ⟨hnone, hclosed⟩ => .inr ⟨hnone, .inr (.inl hclosed)⟩
  | hLinkDown =>
    obtain rfl := eq_of_next he
    exact (hLinkDown_txStored s).imp_right fun ⟨hnone, hclosed⟩ => .inr ⟨hnone, .inr (.inl hclosed)⟩
  | reset =>
    obtain rfl := eq_of_next he
    exact .inr (.inr ⟨rfl, .inr (.inr rfl)⟩)
  | rxByte b =>
    obtain rfl := eq_of_next he
    rcases rxByte_txStored h b with hkept | ⟨hnone, ⟨rfl, hhunt⟩ | hclosed⟩
    · exact .inl hkept
    · exact .inr (.inr ⟨hnone, .inl ⟨rfl, hhunt⟩⟩)
    · exact .inr (.inr ⟨hnone, .inr (.inl hclosed)⟩)
  | _ => cases hb

/-- Settles O59, by what each of the block's operations does to the bytes to transmit. -/
theorem transmitUnitsAreWhole : Obligations.TransmitUnitsAreWhole := by
  intro i s t hb h he
  cases i with
  | hStatus | hReserved7 | hReserved8F | hRecv =>
    obtain rfl := eq_of_next he
    exact .inl rfl
  | hSetNoack =>
    obtain rfl := eq_of_next he
    exact .inl (hSetNoack_txFifo s)
  | hSetRle v =>
    obtain rfl := eq_of_next he
    exact .inl (hSetRle_txFifo v s)
  | txPop =>
    obtain rfl := eq_of_next he
    exact .inr (.inl ⟨rfl, rfl⟩)
  | reset =>
    obtain rfl := eq_of_next he
    exact .inr (.inr (.inl ⟨rfl, .inr rfl⟩))
  | hLinkDown =>
    obtain rfl := eq_of_next he
    rcases hLinkDown_txFifo s with hq | ⟨hq, hclosed⟩
    · exact .inl hq
    · exact .inr (.inr (.inl ⟨hq, .inl hclosed⟩))
  | hSend p =>
    obtain rfl := eq_of_next he
    rcases hSend_txFifo p s with hq | hq
    · exact .inl hq
    · exact .inr (.inr (.inr (.inr (.inr ⟨p, rfl, hq⟩))))
  | hTimeout =>
    obtain rfl := eq_of_next he
    rcases hTimeout_txFifo h.session with hq | ⟨hq, hclosed⟩ | ⟨f, hf, hq⟩
    · exact .inl hq
    · exact .inr (.inr (.inl ⟨hq, .inl hclosed⟩))
    · exact .inr (.inr (.inr (.inr (.inl ⟨f, hf, hq, .inr rfl⟩))))
  | rxByte b =>
    obtain rfl := eq_of_next he
    rcases rxByte_txFifo h b with hq | ⟨hq, hclosed⟩ | hq | ⟨f, hf, hq⟩
    · exact .inl hq
    · exact .inr (.inr (.inl ⟨hq, .inl hclosed⟩))
    · exact .inr (.inr (.inr (.inl ⟨b, rfl, hq⟩)))
    · exact .inr (.inr (.inr (.inr (.inl ⟨f, hf, hq, .inl ⟨b, rfl⟩⟩))))
  | _ => cases hb

end Sys2Proof.Proofs
end

section
/-! SUPPORT. The statements about the encoding (30_encoding.md R90, R96, R97, R102): what the decoder answers, and the bytes of an
encoded body. -/

namespace Sys2Proof

/-! ### What the decoder answers -/

/-- The byte-class map gives a row that takes operands only the bytes the rows above it left over (R90). -/
theorem selectRow_wf (st : RxState) (b : Byte) : (selectRow st b).WF := by
  cases st with
  | hunt =>
    exact iteInduction (fun _ => rfl) fun h24 => iteInduction (fun _ => rfl) fun h2B =>
      iteInduction (fun _ => rfl) fun h2D => iteInduction (fun _ => rfl) fun h03 =>
        decide_eq_true ⟨h24, h2B, h2D, h03⟩
  | esc => rfl
  | body =>
    exact iteInduction (fun _ => rfl) fun h03 => iteInduction (fun _ => rfl) fun h23 =>
      iteInduction (fun _ => rfl) fun h7D => iteInduction (fun _ => rfl) fun h2A =>
        iteInduction (fun _ => rfl) fun h24 => decide_eq_true ⟨h03, h23, h7D, h2A, h24⟩
  | rle | ck1 | ck2 =>
    exact iteInduction (fun _ => rfl) fun h03 => iteInduction decide_eq_true fun hclass =>
      decide_eq_true ⟨h03, hclass⟩

/-- An answer of the decoder that is an instruction is a well-formed one. -/
def AnswersWF (r : Except DecodeError Instr) : Prop := ∀ i : Instr, r = .ok i → i.WF

namespace AnswersWF

theorem ok {i : Instr} (h : i.WF) : AnswersWF (.ok i) := by
  rintro _ ⟨⟩
  exact h

theorem error (e : DecodeError) : AnswersWF (.error e) := nofun

/-- A selector's row, or what the other selectors answer. -/
theorem ite {c : Prop} [Decidable c] {r r' : Except DecodeError Instr} (h : AnswersWF r) (h' : AnswersWF r') :
    AnswersWF (if c then r else r') := iteInduction (fun _ => h) fun _ => h'

theorem noArg {i : Instr} (h : i.WF) : ∀ arg, AnswersWF (noArg i arg)
  | [] => ok h
  | _ :: _ => error _

theorem byteArg {f : Byte → Instr} (h : ∀ b, (f b).WF) : ∀ arg, AnswersWF (byteArg f arg)
  | [b] => ok (h b)
  | [] | _ :: _ :: _ => error _

theorem rleArg {f : List Byte → Bool → Instr} (h : ∀ p v, (f p v).WF) (arg : List Byte) : AnswersWF (rleArg f arg) := by
  unfold Sys2Proof.rleArg
  repeat' split
  · exact error _
  · exact ok (h _ _)
  · exact error _

theorem decodeWire (bs : List Byte) : AnswersWF (decodeWire bs) := by
  unfold Sys2Proof.decodeWire
  repeat' split
  · exact ok (selectRow_wf _ _)
  · exact error _
  · exact error _

theorem decodeSetRle (arg : List Byte) : AnswersWF (decodeSetRle arg) := by
  unfold Sys2Proof.decodeSetRle
  repeat' split
  · exact ok rfl
  · exact error _
  · exact error _

theorem decodeHost : ∀ bs, AnswersWF (decodeHost bs)
  | [] => error _
  | _ :: arg =>
    .ite (noArg rfl arg) <| .ite (ok rfl) <| .ite (noArg rfl arg) <| .ite (noArg rfl arg) <| .ite (noArg rfl arg) <|
      .ite (noArg rfl arg) <| .ite (decodeSetRle arg) <| .ite (ok rfl) <| .ite (ok rfl) (error _)

theorem decodeReaction (arg : List Byte) : AnswersWF (decodeReaction arg) := by
  unfold Sys2Proof.decodeReaction
  split
  · next e _ => exact ok (by cases e <;> rfl)
  · exact error _

/-- The run `RLE_PLAN` decodes has the length the row asks for (R114). -/
theorem decodePlan (run : List Byte) : AnswersWF (decodePlan run) :=
  iteInduction (fun h4 => ok (decide_eq_true h4)) fun _ => error _

theorem decodeFunc : ∀ bs, AnswersWF (decodeFunc bs)
  | [] => error _
  | _ :: arg =>
    .ite (ok rfl) <| .ite (byteArg (fun _ => rfl) arg) <| .ite (byteArg (fun _ => rfl) arg) <|
      .ite (byteArg (fun _ => rfl) arg) <| .ite (decodePlan arg) <| .ite (rleArg (fun _ _ => rfl) arg) <|
      .ite (rleArg (fun _ _ => rfl) arg) <| .ite (ok rfl) <| .ite (ok rfl) <| .ite (noArg rfl arg) (error _)

theorem decodeMarkBad (arg : List Byte) : AnswersWF (decodeMarkBad arg) := by
  unfold Sys2Proof.decodeMarkBad
  repeat' split
  · exact ok rfl
  · exact error _
  · exact error _

theorem decodeEnterClosed (arg : List Byte) : AnswersWF (decodeEnterClosed arg) := by
  unfold Sys2Proof.decodeEnterClosed
  repeat' split
  · exact ok rfl
  · exact error _
  · exact error _

theorem decodeSessionEvent (arg : List Byte) : AnswersWF (decodeSessionEvent arg) := by
  unfold Sys2Proof.decodeSessionEvent
  split
  · exact ok rfl
  · exact error _

theorem decodeHelper : ∀ bs, AnswersWF (decodeHelper bs)
  | [] => error _
  | _ :: arg =>
    .ite (byteArg (fun _ => rfl) arg) <| .ite (noArg rfl arg) <| .ite (decodeMarkBad arg) <|
      .ite (byteArg (fun _ => rfl) arg) <| .ite (noArg rfl arg) <| .ite (decodeSessionEvent arg) <|
      .ite (noArg rfl arg) <| .ite (decodeEnterClosed arg) (error _)

theorem decode : ∀ w, AnswersWF (decode w)
  | ⟨.wire, bs⟩ => decodeWire bs
  | ⟨.host, bs⟩ => decodeHost bs
  | ⟨.rx, bs⟩ => byteArg (fun _ => rfl) bs
  | ⟨.tx, bs⟩ | ⟨.rst, bs⟩ => noArg rfl bs
  | ⟨.event, bs⟩ => decodeReaction bs
  | ⟨.func, bs⟩ => decodeFunc bs
  | ⟨.helper, bs⟩ => decodeHelper bs

end AnswersWF

end Sys2Proof

namespace Sys2Proof.Machine

/-! ### The bytes of an encoded body -/

/-- A byte that neither begins a frame nor ends its body. -/
abbrev NotDelimiter (b : Byte) : Prop := b ≠ 0x23 ∧ b ≠ 0x24

theorem notDelimiter_of_not_special {b : Byte} (h : isSpecial b = false) : NotDelimiter b := by
  constructor <;> rintro rfl <;> cases h

/-- The escape operands of the four special bytes are 0x03, 0x04, 0x0A and 0x5D. -/
theorem notDelimiter_escapeXor {b : Byte} (h : isSpecial b = true) : NotDelimiter (escapeXor b) := by
  obtain ((rfl | rfl) | rfl) | rfl : ((b = 0x23 ∨ b = 0x24) ∨ b = 0x2A) ∨ b = 0x7D := by simpa [isSpecial] using h
  all_goals decide

theorem rlePlan_le_and_ne (n : Nat) : rlePlan n ≤ 98 ∧ rlePlan n ≠ 7 ∧ rlePlan n ≠ 8 := by
  unfold rlePlan
  dsimp only
  split <;> omega

/-- No count is a delimiter: `#` and `$` would be the counts of 7 and of 8 bytes, which a unit never covers (R114). -/
theorem notDelimiter_countByte_rlePlan (n : Nat) : NotDelimiter (countByte (rlePlan n)) := by
  obtain ⟨h98, h7, h8⟩ := rlePlan_le_and_ne n
  have hcount : (countByte (rlePlan n)).toNat = rlePlan n + 28 := by
    simp only [countByte, BitVec.toNat_ofNat]
    omega
  refine ⟨fun h => h7 ?_, fun h => h8 ?_⟩
  · have h35 : 35 = rlePlan n + 28 := by rwa [h] at hcount
    omega
  · have h36 : 36 = rlePlan n + 28 := by rwa [h] at hcount
    omega

/-- Every byte of an encoded body, operand and count included, is no delimiter (R96). -/
theorem notDelimiter_of_mem_encodeBody (p : List Byte) (rle : Bool) : ∀ c ∈ encodeBody p rle, NotDelimiter c := by
  induction p using encodeBody_induction (rle := rle) with
  | nil => exact fun _ hc => nomatch hc
  | special b p e hsp ih =>
    simp only [List.forall_mem_cons]
    exact ⟨by decide, notDelimiter_escapeXor hsp, ih⟩
  | run b n p e hsp _ ih =>
    simp only [List.forall_mem_cons]
    exact ⟨notDelimiter_of_not_special hsp, by decide, notDelimiter_countByte_rlePlan n, ih⟩
  | literal b p e hsp ih =>
    simp only [List.forall_mem_cons]
    exact ⟨notDelimiter_of_not_special hsp, ih⟩

end Sys2Proof.Machine

namespace Sys2Proof.Proofs

open Sys2Proof.Machine

/-- Settles O6, row by row: each row's round trip is its lemma under `Laws.EncodeRoundTrip`. -/
theorem decodeInvertsEncode : Obligations.DecodeInvertsEncode := by
  intro i hw
  cases i with
  | huntStart => exact Laws.EncodeRoundTrip.huntStart hw
  | huntAck => exact Laws.EncodeRoundTrip.huntAck hw
  | huntNack => exact Laws.EncodeRoundTrip.huntNack hw
  | huntInt => exact Laws.EncodeRoundTrip.huntInt hw
  | huntNoise b => exact Laws.EncodeRoundTrip.huntNoise b hw
  | escLit b => exact Laws.EncodeRoundTrip.escLit b hw
  | inframeInt st => exact Laws.EncodeRoundTrip.inframeInt st hw
  | bodyEnd => exact Laws.EncodeRoundTrip.bodyEnd hw
  | bodyEscMark => exact Laws.EncodeRoundTrip.bodyEscMark hw
  | bodyRleMark => exact Laws.EncodeRoundTrip.bodyRleMark hw
  | bodyRawDollar => exact Laws.EncodeRoundTrip.bodyRawDollar hw
  | bodyData b => exact Laws.EncodeRoundTrip.bodyData b hw
  | rleCount b => exact Laws.EncodeRoundTrip.rleCount b hw
  | rleBadcount b => exact Laws.EncodeRoundTrip.rleBadcount b hw
  | ck1Digit b => exact Laws.EncodeRoundTrip.ck1Digit b hw
  | ck1Baddigit b => exact Laws.EncodeRoundTrip.ck1Baddigit b hw
  | ck2Digit b => exact Laws.EncodeRoundTrip.ck2Digit b hw
  | ck2Baddigit b => exact Laws.EncodeRoundTrip.ck2Baddigit b hw
  | hStatus => exact Laws.EncodeRoundTrip.hStatus hw
  | hSend payload => exact Laws.EncodeRoundTrip.hSend payload hw
  | hRecv => exact Laws.EncodeRoundTrip.hRecv hw
  | hSetNoack => exact Laws.EncodeRoundTrip.hSetNoack hw
  | hTimeout => exact Laws.EncodeRoundTrip.hTimeout hw
  | hLinkDown => exact Laws.EncodeRoundTrip.hLinkDown hw
  | hSetRle v => exact Laws.EncodeRoundTrip.hSetRle v hw
  | hReserved7 arg => exact Laws.EncodeRoundTrip.hReserved7 arg hw
  | hReserved8F low arg => exact Laws.EncodeRoundTrip.hReserved8F low arg hw
  | rxByte b => exact Laws.EncodeRoundTrip.rxByte b hw
  | txPop => exact Laws.EncodeRoundTrip.txPop hw
  | reset => exact Laws.EncodeRoundTrip.reset hw
  | evAck => exact Laws.EncodeRoundTrip.evAck hw
  | evNack => exact Laws.EncodeRoundTrip.evNack hw
  | evPacket payload => exact Laws.EncodeRoundTrip.evPacket payload hw
  | evReject cause => exact Laws.EncodeRoundTrip.evReject cause hw
  | evInterrupt => exact Laws.EncodeRoundTrip.evInterrupt hw
  | cksum s => exact Laws.EncodeRoundTrip.cksum s hw
  | hexenc c => exact Laws.EncodeRoundTrip.hexenc c hw
  | hexdec b => exact Laws.EncodeRoundTrip.hexdec b hw
  | escEnc b => exact Laws.EncodeRoundTrip.escEnc b hw
  | rlePlan run => exact Laws.EncodeRoundTrip.rlePlan run hw
  | encodeBody payload rle => exact Laws.EncodeRoundTrip.encodeBody payload rle hw
  | encodeFrame payload rle => exact Laws.EncodeRoundTrip.encodeFrame payload rle hw
  | decodeFrame buffer => exact Laws.EncodeRoundTrip.decodeFrame buffer hw
  | push chunk => exact Laws.EncodeRoundTrip.push chunk hw
  | next => exact Laws.EncodeRoundTrip.next hw
  | deframeStep b => exact Laws.EncodeRoundTrip.deframeStep b hw
  | countWire => exact Laws.EncodeRoundTrip.countWire hw
  | markBad cause => exact Laws.EncodeRoundTrip.markBad cause hw
  | store v => exact Laws.EncodeRoundTrip.store v hw
  | clearFrame => exact Laws.EncodeRoundTrip.clearFrame hw
  | sessionEvent e => exact Laws.EncodeRoundTrip.sessionEvent e hw
  | retryOrFail => exact Laws.EncodeRoundTrip.retryOrFail hw
  | enterClosed cause => exact Laws.EncodeRoundTrip.enterClosed cause hw

/-- Settles O7, port by port. -/
theorem decodedOperationsAreWellFormed : Obligations.DecodedOperationsAreWellFormed := AnswersWF.decode

/-- Settles O49, by the bytes each turn of the encoder emits. -/
theorem encodedBodyHoldsNoDelimiter : Obligations.EncodedBodyHoldsNoDelimiter := by
  intro p rle
  have hbody := notDelimiter_of_mem_encodeBody p rle
  exact ⟨fun hmem => (hbody _ hmem).1 rfl, fun hmem => (hbody _ hmem).2 rfl⟩

/-- Settles O8: the table is data, and in each state all its 256 keys are looked up in it. -/
theorem selectionFollowsTheOpcodeTable : Obligations.SelectionFollowsTheOpcodeTable := by
  intro st b
  cases st with
  | hunt | body | esc | rle | ck1 | ck2 =>
    revert b
    decide +kernel

/-- Settles O9, by evaluating the decoder on each word. -/
theorem wordsOfTheSpecDecode : Obligations.WordsOfTheSpecDecode :=
  ⟨rfl, rfl, rfl, rfl, rfl, rfl, rfl, rfl, rfl, rfl, rfl, rfl⟩

end Sys2Proof.Proofs
end

section
/-! SUPPORT. The Codec's functions by their values (40_codec.md R110 to R117): sums, digits, escapes, run plans, the encoder
on a payload that starts with a run, and the length of what it emits. -/

namespace Sys2Proof.Machine

/-! ### Sums and digits -/

/-- The checksum is the byte of the sum of the byte values (R110). -/
theorem cksum_eq_ofNat_sum (bs : List Byte) : cksum bs = BitVec.ofNat 8 (bs.map fun b => b.toNat).sum := by
  induction bs with
  | nil => rfl
  | cons b bs ih => rw [cksum, ih, List.map_cons, List.sum_cons, BitVec.ofNat_add, BitVec.ofNat_toNat, BitVec.setWidth_eq]

/-- The code of the digit of a value (R92). -/
theorem toNat_hexdigit (v : Nibble) :
    (hexdigit v).toNat = if v.toNat < 10 then 0x30 + v.toNat else 0x61 + (v.toNat - 10) := by
  revert v
  decide

theorem toNat_highNibble (c : Byte) : (highNibble c).toNat = c.toNat / 16 := by
  have := c.isLt
  simp only [highNibble, BitVec.toNat_ofNat]
  omega

theorem toNat_lowNibble (c : Byte) : (lowNibble c).toNat = c.toNat % 16 := by
  simp only [lowNibble, BitVec.toNat_ofNat]
  omega

/-- The value of a digit, range by range (R91). -/
theorem hexval_eq_some_iff (b : Byte) (v : Nibble) : hexval b = some v ↔
    (0x30 ≤ b.toNat ∧ b.toNat ≤ 0x39 ∧ v.toNat = b.toNat - 0x30) ∨
    (0x41 ≤ b.toNat ∧ b.toNat ≤ 0x46 ∧ v.toNat = b.toNat - 0x41 + 10) ∨
    (0x61 ≤ b.toNat ∧ b.toNat ≤ 0x66 ∧ v.toNat = b.toNat - 0x61 + 10) := by
  unfold hexval
  split_ifs
  · simp only [Option.some.injEq, BitVec.toNat_eq, BitVec.toNat_ofNat]
    omega
  · simp only [Option.some.injEq, BitVec.toNat_eq, BitVec.toNat_ofNat]
    omega
  · simp only [Option.some.injEq, BitVec.toNat_eq, BitVec.toNat_ofNat]
    omega
  · refine iff_of_false nofun ?_
    omega

/-! ### Escapes and run plans -/

/-- The special bytes are `#`, `$`, `*` and the escape marker (R89). -/
theorem isSpecial_iff (b : Byte) : isSpecial b = true ↔ b = 0x23 ∨ b = 0x24 ∨ b = 0x2A ∨ b = 0x7D := by
  simp [isSpecial, or_assoc]

theorem isSpecial_eq_false {b : Byte} (h : b ≠ 0x23 ∧ b ≠ 0x24 ∧ b ≠ 0x2A ∧ b ≠ 0x7D) : isSpecial b = false := by
  rw [← Bool.not_eq_true, isSpecial_iff]
  simpa only [not_or] using h

theorem escEnc_of_special {b : Byte} (h : isSpecial b = true) : escEnc b = [0x7D, b ^^^ 0x20] := if_pos h

theorem escEnc_of_not_special {b : Byte} (h : isSpecial b = false) : escEnc b = [b] := by simp [escEnc, h]

/-- R114, the run's length named in the two cases that are cut short. -/
theorem rlePlan_eq (n : Nat) : rlePlan n = if n = 7 ∨ n = 8 then 6 else min n 98 := by
  unfold rlePlan
  dsimp only
  split_ifs <;> omega

theorem toNat_countByte {k : Nat} (h98 : k ≤ 98) : (countByte k).toNat = k + 28 := by
  simp only [countByte, BitVec.toNat_ofNat]
  omega

/-- The count byte of a run a unit can cover is a valid count (R88). -/
theorem isRunCount_countByte {k : Nat} (h4 : 4 ≤ k) (h98 : k ≤ 98) : IsRunCount (countByte k) := by
  rw [IsRunCount, toNat_countByte h98]
  omega

/-! ### The encoder on a payload that starts with a run -/

/-- The run at the start of a payload ends where another byte follows, or nothing. -/
theorem runTail_replicate_append {b : Byte} {p : List Byte} (m : Nat) (hp : p.head? ≠ some b) :
    runTail b (List.replicate m b ++ p) = m := by
  induction m with
  | zero =>
    cases p with
    | nil => rfl
    | cons c p => simpa [runTail] using hp
  | succ m ih => rw [List.replicate_succ, List.cons_append, runTail, if_pos rfl, ih]

/-- What a unit of `k` bytes leaves of a run, with the run's first byte written as the literal in front of it. -/
theorem drop_replicate_append {b : Byte} (p : List Byte) {k m : Nat} (hk1 : 1 ≤ k) (hk : k ≤ m + 1) :
    (List.replicate m b ++ p).drop (k - 1) = List.replicate (m + 1 - k) b ++ p := by
  rw [List.drop_append_of_le_length (by rw [List.length_replicate]; omega), List.drop_replicate]
  congr 2
  omega

theorem encodeBody_special {b : Byte} (p : List Byte) (rle : Bool) (h : isSpecial b = true) :
    encodeBody (b :: p) rle = 0x7D :: escapeXor b :: encodeBody p rle := by
  rw [encodeBody_cons, if_pos h]

/-- With compression a maximal run of 4 or more becomes one run unit. -/
theorem encodeBody_run {b : Byte} {n : Nat} {p : List Byte} (hsp : isSpecial b = false) (hp : p.head? ≠ some b)
    (hn : 4 ≤ n) : encodeBody (List.replicate n b ++ p) true =
      b :: 0x2A :: countByte (rlePlan n) :: encodeBody (List.replicate (n - rlePlan n) b ++ p) true := by
  obtain ⟨m, rfl⟩ : ∃ m, n = m + 1 := ⟨n - 1, by omega⟩
  obtain ⟨hle, h4, -⟩ := rlePlan_bounds (m + 1) hn
  rw [List.replicate_succ, List.cons_append, encodeBody_cons, runTail_replicate_append m hp,
    drop_replicate_append p (by omega) hle]
  simp [hsp, hn]

/-- Without compression, and in a shorter run, one byte becomes a literal. -/
theorem encodeBody_literal {b : Byte} {n : Nat} {p : List Byte} {rle : Bool} (hsp : isSpecial b = false)
    (hp : p.head? ≠ some b) (hn : 1 ≤ n) (hshort : rle = false ∨ n < 4) :
    encodeBody (List.replicate n b ++ p) rle = b :: encodeBody (List.replicate (n - 1) b ++ p) rle := by
  obtain ⟨m, rfl⟩ : ∃ m, n = m + 1 := ⟨n - 1, by omega⟩
  have hturn : (rle && decide (4 ≤ m + 1)) = false := by
    rcases hshort with h | h
    · simp [h]
    · simp; omega
  rw [List.replicate_succ, List.cons_append, encodeBody_cons, runTail_replicate_append m hp, hturn]
  simp [hsp]

/-! ### Lengths -/

/-- Without compression every byte is sent as itself, and a special byte as two. -/
theorem encodeBody_false_length (p : List Byte) :
    (encodeBody p false).length = p.length + (p.filter isSpecial).length := by
  induction p with
  | nil => rfl
  | cons b p ih =>
    cases hsp : isSpecial b <;> simp [encodeBody_cons, hsp, ih] <;> omega

/-- A run unit is three bytes for four or more, so compression sends no more. -/
theorem encodeBody_length_le (p : List Byte) (rle : Bool) :
    (encodeBody p rle).length ≤ p.length + (p.filter isSpecial).length := by
  induction p using encodeBody_induction (rle := rle) with
  | nil => exact Nat.le_refl 0
  | special b p e hsp ih =>
    simp only [List.length_cons, List.filter_cons_of_pos hsp]
    omega
  | run b n p e hsp hn ih =>
    obtain ⟨-, h4, -⟩ := rlePlan_bounds n hn
    simp only [List.length_cons, List.length_append, List.length_replicate, List.filter_append]
    omega
  | literal b p e hsp ih =>
    simp only [List.length_cons, List.filter_cons_of_neg (Bool.eq_false_iff.mp hsp)]
    omega

end Sys2Proof.Machine

namespace Sys2Proof.Proofs

open Sys2Proof.Machine

/-- Settles O42, by the sum of the byte values (`cksum_eq_ofNat_sum`), of which a byte keeps the rest modulo 256. -/
theorem checksumIsTheByteSum : Obligations.ChecksumIsTheByteSum := by
  intro s bytes
  have hmod (n : Nat) : BitVec.ofNat 8 (n % 256) = BitVec.ofNat 8 n := by
    simp [BitVec.toNat_eq]
  rw [hmod, ← cksum_eq_ofNat_sum]
  rfl

/-- Settles O46: the three turns of the encoder on a payload that starts with a special byte or with a maximal run. -/
theorem encodeBodyFollowsTheLoop : Obligations.EncodeBodyFollowsTheLoop := by
  intro s rle
  have hbytes {p body : List Byte} (h : encodeBody p rle = body) :
      exec (.encodeBody p rle) s = .next { s with result := .bytes body } := by
    rw [← h]
    rfl
  refine ⟨hbytes (encodeBody_nil rle), fun b p hb => hbytes (encodeBody_special p rle ((isSpecial_iff b).mpr hb)), ?_⟩
  intro b n p hb hp
  have hsp := isSpecial_eq_false hb
  constructor
  · rintro ⟨rfl, hn⟩
    exact hbytes (encodeBody_run hsp hp hn)
  · rintro ⟨hn, hshort⟩
    exact hbytes (encodeBody_literal hsp hp hn hshort)

/-- Settles O48: a body has at most one more byte for each special byte (`encodeBody_length_le`), and without compression just
that many. -/
theorem encodedLengthIsBounded : Obligations.EncodedLengthIsBounded := by
  intro p
  have hspecial : (p.filter isSpecial).length ≤ p.length := List.length_filter_le _ _
  simp only [encodeFrame_length, encodeBody_false_length]
  refine ⟨by omega, ?_, fun cfg rle hcap => ?_⟩
  · have := encodeBody_length_le p true
    omega
  · have := encodeBody_length_le p rle
    omega

/-- Settles O43: the codes of the two nibbles' digits, and the value of a digit by its three ranges. -/
theorem hexDigitsEncodeAndDecode : Obligations.HexDigitsEncodeAndDecode := by
  constructor
  · intro s c
    refine ⟨hexdigit (highNibble c), hexdigit (lowNibble c), rfl, ?_, ?_⟩
    · rw [toNat_hexdigit, toNat_highNibble]
    · rw [toNat_hexdigit, toNat_lowNibble]
  · exact fun s b => ⟨hexval b, rfl, hexval_eq_some_iff b⟩

/-- Settles O44, by whether the byte is special (R89). -/
theorem escapeEncodesTheFourSpecialBytes : Obligations.EscapeEncodesTheFourSpecialBytes := by
  intro s b
  constructor
  · intro hb
    rw [← escEnc_of_special ((isSpecial_iff b).mpr hb)]
    rfl
  · intro hb
    rw [← escEnc_of_not_special (isSpecial_eq_false hb)]
    rfl

/-- Settles O45, by the bounds of a run plan and of its count byte. -/
theorem runPlanCoversAtMostTheRun : Obligations.RunPlanCoversAtMostTheRun := by
  intro s run hrun
  obtain ⟨hle, h4, h98⟩ := rlePlan_bounds run hrun
  obtain ⟨h23, h24⟩ := notDelimiter_countByte_rlePlan run
  exact ⟨rlePlan run, rfl, rlePlan_eq run, h4, hle, isRunCount_countByte h4 h98, h23, h24⟩

/-- Settles O47: the frame is laid out around the body `ENCODE_BODY` answers (`encodeFrame`, R116). -/
theorem encodeFrameLaysOutTheFrame : Obligations.EncodeFrameLaysOutTheFrame := by
  intro s p rle
  have hlayout : encodeFrame p rle = [0x24] ++ encodeBody p rle ++ [0x23] ++ hexenc (cksum (encodeBody p rle)) := by
    simp [encodeFrame]
  refine ⟨encodeBody p rle, rfl, ?_⟩
  rw [← hlayout]
  rfl

end Sys2Proof.Proofs
end

section
/-! SUPPORT. `DECODE_FRAME` and the deframer over the same bytes (40_codec.md R118, R120): events are only appended to `ev_q`,
so the scan stops at the byte that emits the first one. -/

namespace Sys2Proof.Machine

variable {cfg : Config} {d : Deframer}

/-! ### The deframer appends its events -/

theorem evQ_isPrefix_deframeStep (cfg : Config) (b : Byte) (d : Deframer) : d.evQ <+: (deframeStep cfg b d).evQ := by
  rcases (deframeStep_outcome cfg b d).evQ with h | ⟨e, h⟩
  · exact ⟨[], by rw [h, List.append_nil]⟩
  · exact ⟨[e], h.symm⟩

theorem evQ_isPrefix_deframeAll (cfg : Config) (bs : List Byte) (d : Deframer) :
    d.evQ <+: (deframeAll cfg bs d).evQ := by
  induction bs generalizing d with
  | nil => exact List.prefix_rfl
  | cons b bs ih => exact (evQ_isPrefix_deframeStep cfg b d).trans (ih _)

/-- Bytes that leave `ev_q` empty emit nothing at the first of them either. -/
theorem evQ_deframeStep_eq_nil {b : Byte} {bs : List Byte} (h : (deframeAll cfg (b :: bs) d).evQ = []) :
    (deframeStep cfg b d).evQ = [] :=
  List.prefix_nil.mp (h ▸ evQ_isPrefix_deframeAll cfg bs (deframeStep cfg b d))

/-! ### The scan -/

/-- The scan goes on past a byte that emits nothing. -/
theorem decodeScan_cons_of_silent {b : Byte} (bs : List Byte) (n : Nat) (h : (deframeStep cfg b d).evQ = []) :
    decodeScan cfg (b :: bs) n d = decodeScan cfg bs (n + 1) (deframeStep cfg b d) := by
  simp [decodeScan, h]

/-- The scan stops at a byte that emits an event. -/
theorem decodeScan_cons_of_event {b : Byte} {e : Event} {q : List Event} (bs : List Byte) (n : Nat)
    (h : (deframeStep cfg b d).evQ = e :: q) : decodeScan cfg (b :: bs) n d = decodeOutcome e (n + 1) := by
  simp [decodeScan, h]

/-- The scan goes on past bytes that emit nothing. -/
theorem decodeScan_append_of_silent {before : List Byte} (rest : List Byte) (n : Nat)
    (h : (deframeAll cfg before d).evQ = []) :
    decodeScan cfg (before ++ rest) n d = decodeScan cfg rest (n + before.length) (deframeAll cfg before d) := by
  induction before generalizing n d with
  | nil => rfl
  | cons b before ih =>
    rw [List.cons_append, decodeScan_cons_of_silent _ n (evQ_deframeStep_eq_nil h), ih (n + 1) h, List.length_cons,
      Nat.add_right_comm, Nat.add_assoc, deframeAll]

theorem decodeOutcome_ne_incomplete (e : Event) (n : Nat) : decodeOutcome e n ≠ .incomplete := by
  cases e <;> nofun

/-- The scan finds no event exactly when the bytes emit none. -/
theorem decodeScan_eq_incomplete_iff (bs : List Byte) (n : Nat) (hd : d.evQ = []) :
    decodeScan cfg bs n d = .incomplete ↔ (deframeAll cfg bs d).evQ = [] := by
  induction bs generalizing n d with
  | nil => simp [decodeScan, deframeAll, hd]
  | cons b bs ih =>
    cases hq : (deframeStep cfg b d).evQ with
    | nil =>
      rw [decodeScan_cons_of_silent bs n hq]
      exact ih (n + 1) hq
    | cons e q =>
      rw [decodeScan_cons_of_event bs n hq]
      refine iff_of_false (decodeOutcome_ne_incomplete e _) fun hnil => ?_
      rw [evQ_deframeStep_eq_nil hnil] at hq
      cases hq

/-- R118: the outcome is that of the first event, with the bytes up to it consumed. -/
theorem decodeFrame_of_first_event {before : List Byte} {b : Byte} {e : Event} (after : List Byte)
    (hsilent : (deframeAll cfg before Deframer.reset).evQ = [])
    (hevent : (deframeAll cfg (before ++ [b]) Deframer.reset).evQ = [e]) :
    decodeFrame cfg (before ++ b :: after) = decodeOutcome e (before.length + 1) := by
  rw [deframeAll_append] at hevent
  rw [decodeFrame, decodeScan_append_of_silent _ 0 hsilent, Nat.zero_add, decodeScan_cons_of_event _ _ hevent]

/-! ### The event of an encoded frame is emitted at its last byte -/

theorem deframeStep_terminator (hs : d.rxState = .body) : deframeStep cfg 0x23 d = rxBodyEnd cfg d := by
  simp [deframeStep, hs]

theorem deframeStep_ck1 {b : Byte} (hs : d.rxState = .ck1) (hb : b ≠ 0x03) : deframeStep cfg b d = rxCk1 cfg b d := by
  simp only [deframeStep, hs, if_neg hb]

theorem deframeStep_ck2 {b : Byte} (hs : d.rxState = .ck2) (hb : b ≠ 0x03) : deframeStep cfg b d = rxCk2 cfg b d := by
  simp only [deframeStep, hs, if_neg hb]

/-- The terminator and the first checksum digit emit nothing (R158, R159). -/
theorem evQ_deframeAll_terminator_digit {b : Byte} (hs : d.rxState = .body) (hb : b ≠ 0x03) :
    (deframeAll cfg [0x23, b] d).evQ = d.evQ := by
  rw [deframeAll, deframeStep_terminator hs, deframeAll, deframeStep_ck1 rfl hb, deframeAll, (GoesOn.ck1 _ _ _).silent,
    (GoesOn.bodyEnd _ _).silent]

/-- An encoded frame without its last checksum digit. -/
def frameButLastDigit (p : List Byte) (rle : Bool) : List Byte :=
  0x24 :: (encodeBody p rle ++ [0x23, hexdigit (highNibble (cksum (encodeBody p rle)))])

theorem encodeFrame_eq_append_digit (p : List Byte) (rle : Bool) :
    encodeFrame p rle = frameButLastDigit p rle ++ [hexdigit (lowNibble (cksum (encodeBody p rle)))] := by
  simp [encodeFrame, frameButLastDigit, hexenc]

/-- Of a valid payload's frame no byte before the last one emits an event (R120). -/
theorem evQ_deframeAll_frameButLastDigit {rle : Bool} {p : List Byte} (hp : ValidPayload cfg rle p) :
    (deframeAll cfg (frameButLastDigit p rle) Deframer.reset).evQ = [] := by
  obtain ⟨h3, hlen, hpay⟩ := hp
  rw [encodeFrame_length] at hlen
  have hbody : deframeAll cfg (encodeBody p rle) frameStarted = bodyTaken p (encodeBody p rle) frameStarted :=
    DecodesTo.encodeBody p rle frameStarted rfl rfl h3 (by simp only [frameStarted]; omega)
      (by simpa [frameStarted, Deframer.reset] using hpay)
  obtain ⟨-, hdigit⟩ := hexval_hexdigit (highNibble (cksum (encodeBody p rle)))
  rw [frameButLastDigit, deframeAll, deframeStep_dollar (by omega), deframeAll_append, hbody,
    evQ_deframeAll_terminator_digit rfl hdigit]
  rfl

/-- R120 for `decode_frame`: it gives a valid payload back from its frame, and consumes the frame whole. -/
theorem decodeFrame_encodeFrame {rle : Bool} {p : List Byte} (hp : ValidPayload cfg rle p) :
    decodeFrame cfg (encodeFrame p rle) = .complete p (encodeFrame p rle).length := by
  have hall := congrArg Deframer.evQ (deframeAll_encodeFrame hp)
  rw [encodeFrame_eq_append_digit] at hall ⊢
  rw [decodeFrame_of_first_event [] (evQ_deframeAll_frameButLastDigit hp) hall, List.length_append]
  rfl

/-! ### The deframer's step as an operation -/

/-- `deframe_step` on one byte after another is the deframer over those bytes. -/
theorem execAll_deframeStep (b : Byte) (bs : List Byte) (s : State) :
    execAll ((b :: bs).map Instr.deframeStep) s =
      .next { s with rx := deframeAll s.cfg (b :: bs) s.rx, result := .none } := by
  induction bs generalizing b s with
  | nil => rfl
  | cons c bs ih => exact ih c (onRx (fun cfg => deframeStep cfg b) s)

end Sys2Proof.Machine

namespace Sys2Proof.Proofs

open Sys2Proof.Machine

/-- Settles O51: the round trip on the deframer's registers (`deframeAll_encodeFrame`), which `decode_frame` scans for the
first event and a run of `deframe_step`s goes through. -/
theorem encodeThenDecodeIsTheIdentity : Obligations.EncodeThenDecodeIsTheIdentity := by
  intro s p rle hp
  constructor
  · rw [← decodeFrame_encodeFrame hp]
    rfl
  · intro hreset
    rw [encodeFrame, execAll_deframeStep, ← encodeFrame, hreset, deframeAll_encodeFrame hp]

/-- Settles O50: the scan stops at the first event (`decodeFrame_of_first_event`), and finds none exactly when none is emitted
(`decodeScan_eq_incomplete_iff`). -/
theorem decodeFrameReportsTheFirstEvent : Obligations.DecodeFrameReportsTheFirstEvent := by
  intro s buffer
  refine ⟨decodeFrame s.cfg buffer, rfl, decodeScan_eq_incomplete_iff buffer 0 rfl, ?_⟩
  rintro before b after e rfl hsilent hevent
  rw [decodeFrame_of_first_event after hsilent hevent]
  cases e <;> rfl

end Sys2Proof.Proofs
end

section
/-! SUPPORT. The checksum field of a good frame (40_codec.md R121; 41_deframer.md R159, R160): the event any two bytes in it end
the frame in, and what a flipped bit makes of a digit. -/

namespace Sys2Proof.Machine

variable {cfg : Config} {d : Deframer} {s t : State}

/-! ### The value of the field -/

theorem toNat_ckField (hi lo : Nibble) : (ckField hi lo).toNat = 16 * hi.toNat + lo.toNat := by
  have := hi.isLt
  have := lo.isLt
  simp only [ckField, BitVec.toNat_ofNat]
  omega

/-- Two fields have the same value only when both digits do. -/
theorem ckField_inj {hi lo hi' lo' : Nibble} : ckField hi lo = ckField hi' lo' ↔ hi = hi' ∧ lo = lo' := by
  have := lo.isLt
  have := lo'.isLt
  simp only [BitVec.toNat_eq, toNat_ckField]
  omega

/-! ### The two checksum positions -/

/-- The event a good frame ends in, by what its two checksum bytes are as digits (R159, R160). -/
def fieldEvent (d : Deframer) (hi lo : Option Nibble) : Event :=
  match hi, lo with
  | some hi, some lo => if ckField hi lo = d.rxSum then .packet d.rxPayload else .reject .ckMismatch
  | _, _ => .reject .badCkDigit

/-- The second checksum position ends the frame with the registers at their reset values. -/
theorem rxCk2_eq (cfg : Config) (b : Byte) (d : Deframer) :
    rxCk2 cfg b d = { Deframer.reset with evQ := d.evQ ++ [frameEvent (checkField b (countWire cfg d))] } := by
  simp [rxCk2, clearFrame, emit, Deframer.reset]

/-- The event of a good frame at its second checksum position. -/
theorem frameEvent_checkField_of_ok (b : Byte) (hok : d.rxBad = .ok) :
    frameEvent (checkField b d) = fieldEvent d (some d.rxCkHi) (hexval b) := by
  cases hv : hexval b with
  | none => simp [checkField, hv, markBad_of_ok _ hok, frameEvent, fieldEvent]
  | some lo =>
    by_cases hm : ckField d.rxCkHi lo = d.rxSum <;>
      simp [checkField, hv, hok, hm, markBad_of_ok _ hok, frameEvent, fieldEvent]

/-- Two bytes in the checksum field of a good frame within the cap end it, unless one of them is an interrupt byte. -/
theorem deframeAll_field {x y : Byte} (hs : d.rxState = .ck1) (hok : d.rxBad = .ok)
    (hw : d.rxWireLen + 2 ≤ cfg.maxFrame) (hx : x ≠ 0x03) (hy : y ≠ 0x03) :
    deframeAll cfg [x, y] d = { Deframer.reset with evQ := d.evQ ++ [fieldEvent d (hexval x) (hexval y)] } := by
  have h1 : countWire cfg d = { d with rxWireLen := d.rxWireLen + 1 } := countWire_of_lt (by omega)
  rw [deframeAll, deframeStep_ck1 hs hx, deframeAll, deframeStep_ck2 rfl hy, deframeAll, rxCk2_eq, rxCk1, h1]
  cases hv : hexval x with
  | none =>
    rw [markBad_of_ok _ (by exact hok), countWire_of_lt (by simp only; omega), checkField_of_bad y rfl]
    rfl
  | some hi =>
    rw [countWire_of_lt (by simp only; omega), frameEvent_checkField_of_ok y (by exact hok)]
    rfl

/-- An interrupt byte in the checksum field is reported, and leaves the field waiting for the digit it took the place of. -/
theorem deframeStep_interrupt_field (hs : d.rxState = .ck1 ∨ d.rxState = .ck2) :
    deframeStep cfg 0x03 d = emit .interrupt d := by
  rcases hs with hs | hs <;> simp only [deframeStep, hs] <;> rfl

/-! ### A flipped bit of a digit -/

theorem ne_interrupt_of_hexval {b : Byte} {v : Nibble} (h : hexval b = some v) : b ≠ 0x03 := by
  rintro rfl
  cases h

/-- Bit 5 is the case bit of a letter: both cases have one value (R91). -/
theorem hexval_flipBit_case {b : Byte} (hb : hexval b ≠ none) (hl : isLetter b = true) :
    hexval (flipBit b 5) = hexval b := by
  revert b
  decide +kernel

/-- Every other flip takes the value of a digit away or changes it. -/
theorem hexval_flipBit_ne {b : Byte} {k : Fin 8} (hb : hexval b ≠ none) (hk : ¬ (k = 5 ∧ isLetter b = true)) :
    hexval (flipBit b k) ≠ hexval b := by
  revert b k
  decide +kernel

/-- The only digit one bit away from 0x03 is `C`. -/
theorem flipBit_eq_interrupt_iff {b : Byte} {k : Fin 8} (hb : hexval b ≠ none) :
    flipBit b k = 0x03 ↔ b = 0x43 ∧ k = 6 := by
  revert b k
  decide +kernel

/-- R121 for one position of the field, the other holding the right digit: `ends` gives the event by the value of what arrives
in place of the digit `b` of value `v`, and only `v` itself ends the frame in its packet. -/
theorem flipOutcome_of_field {b : Byte} {v : Nibble} {k : Fin 8} {ends : Option Nibble → Event} (hb : hexval b = some v)
    (hnone : ends none = .reject .badCkDigit) (hgood : ends (some v) = .packet s.rx.rxPayload)
    (hother : ∀ v', v' ≠ v → ends (some v') = .reject .ckMismatch)
    (hint : flipBit b k = 0x03 → t.rx.evQ = s.rx.evQ ++ [.interrupt] ∧ t.rx.rxState = .ck2)
    (hend : flipBit b k ≠ 0x03 →
      t.rx = { Deframer.reset with evQ := s.rx.evQ ++ [ends (hexval (flipBit b k))] }) :
    FlipOutcome b k s t := by
  have hdigit : hexval b ≠ none := by simp [hb]
  unfold FlipOutcome
  split_ifs with hcase hC hbad
  · obtain ⟨rfl, hl⟩ := hcase
    have hv : hexval (flipBit b 5) = some v := (hexval_flipBit_case hdigit hl).trans hb
    rw [hend (ne_interrupt_of_hexval hv), hv, hgood]
  · exact hint ((flipBit_eq_interrupt_iff hdigit).mpr hC)
  · rw [hend (mt (flipBit_eq_interrupt_iff hdigit).mp hC), hbad, hnone]
  · obtain ⟨v', hv'⟩ := Option.ne_none_iff_exists'.mp hbad
    have hne : v' ≠ v := by
      rintro rfl
      exact hexval_flipBit_ne hdigit hcase (hv'.trans hb.symm)
    rw [hend (mt (flipBit_eq_interrupt_iff hdigit).mp hC), hv', hother v' hne]

end Sys2Proof.Machine

namespace Sys2Proof.Proofs

open Sys2Proof.Machine

/-- Settles O52: the event the two bytes of the field end the frame in (`deframeAll_field`), in the first and in the second
position. -/
theorem checksumFieldIsSensitive : Obligations.ChecksumFieldIsSensitive := by
  intro s d1 d2 v1 v2 k hs hok hw h1 h2 hsum
  have hfield : ckField v1 v2 = s.rx.rxSum := BitVec.eq_of_toNat_eq ((toNat_ckField v1 v2).trans hsum)
  have hrun (x y : Byte) : execAll [.deframeStep x, .deframeStep y] s =
      .next { s with rx := deframeAll s.cfg [x, y] s.rx, result := .none } := execAll_deframeStep x [y] s
  have h13 := ne_interrupt_of_hexval h1
  have h23 := ne_interrupt_of_hexval h2
  have hgood : fieldEvent s.rx (some v1) (some v2) = .packet s.rx.rxPayload := if_pos hfield
  refine ⟨⟨_, hrun d1 d2, ?_⟩, ⟨_, hrun _ d2, ?_⟩, ⟨_, hrun d1 _, ?_⟩⟩
  · rw [← hgood, ← h1, ← h2]
    exact deframeAll_field hs hok hw h13 h23
  · refine flipOutcome_of_field (ends := fun hi => fieldEvent s.rx hi (some v2)) h1 rfl hgood ?_ ?_ ?_
    · exact fun v' hv' => if_neg fun h => hv' (ckField_inj.mp (h.trans hfield.symm)).1
    · intro hflip
      rw [hflip, deframeAll, deframeStep_interrupt_field (.inl hs), deframeAll,
        deframeStep_ck1 (by exact hs) h23]
      exact ⟨(GoesOn.ck1 _ _ _).silent, rfl⟩
    · intro hflip
      rw [← h2]
      exact deframeAll_field hs hok hw hflip h23
  · refine flipOutcome_of_field (ends := fun lo => fieldEvent s.rx (some v1) lo) h2 rfl hgood ?_ ?_ ?_
    · exact fun v' hv' => if_neg fun h => hv' (ckField_inj.mp (h.trans hfield.symm)).2
    · intro hflip
      rw [hflip, deframeAll, deframeStep_ck1 hs h13, deframeAll, deframeStep_interrupt_field (.inr rfl)]
      exact ⟨congrArg (· ++ [Event.interrupt]) (GoesOn.ck1 _ _ _).silent, rfl⟩
    · intro hflip
      rw [← h1]
      exact deframeAll_field hs hok hw h13 hflip

end Sys2Proof.Proofs
end

section
/-! SUPPORT. The deframer's rules in closed form (41_deframer.md R141 to R160): the registers after a rule are those it writes,
and `rx_bad` and `rx_payload` as the checks it makes leave them. -/

namespace Sys2Proof.Machine

variable {cfg : Config} {d : Deframer} {l l' : List (Bool × Cause)} {c : Cause}

/-- A rule's operation answers the state with the registers the rule gives. -/
theorem next_onRx {f : Config → Deframer → Deframer} {s : State} (h : f s.cfg s.rx = d) :
    (.next (onRx f s) : Answer) = .next { s with rx := d, result := .none } := by
  rw [← h]
  rfl

/-! ### Checks in order -/

/-- `d` after checks made in the order given, with `good` in the payload buffer when no cause stands. -/
def afterChecks (l : List (Bool × Cause)) (good : List Byte) (d : Deframer) : Deframer :=
  { d with rxBad := firstCause d.rxBad l, rxPayload := heldPayload d.rxBad (firstCause d.rxBad l) d.rxPayload good }

/-- The first cause sticks (R142). -/
@[simp] theorem firstCause_bad (c : Cause) (l : List (Bool × Cause)) : firstCause (.bad c) l = .bad c := by
  rw [firstCause]

theorem firstCause_append (bad : RxBad) (l l' : List (Bool × Cause)) :
    firstCause bad (l ++ l') = firstCause (firstCause bad l) l' := by
  cases bad with
  | bad c => simp
  | ok =>
    induction l with
    | nil => rfl
    | cons check l ih =>
      obtain ⟨fires, c⟩ := check
      cases fires with
      | true => exact (firstCause_bad c l').symm
      | false => exact ih

/-- A check that does not fire does not count. -/
theorem afterChecks_append_passes (l : List (Bool × Cause)) (c : Cause) (good : List Byte) (d : Deframer) :
    afterChecks (l ++ [(false, c)]) good d = afterChecks l good d := by
  have hcause : firstCause d.rxBad (l ++ [(false, c)]) = firstCause d.rxBad l := by
    rw [firstCause_append]
    cases firstCause d.rxBad l <;> rfl
  rw [afterChecks, hcause, afterChecks]

theorem ok_or_bad (d : Deframer) : d.rxBad = .ok ∨ ∃ c, d.rxBad = .bad c := by
  cases d.rxBad with
  | ok => exact .inl rfl
  | bad c => exact .inr ⟨c, rfl⟩

/-- No cause stands after the checks only when none stood before. -/
theorem eq_ok_of_firstCause_eq_ok {bad : RxBad} (h : firstCause bad l = .ok) : bad = .ok := by
  cases bad with
  | ok => rfl
  | bad c => simp at h

/-- Checks none of which fires, on a good frame, change nothing. -/
theorem afterChecks_of_ok (h : firstCause d.rxBad l = .ok) : afterChecks l d.rxPayload d = d := by
  have hok := eq_ok_of_firstCause_eq_ok h
  rw [afterChecks, h]
  simp only [heldPayload, ← hok]

/-- Behind checks none of which fires, on a good frame, only the later ones count. -/
theorem afterChecks_append_of_ok (good : List Byte) (h : firstCause d.rxBad l = .ok) :
    afterChecks (l ++ l') good d = afterChecks l' good d := by
  rw [afterChecks, firstCause_append, h, ← eq_ok_of_firstCause_eq_ok h]
  rfl

/-- Once a cause stands neither later checks count nor what a good frame would hold. -/
theorem afterChecks_append_of_bad (good good' : List Byte) (h : firstCause d.rxBad l = .bad c) :
    afterChecks (l ++ l') good d = afterChecks l good' d := by
  rw [afterChecks, firstCause_append, h, firstCause_bad, afterChecks, h]
  rfl

/-- A frame that is bad goes through checks unchanged. -/
theorem afterChecks_of_bad (l : List (Bool × Cause)) (good : List Byte) (h : d.rxBad = .bad c) :
    afterChecks l good d = d := by
  rw [afterChecks, h, firstCause_bad]
  simp only [heldPayload, ← h]

/-- A check that fires on a good frame (R142). -/
theorem afterChecks_fires (c : Cause) (good : List Byte) (h : d.rxBad = .ok) :
    afterChecks [(true, c)] good d = { d with rxBad := .bad c, rxPayload := [] } := by
  simp [afterChecks, firstCause, heldPayload, h]

/-- A check that does not fire on a good frame. -/
theorem afterChecks_passes (c : Cause) (good : List Byte) (h : d.rxBad = .ok) :
    afterChecks [(false, c)] good d = { d with rxPayload := good } := by
  simp [afterChecks, firstCause, heldPayload, h]

theorem afterChecks_afterChecks (l l' : List (Bool × Cause)) (d : Deframer) :
    afterChecks l' (afterChecks l d.rxPayload d).rxPayload (afterChecks l d.rxPayload d) =
      afterChecks (l ++ l') d.rxPayload d := by
  cases h : firstCause d.rxBad l with
  | ok => rw [afterChecks_append_of_ok _ h, afterChecks_of_ok h]
  | bad c => rw [afterChecks_append_of_bad _ d.rxPayload h, afterChecks_of_bad l' _ h]

/-- The event a frame ends in after the last checks (R160). -/
theorem frameEvent_afterChecks (l : List (Bool × Cause)) (d : Deframer) :
    frameEvent (afterChecks l d.rxPayload d) = endOfFrame (firstCause d.rxBad l) d.rxPayload := by
  cases h : firstCause d.rxBad l <;> simp [frameEvent, afterChecks, h, endOfFrame, heldPayload]

/-- A frame ends in a `Packet` or in a `Reject`. -/
theorem frameEvent_cases (d : Deframer) : (∃ p, frameEvent d = .packet p) ∨ ∃ c, frameEvent d = .reject c := by
  rcases ok_or_bad d with h | ⟨c, h⟩
  · exact .inl ⟨d.rxPayload, by simp [frameEvent, h]⟩
  · exact .inr ⟨c, by simp [frameEvent, h]⟩

/-! ### The helpers as checks -/

/-- `d` with one more wire byte in `rx_wire_len` (R26). -/
def counted (cfg : Config) (d : Deframer) : Deframer :=
  { d with rxWireLen := min (d.rxWireLen + 1) (cfg.maxFrame + 1) }

/-- The check of `count_wire` (R141): the next byte passes the cap. -/
def capCheck (cfg : Config) (d : Deframer) : Bool × Cause := (decide (cfg.maxFrame ≤ d.rxWireLen), .oversize)

/-- The check of `store` (R143): the buffer is full. -/
def fullCheck (cfg : Config) (d : Deframer) : Bool × Cause := (decide (cfg.maxPayload ≤ d.rxPayload.length), .oversize)

/-- The check of `n` times `store` (R155): the buffer has no room for `n` bytes. -/
def copiesCheck (cfg : Config) (n : Nat) (d : Deframer) : Bool × Cause :=
  (decide (cfg.maxPayload < d.rxPayload.length + n), .oversize)

/-- The check at the second checksum digit (R160): the field differs from the sum. -/
def fieldCheck (lo : Nibble) (d : Deframer) : Bool × Cause :=
  (decide (16 * d.rxCkHi.toNat + lo.toNat ≠ d.rxSum.toNat), .ckMismatch)

theorem markBad_eq (c : Cause) (d : Deframer) : markBad c d = afterChecks [(true, c)] d.rxPayload d := by
  cases h : d.rxBad with
  | ok => rw [markBad_of_ok c h, afterChecks_fires c _ h]
  | bad k => rw [markBad_of_bad c h, afterChecks_of_bad _ _ h]

theorem countWire_eq (cfg : Config) (d : Deframer) :
    countWire cfg d = afterChecks [capCheck cfg d] d.rxPayload (counted cfg d) := by
  by_cases h : cfg.maxFrame ≤ d.rxWireLen
  · have hlen : counted cfg d = { d with rxWireLen := cfg.maxFrame + 1 } := by simp [counted]; omega
    rw [countWire_of_ge h, markBad_eq, hlen, capCheck, decide_eq_true h]
  · have hlen : counted cfg d = { d with rxWireLen := d.rxWireLen + 1 } := by simp [counted]; omega
    rw [countWire_of_lt (by omega), hlen, capCheck, decide_eq_false h]
    cases hb : d.rxBad <;> simp [afterChecks, firstCause, heldPayload]

theorem store_eq (cfg : Config) (v : Byte) (d : Deframer) :
    store cfg v d = afterChecks [fullCheck cfg d] (d.rxPayload ++ [v]) { d with rxLast := some v } := by
  rcases ok_or_bad d with hb | ⟨c, hb⟩
  · by_cases h : cfg.maxPayload ≤ d.rxPayload.length
    · rw [store_of_full v hb h, fullCheck, decide_eq_true h, afterChecks_fires _ _ (by exact hb)]
    · rw [store_of_room v hb (by omega), fullCheck, decide_eq_false h, afterChecks_passes _ _ (by exact hb)]
  · rw [store_of_bad v hb, afterChecks_of_bad (c := c) _ _ (by exact hb)]

/-- Copies of the preceding byte (R155): all of them are stored, or none and the frame is `OVERSIZE`. -/
theorem storeN_eq {v : Byte} {n : Nat} (hn : 1 ≤ n) (hl : d.rxLast = some v) :
    storeN cfg v n d = afterChecks [copiesCheck cfg n d] (d.rxPayload ++ List.replicate n v) d := by
  cases hb : d.rxBad with
  | bad c => rw [storeN_of_bad v n hb hl, afterChecks_of_bad _ _ hb]
  | ok =>
    by_cases h : cfg.maxPayload < d.rxPayload.length + n
    · rw [copiesCheck, decide_eq_true h, afterChecks_fires _ _ hb]
      by_cases hfull : cfg.maxPayload < d.rxPayload.length
      · obtain ⟨m, rfl⟩ := Nat.exists_eq_add_of_le' hn
        rw [storeN, store_of_full v hb hfull.le, storeN_of_bad (c := .oversize) v m rfl rfl, ← hl]
      · exact storeN_of_full v n hb hl (by omega) h
    · rw [storeN_of_room v n hb hl (by omega), copiesCheck, decide_eq_false h, afterChecks_passes _ _ hb]

theorem hexval_eq_none_iff (b : Byte) : hexval b = none ↔ ¬ IsHexDigit b := by
  unfold hexval
  split_ifs <;> simp [IsHexDigit, *]

theorem exists_hexval {b : Byte} (hb : IsHexDigit b) : ∃ v, hexval b = some v :=
  Option.ne_none_iff_exists'.mp fun hv => (hexval_eq_none_iff b).mp hv hb

theorem checkField_of_digit {b : Byte} {lo : Nibble} (hv : hexval b = some lo) :
    checkField b d = afterChecks [fieldCheck lo d] d.rxPayload d := by
  have hfield : ckField d.rxCkHi lo ≠ d.rxSum ↔ 16 * d.rxCkHi.toNat + lo.toNat ≠ d.rxSum.toNat := by
    rw [Ne, BitVec.toNat_eq, toNat_ckField]
  cases hb : d.rxBad with
  | bad c => rw [checkField_of_bad b hb, afterChecks_of_bad _ _ hb]
  | ok =>
    by_cases h : 16 * d.rxCkHi.toNat + lo.toNat ≠ d.rxSum.toNat
    · simp [checkField, hv, hb, hfield.mpr h, fieldCheck, h, markBad_eq]
    · have hck := hfield.not.mpr h
      have hnone : firstCause d.rxBad [fieldCheck lo d] = .ok := by rw [hb, fieldCheck, decide_eq_false h]; rfl
      rw [afterChecks_of_ok hnone]
      simp [checkField, hv, hck]

theorem checkField_of_not_digit {b : Byte} (hv : hexval b = none) :
    checkField b d = afterChecks [(true, .badCkDigit)] d.rxPayload d := by
  rw [checkField, hv, markBad_eq]

/-! ### The helpers behind the check of the cap -/

theorem markBad_afterChecks (c : Cause) (l : List (Bool × Cause)) (d : Deframer) :
    markBad c (afterChecks l d.rxPayload d) = afterChecks (l ++ [(true, c)]) d.rxPayload d :=
  (markBad_eq c _).trans (afterChecks_afterChecks l _ d)

theorem store_afterChecks (cfg : Config) (v : Byte) (l : List (Bool × Cause)) (d : Deframer) :
    store cfg v (afterChecks l d.rxPayload d) =
      afterChecks (l ++ [fullCheck cfg d]) (d.rxPayload ++ [v]) { d with rxLast := some v } := by
  cases h : firstCause d.rxBad l with
  | ok => rw [afterChecks_of_ok h, store_eq, afterChecks_append_of_ok _ (by exact h)]
  | bad c => rw [store_of_bad v h, afterChecks_append_of_bad _ d.rxPayload (by exact h)]; rfl

theorem storeN_afterChecks {v : Byte} {n : Nat} (hn : 1 ≤ n) (hl : d.rxLast = some v) (l : List (Bool × Cause)) :
    storeN cfg v n (afterChecks l d.rxPayload d) =
      afterChecks (l ++ [copiesCheck cfg n d]) (d.rxPayload ++ List.replicate n v) d := by
  cases h : firstCause d.rxBad l with
  | ok => rw [afterChecks_of_ok h, storeN_eq hn hl, afterChecks_append_of_ok _ h]
  | bad c => rw [storeN_of_bad v n h (by exact hl), afterChecks_append_of_bad _ d.rxPayload h]

/-! ### The rules -/

/-- `d` with one more wire byte, counted and summed. -/
def summed (cfg : Config) (b : Byte) (d : Deframer) : Deframer := { counted cfg d with rxSum := d.rxSum + b }

theorem addSum_countWire (cfg : Config) (b : Byte) (d : Deframer) :
    addSum b (countWire cfg d) = afterChecks [capCheck cfg d] (summed cfg b d).rxPayload (summed cfg b d) :=
  congrArg (addSum b) (countWire_eq cfg d)

/-- R145. -/
theorem rxHuntStart_eq (hcap : 1 ≤ cfg.maxFrame) (d : Deframer) :
    rxHuntStart cfg d = { clearFrame d with rxState := .body, rxWireLen := 1 } := by
  rw [rxHuntStart, countWire_of_lt (by exact hcap)]
  rfl

/-- R151. -/
theorem rxBodyData_eq (cfg : Config) (b : Byte) (d : Deframer) : rxBodyData cfg b d =
    afterChecks [capCheck cfg d, fullCheck cfg d] (d.rxPayload ++ [b]) { summed cfg b d with rxLast := some b } := by
  rw [rxBodyData, addSum_countWire, store_afterChecks]
  rfl

/-- R152. -/
theorem rxBodyEscMark_eq (cfg : Config) (d : Deframer) : rxBodyEscMark cfg d =
    afterChecks [capCheck cfg d] d.rxPayload { summed cfg 0x7D d with rxState := .esc } := by
  rw [rxBodyEscMark, addSum_countWire]
  rfl

/-- R153. -/
theorem rxEscLit_eq (cfg : Config) (b : Byte) (d : Deframer) : rxEscLit cfg b d =
    afterChecks [capCheck cfg d, fullCheck cfg d] (d.rxPayload ++ [escapeXor b])
      { summed cfg b d with rxState := .body, rxLast := some (escapeXor b) } := by
  rw [rxEscLit, addSum_countWire, store_afterChecks]
  rfl

/-- R154. -/
theorem rxBodyRleMark_eq (cfg : Config) (d : Deframer) : rxBodyRleMark cfg d =
    afterChecks [capCheck cfg d, (d.rxLast.isNone, .badRle)] d.rxPayload { summed cfg 0x2A d with rxState := .rle } := by
  cases hl : d.rxLast with
  | none =>
    simp only [rxBodyRleMark, addSum_rxLast, countWire_rxLast, hl]
    rw [addSum_countWire, markBad_afterChecks]
    rfl
  | some v =>
    simp only [rxBodyRleMark, addSum_rxLast, countWire_rxLast, hl]
    rw [addSum_countWire, Option.isNone_some, ← hl]
    exact (afterChecks_append_passes [capCheck cfg d] .badRle d.rxPayload
      { summed cfg 0x2A d with rxState := .rle }).symm

/-- R155, with a preceding decoded byte. -/
theorem rxRleCount_of_last {b v : Byte} (hb : IsRunCount b) (hl : d.rxLast = some v) : rxRleCount cfg b d =
    afterChecks [capCheck cfg d, copiesCheck cfg (runCopies b) d] (d.rxPayload ++ List.replicate (runCopies b) v)
      { summed cfg b d with rxState := .body } := by
  have hn : 1 ≤ runCopies b := by
    have := hb.1
    rw [runCopies]
    omega
  have hlast : (summed cfg b d).rxLast = some v := hl
  simp only [rxRleCount, addSum_rxLast, countWire_rxLast, hl]
  rw [addSum_countWire, storeN_afterChecks hn hlast]
  rfl

/-- R155, with no preceding decoded byte. -/
theorem rxRleCount_of_no_last {b : Byte} (hl : d.rxLast = none) : rxRleCount cfg b d =
    afterChecks [capCheck cfg d] d.rxPayload { summed cfg b d with rxState := .body } := by
  simp only [rxRleCount, addSum_rxLast, countWire_rxLast, hl]
  rw [addSum_countWire, ← hl]
  rfl

/-- R156. -/
theorem rxRleBadcount_eq (cfg : Config) (b : Byte) (d : Deframer) : rxRleBadcount cfg b d =
    afterChecks [capCheck cfg d, (true, .badRle)] d.rxPayload { summed cfg b d with rxState := .body } := by
  rw [rxRleBadcount, addSum_countWire, markBad_afterChecks]
  rfl

/-- R157. -/
theorem rxBodyRawDollar_eq (cfg : Config) (d : Deframer) : rxBodyRawDollar cfg d =
    afterChecks [capCheck cfg d, (true, .rawDollar)] d.rxPayload (summed cfg 0x24 d) := by
  rw [rxBodyRawDollar, addSum_countWire, markBad_afterChecks]
  rfl

/-- R158. -/
theorem rxBodyEnd_eq (cfg : Config) (d : Deframer) : rxBodyEnd cfg d =
    afterChecks [capCheck cfg d] d.rxPayload { counted cfg d with rxState := .ck1 } := by
  rw [rxBodyEnd, countWire_eq]
  rfl

/-- R159, a digit. -/
theorem rxCk1_of_digit {b : Byte} {v : Nibble} (hv : hexval b = some v) : rxCk1 cfg b d =
    afterChecks [capCheck cfg d] d.rxPayload { counted cfg d with rxState := .ck2, rxCkHi := v } := by
  simp only [rxCk1, hv, countWire_eq]
  rfl

/-- R159, any other byte. -/
theorem rxCk1_of_not_digit {b : Byte} (hv : hexval b = none) : rxCk1 cfg b d =
    afterChecks [capCheck cfg d, (true, .badCkDigit)] d.rxPayload { counted cfg d with rxState := .ck2 } := by
  have hmark : markBad .badCkDigit (countWire cfg d) = afterChecks [capCheck cfg d, (true, .badCkDigit)]
      (counted cfg d).rxPayload (counted cfg d) := (congrArg _ (countWire_eq cfg d)).trans (markBad_afterChecks _ _ _)
  simp only [rxCk1, hv, hmark]
  rfl

/-- R160, a digit: the event the frame ends in. -/
theorem frameEvent_of_digit {b : Byte} {lo : Nibble} (hv : hexval b = some lo) :
    frameEvent (checkField b (countWire cfg d)) =
      endOfFrame (firstCause d.rxBad [capCheck cfg d, fieldCheck lo d]) d.rxPayload := by
  have hchecks : checkField b (countWire cfg d) = afterChecks [capCheck cfg d, fieldCheck lo d]
      (counted cfg d).rxPayload (counted cfg d) := by
    rw [countWire_eq, checkField_of_digit hv]
    exact afterChecks_afterChecks _ _ _
  rw [hchecks]
  exact frameEvent_afterChecks _ _

/-- R160, any other byte: the event the frame ends in. -/
theorem frameEvent_of_not_digit {b : Byte} (hv : hexval b = none) :
    frameEvent (checkField b (countWire cfg d)) =
      endOfFrame (firstCause d.rxBad [capCheck cfg d, (true, .badCkDigit)]) d.rxPayload := by
  have hchecks : checkField b (countWire cfg d) = afterChecks [capCheck cfg d, (true, .badCkDigit)]
      (counted cfg d).rxPayload (counted cfg d) := by
    rw [countWire_eq, checkField_of_not_digit hv]
    exact afterChecks_afterChecks _ _ _
  rw [hchecks]
  exact frameEvent_afterChecks _ _

end Sys2Proof.Machine
end

section
/-! SUPPORT. The statements about the deframer's rows and helpers (41_deframer.md R141 to R160), read off the closed forms. -/

namespace Sys2Proof.Proofs

open Sys2Proof.Machine

/-- Settles O17: the cap is checked first, then the room for all the copies. -/
theorem runCountStoresTheCopies : Obligations.RunCountStoresTheCopies := fun _ _ hb =>
  ⟨fun _ hl => next_onRx (rxRleCount_of_last hb hl), fun hl => next_onRx (rxRleCount_of_no_last hl)⟩

/-- Settles O12: `MAX_FRAME` leaves room for the `$`. -/
theorem startOfFrameOpensABody : Obligations.StartOfFrameOpensABody := fun s hwf =>
  next_onRx (rxHuntStart_eq (Nat.le_of_add_left_le hwf) s.rx)

/-- Settles O13: each of these rules is one `emit`, or nothing. -/
theorem signalsEmitOneEventAndNoiseNone : Obligations.SignalsEmitOneEventAndNoiseNone := fun _ _ _ =>
  ⟨next_onRx rfl, next_onRx rfl, next_onRx rfl, next_onRx rfl, next_onRx rfl⟩

/-- Settles O14: `store` makes the second check, behind the one of the cap. -/
theorem literalAndEscapeOperandAreStored : Obligations.LiteralAndEscapeOperandAreStored := fun s b =>
  ⟨next_onRx (rxBodyData_eq s.cfg b s.rx), next_onRx (rxEscLit_eq s.cfg b s.rx)⟩

/-- Settles O15: the cap is checked by all three rules, the preceding byte by the run marker's alone. -/
theorem markersAndTerminatorMoveTheScan : Obligations.MarkersAndTerminatorMoveTheScan := fun s =>
  ⟨next_onRx (rxBodyEscMark_eq s.cfg s.rx), next_onRx (rxBodyRleMark_eq s.cfg s.rx),
    next_onRx (rxBodyEnd_eq s.cfg s.rx)⟩

/-- Settles O16: the second check always fires, and counts unless an earlier cause stands. -/
theorem malformedBodyBytesMarkTheFrame : Obligations.MalformedBodyBytesMarkTheFrame := fun s b =>
  ⟨next_onRx (rxRleBadcount_eq s.cfg b s.rx), next_onRx (rxBodyRawDollar_eq s.cfg s.rx)⟩

/-- Settles O18: the digits of R91 are the bytes with a value. -/
theorem firstChecksumPositionIsConsumed : Obligations.FirstChecksumPositionIsConsumed := by
  intro s b
  constructor
  · intro hb
    obtain ⟨v, hv⟩ := exists_hexval hb
    exact ⟨v, hv, next_onRx (rxCk1_of_digit hv)⟩
  · intro hb
    exact next_onRx (rxCk1_of_not_digit ((hexval_eq_none_iff b).mpr hb))

/-- Settles O19: the frame ends in the event of the last checks, and its registers take their reset values (`rxCk2_eq`). -/
theorem secondChecksumPositionEndsTheFrame : Obligations.SecondChecksumPositionEndsTheFrame := by
  intro s b
  constructor
  · intro hb
    obtain ⟨lo, hlo⟩ := exists_hexval hb
    refine ⟨lo, hlo, next_onRx ?_⟩
    rw [rxCk2_eq, frameEvent_of_digit hlo]
    rfl
  · intro hb
    refine next_onRx ?_
    rw [rxCk2_eq, frameEvent_of_not_digit ((hexval_eq_none_iff b).mpr hb)]
    rfl

/-- Settles O20: each helper in closed form, as the checks it makes. -/
theorem deframerHelpersChangeTheirRegisters : Obligations.DeframerHelpersChangeTheirRegisters := fun s c v =>
  ⟨next_onRx (countWire_eq s.cfg s.rx), next_onRx (markBad_eq c s.rx), next_onRx (store_eq s.cfg v s.rx), next_onRx rfl⟩

end Sys2Proof.Proofs
end

section
/-! SUPPORT. The deframer's step as a whole (41_deframer.md R140): which rule it runs, what a step can emit and what it keeps
of a bad frame, and that the events waiting before it do not matter. -/

namespace Sys2Proof.Machine

variable {cfg : Config} {b : Byte} {st : RxState} {i : Instr} {f : Deframer → Deframer} {d : Deframer}

/-! ### The rule of each row -/

/-- `RuleOf cfg b st i f`: in state `st` the byte `b` selects the row `i`, whose rule is `f` (R90, R140). -/
inductive RuleOf (cfg : Config) (b : Byte) : RxState → Instr → (Deframer → Deframer) → Prop where
  | huntStart (hb : b = 0x24) : RuleOf cfg b .hunt .huntStart (rxHuntStart cfg)
  | huntAck (hb : b = 0x2B) : RuleOf cfg b .hunt .huntAck rxHuntAck
  | huntNack (hb : b = 0x2D) : RuleOf cfg b .hunt .huntNack rxHuntNack
  | huntInt (hb : b = 0x03) : RuleOf cfg b .hunt .huntInt rxHuntInt
  | huntNoise : RuleOf cfg b .hunt (.huntNoise b) rxHuntNoise
  | escLit : RuleOf cfg b .esc (.escLit b) (rxEscLit cfg b)
  | inframeInt {st : RxState} (hb : b = 0x03) (hhunt : st ≠ .hunt) (hesc : st ≠ .esc) :
      RuleOf cfg b st (.inframeInt st) rxInframeInt
  | bodyEnd : RuleOf cfg b .body .bodyEnd (rxBodyEnd cfg)
  | bodyEscMark : RuleOf cfg b .body .bodyEscMark (rxBodyEscMark cfg)
  | bodyRleMark : RuleOf cfg b .body .bodyRleMark (rxBodyRleMark cfg)
  | bodyRawDollar : RuleOf cfg b .body .bodyRawDollar (rxBodyRawDollar cfg)
  | bodyData : RuleOf cfg b .body (.bodyData b) (rxBodyData cfg b)
  | rleCount (hb : IsRunCount b) : RuleOf cfg b .rle (.rleCount b) (rxRleCount cfg b)
  | rleBadcount : RuleOf cfg b .rle (.rleBadcount b) (rxRleBadcount cfg b)
  | ck1Digit : RuleOf cfg b .ck1 (.ck1Digit b) (rxCk1 cfg b)
  | ck1Baddigit : RuleOf cfg b .ck1 (.ck1Baddigit b) (rxCk1 cfg b)
  | ck2Digit (hb : b ≠ 0x03) : RuleOf cfg b .ck2 (.ck2Digit b) (rxCk2 cfg b)
  | ck2Baddigit (hb : b ≠ 0x03) : RuleOf cfg b .ck2 (.ck2Baddigit b) (rxCk2 cfg b)

/-- `deframe_step` runs the rule of the row that `selectRow` gives. -/
theorem exists_ruleOf (cfg : Config) (b : Byte) (st : RxState) :
    ∃ f, RuleOf cfg b st (selectRow st b) f ∧ ∀ d : Deframer, d.rxState = st → deframeStep cfg b d = f d := by
  cases st with
  | hunt =>
    simp only [selectRow]
    split_ifs with h1 h2 h3 h4
    · exact ⟨_, .huntStart h1, fun d hd => by simp only [deframeStep, hd, if_pos h1]⟩
    · exact ⟨_, .huntAck h2, fun d hd => by simp only [deframeStep, hd, if_neg h1, if_pos h2]⟩
    · exact ⟨_, .huntNack h3, fun d hd => by simp only [deframeStep, hd, if_neg h1, if_neg h2, if_pos h3]⟩
    · exact ⟨_, .huntInt h4, fun d hd => by simp only [deframeStep, hd, if_neg h1, if_neg h2, if_neg h3, if_pos h4]⟩
    · exact ⟨_, .huntNoise, fun d hd => by simp only [deframeStep, hd, if_neg h1, if_neg h2, if_neg h3, if_neg h4]⟩
  | esc => exact ⟨_, .escLit, fun d hd => by simp only [deframeStep, hd]⟩
  | body =>
    simp only [selectRow]
    split_ifs with h1 h2 h3 h4 h5
    · exact ⟨_, .inframeInt h1 nofun nofun, fun d hd => by simp only [deframeStep, hd, if_pos h1]⟩
    · exact ⟨_, .bodyEnd, fun d hd => by simp only [deframeStep, hd, if_neg h1, if_pos h2]⟩
    · exact ⟨_, .bodyEscMark, fun d hd => by simp only [deframeStep, hd, if_neg h1, if_neg h2, if_pos h3]⟩
    · exact ⟨_, .bodyRleMark, fun d hd => by
        simp only [deframeStep, hd, if_neg h1, if_neg h2, if_neg h3, if_pos h4]⟩
    · exact ⟨_, .bodyRawDollar, fun d hd => by
        simp only [deframeStep, hd, if_neg h1, if_neg h2, if_neg h3, if_neg h4, if_pos h5]⟩
    · exact ⟨_, .bodyData, fun d hd => by
        simp only [deframeStep, hd, if_neg h1, if_neg h2, if_neg h3, if_neg h4, if_neg h5]⟩
  | rle =>
    simp only [selectRow]
    split_ifs with h1 h2
    · exact ⟨_, .inframeInt h1 nofun nofun, fun d hd => by simp only [deframeStep, hd, if_pos h1]⟩
    · exact ⟨_, .rleCount h2, fun d hd => by simp only [deframeStep, hd, if_neg h1, if_pos h2]⟩
    · exact ⟨_, .rleBadcount, fun d hd => by simp only [deframeStep, hd, if_neg h1, if_neg h2]⟩
  | ck1 =>
    simp only [selectRow]
    split_ifs with h1 h2
    · exact ⟨_, .inframeInt h1 nofun nofun, fun d hd => by simp only [deframeStep, hd, if_pos h1]⟩
    · exact ⟨_, .ck1Digit, fun d hd => deframeStep_ck1 hd h1⟩
    · exact ⟨_, .ck1Baddigit, fun d hd => deframeStep_ck1 hd h1⟩
  | ck2 =>
    simp only [selectRow]
    split_ifs with h1 h2
    · exact ⟨_, .inframeInt h1 nofun nofun, fun d hd => by simp only [deframeStep, hd, if_pos h1]⟩
    · exact ⟨_, .ck2Digit h1, fun d hd => deframeStep_ck2 hd h1⟩
    · exact ⟨_, .ck2Baddigit h1, fun d hd => deframeStep_ck2 hd h1⟩

/-- The operation of a row answers the state with the registers its rule gives. -/
theorem RuleOf.exec {s : State} (h : RuleOf s.cfg b st i f) : exec i s = .next { s with rx := f s.rx, result := .none } := by
  cases h <;> rfl

/-- The operation of the selected row is one `deframe_step`. -/
theorem exec_selectRow (s : State) (b : Byte) :
    exec (selectRow s.rx.rxState b) s = .next { s with rx := deframeStep s.cfg b s.rx, result := .none } := by
  obtain ⟨f, hrule, hstep⟩ := exists_ruleOf s.cfg b s.rx.rxState
  rw [hrule.exec, hstep s.rx rfl]

/-! ### What a step emits, and what it keeps of a bad frame -/

/-- What a deframer step on the byte `b` can do, and where. -/
inductive StepMove (cfg : Config) (b : Byte) (d : Deframer) : Deframer → Prop where
  /-- noise outside a frame -/
  | noise (hs : d.rxState = .hunt) : StepMove cfg b d d
  /-- a frame starts -/
  | starts {d' : Deframer} (hs : d.rxState = .hunt) (hon : GoesOn d d') : StepMove cfg b d d'
  | ack (hs : d.rxState = .hunt) (hb : b = 0x2B) : StepMove cfg b d (emit .ack d)
  | nack (hs : d.rxState = .hunt) (hb : b = 0x2D) : StepMove cfg b d (emit .nack d)
  | interrupt (hs : d.rxState ≠ .esc) (hb : b = 0x03) : StepMove cfg b d (emit .interrupt d)
  /-- a frame goes on, after checks that a standing cause survives -/
  | continues {d' : Deframer} (hs : d.rxState ≠ .hunt) (hon : GoesOn d d')
      (hcause : ∃ l, d'.rxBad = firstCause d.rxBad l) : StepMove cfg b d d'
  /-- a frame ends -/
  | ends (hs : d.rxState = .ck2) (hb : b ≠ 0x03) : StepMove cfg b d (rxCk2 cfg b d)

/-- The checks of a run count, with and without a preceding decoded byte. -/
theorem rxRleCount_rxBad (hb : IsRunCount b) (d : Deframer) :
    ∃ l, (rxRleCount cfg b d).rxBad = firstCause d.rxBad l := by
  cases hl : d.rxLast with
  | none => exact ⟨_, congrArg Deframer.rxBad (rxRleCount_of_no_last hl)⟩
  | some v => exact ⟨_, congrArg Deframer.rxBad (rxRleCount_of_last hb hl)⟩

/-- The checks of the first checksum position, for a digit and any other byte. -/
theorem rxCk1_rxBad (cfg : Config) (b : Byte) (d : Deframer) : ∃ l, (rxCk1 cfg b d).rxBad = firstCause d.rxBad l := by
  cases hv : hexval b with
  | none => exact ⟨_, congrArg Deframer.rxBad (rxCk1_of_not_digit hv)⟩
  | some v => exact ⟨_, congrArg Deframer.rxBad (rxCk1_of_digit hv)⟩

theorem RuleOf.stepMove (h : RuleOf cfg b d.rxState i f) : StepMove cfg b d (f d) := by
  generalize hs : d.rxState = st at h
  have hin (hst : st ≠ .hunt) : d.rxState ≠ .hunt := hs ▸ hst
  cases h with
  | huntStart => exact .starts hs (.huntStart cfg d)
  | huntAck hb => exact .ack hs hb
  | huntNack hb => exact .nack hs hb
  | huntInt hb => exact .interrupt (by simp [hs]) hb
  | huntNoise => exact .noise hs
  | inframeInt hb _ hesc => exact .interrupt (hs ▸ hesc) hb
  | escLit => exact .continues (hin nofun) (.escLit cfg b d) ⟨_, congrArg Deframer.rxBad (rxEscLit_eq cfg b d)⟩
  | bodyEnd => exact .continues (hin nofun) (.bodyEnd cfg d) ⟨_, congrArg Deframer.rxBad (rxBodyEnd_eq cfg d)⟩
  | bodyEscMark =>
    exact .continues (hin nofun) (.bodyEscMark cfg d) ⟨_, congrArg Deframer.rxBad (rxBodyEscMark_eq cfg d)⟩
  | bodyRleMark =>
    exact .continues (hin nofun) (.bodyRleMark cfg d) ⟨_, congrArg Deframer.rxBad (rxBodyRleMark_eq cfg d)⟩
  | bodyRawDollar =>
    exact .continues (hin nofun) (.bodyRawDollar cfg (hin nofun))
      ⟨_, congrArg Deframer.rxBad (rxBodyRawDollar_eq cfg d)⟩
  | bodyData =>
    exact .continues (hin nofun) (.bodyData cfg b (hin nofun)) ⟨_, congrArg Deframer.rxBad (rxBodyData_eq cfg b d)⟩
  | rleCount hb => exact .continues (hin nofun) (.rleCount cfg b d) (rxRleCount_rxBad hb d)
  | rleBadcount =>
    exact .continues (hin nofun) (.rleBadcount cfg b d) ⟨_, congrArg Deframer.rxBad (rxRleBadcount_eq cfg b d)⟩
  | ck1Digit | ck1Baddigit => exact .continues (hin nofun) (.ck1 cfg b d) (rxCk1_rxBad cfg b d)
  | ck2Digit hb | ck2Baddigit hb => exact .ends hs hb

theorem deframeStep_move (cfg : Config) (b : Byte) (d : Deframer) : StepMove cfg b d (deframeStep cfg b d) := by
  obtain ⟨f, hrule, hstep⟩ := exists_ruleOf cfg b d.rxState
  exact hstep d rfl ▸ hrule.stepMove

/-- The registers after a `deframe_step` are a move from those before. -/
theorem stepMove_of_exec {s t : State} (he : exec (.deframeStep b) s = .next t) : StepMove s.cfg b s.rx t.rx := by
  obtain rfl := eq_of_next he
  exact deframeStep_move s.cfg b s.rx

/-- The checks at the end of a frame leave a bad frame its cause (R160). -/
theorem frameEvent_of_bad {c : Cause} (b : Byte) (hbad : d.rxBad = .bad c) :
    frameEvent (checkField b (countWire cfg d)) = .reject c := by
  have hcount : (countWire cfg d).rxBad = .bad c := by rw [countWire_rxBad, hbad, firstCause_bad]
  rw [checkField_of_bad b hcount, frameEvent, hcount]

/-! ### The events that wait before a step do not matter -/

/-- `d` with the events `p` waiting before its own. -/
def behindEvents (p : List Event) (d : Deframer) : Deframer := { d with evQ := p ++ d.evQ }

theorem emit_behindEvents (e : Event) (p : List Event) (d : Deframer) :
    emit e (behindEvents p d) = behindEvents p (emit e d) := by
  simp [emit, behindEvents]

theorem countWire_behindEvents (cfg : Config) (p : List Event) (d : Deframer) :
    countWire cfg (behindEvents p d) = behindEvents p (countWire cfg d) := by
  rw [countWire_eq, countWire_eq]
  rfl

theorem checkField_behindEvents (b : Byte) (p : List Event) (d : Deframer) :
    checkField b (behindEvents p d) = behindEvents p (checkField b d) := by
  cases hv : hexval b with
  | none => rw [checkField_of_not_digit hv, checkField_of_not_digit hv]; rfl
  | some lo => rw [checkField_of_digit hv, checkField_of_digit hv]; rfl

theorem rxHuntStart_behindEvents (cfg : Config) (p : List Event) (d : Deframer) :
    rxHuntStart cfg (behindEvents p d) = behindEvents p (rxHuntStart cfg d) :=
  congrArg (fun d : Deframer => { d with rxState := .body }) (countWire_behindEvents cfg p (clearFrame d))

theorem rxRleCount_behindEvents (hb : IsRunCount b) (p : List Event) (d : Deframer) :
    rxRleCount cfg b (behindEvents p d) = behindEvents p (rxRleCount cfg b d) := by
  cases hl : d.rxLast with
  | none => rw [rxRleCount_of_no_last hl, rxRleCount_of_no_last (by exact hl)]; rfl
  | some v => rw [rxRleCount_of_last hb hl, rxRleCount_of_last hb (by exact hl)]; rfl

theorem rxCk1_behindEvents (cfg : Config) (b : Byte) (p : List Event) (d : Deframer) :
    rxCk1 cfg b (behindEvents p d) = behindEvents p (rxCk1 cfg b d) := by
  cases hv : hexval b with
  | none => rw [rxCk1_of_not_digit hv, rxCk1_of_not_digit hv]; rfl
  | some v => rw [rxCk1_of_digit hv, rxCk1_of_digit hv]; rfl

theorem rxCk2_behindEvents (cfg : Config) (b : Byte) (p : List Event) (d : Deframer) :
    rxCk2 cfg b (behindEvents p d) = behindEvents p (rxCk2 cfg b d) := by
  have hevent : frameEvent (behindEvents p (checkField b (countWire cfg d))) =
      frameEvent (checkField b (countWire cfg d)) := rfl
  rw [rxCk2_eq, rxCk2_eq, countWire_behindEvents, checkField_behindEvents, hevent]
  simp [behindEvents]

/-- No rule reads the events that wait. -/
theorem RuleOf.behindEvents (h : RuleOf cfg b st i f) (p : List Event) (d : Deframer) :
    f (behindEvents p d) = behindEvents p (f d) := by
  cases h with
  | huntStart => exact rxHuntStart_behindEvents cfg p d
  | huntAck | huntNack | huntInt | inframeInt => exact emit_behindEvents _ p d
  | huntNoise => rfl
  | escLit => rw [rxEscLit_eq, rxEscLit_eq]; rfl
  | bodyEnd => rw [rxBodyEnd_eq, rxBodyEnd_eq]; rfl
  | bodyEscMark => rw [rxBodyEscMark_eq, rxBodyEscMark_eq]; rfl
  | bodyRleMark => rw [rxBodyRleMark_eq, rxBodyRleMark_eq]; rfl
  | bodyRawDollar => rw [rxBodyRawDollar_eq, rxBodyRawDollar_eq]; rfl
  | bodyData => rw [rxBodyData_eq, rxBodyData_eq]; rfl
  | rleCount hb => exact rxRleCount_behindEvents hb p d
  | rleBadcount => rw [rxRleBadcount_eq, rxRleBadcount_eq]; rfl
  | ck1Digit | ck1Baddigit => exact rxCk1_behindEvents cfg b p d
  | ck2Digit | ck2Baddigit => exact rxCk2_behindEvents cfg b p d

theorem deframeStep_behindEvents (cfg : Config) (b : Byte) (p : List Event) (d : Deframer) :
    deframeStep cfg b (behindEvents p d) = behindEvents p (deframeStep cfg b d) := by
  obtain ⟨f, hrule, hstep⟩ := exists_ruleOf cfg b d.rxState
  rw [hstep (behindEvents p d) rfl, hstep d rfl, hrule.behindEvents]

theorem deframeAll_behindEvents (cfg : Config) (bs : List Byte) (p : List Event) (d : Deframer) :
    deframeAll cfg bs (behindEvents p d) = behindEvents p (deframeAll cfg bs d) := by
  induction bs generalizing d with
  | nil => rfl
  | cons b bs ih => rw [deframeAll, deframeStep_behindEvents, ih, deframeAll]

/-- A `NEXT` after the bytes leaves what a `NEXT` before them would (R164). -/
theorem deframeAll_tail_evQ {e : Event} {q : List Event} (bs : List Byte) (hq : d.evQ = e :: q) :
    { deframeAll cfg bs d with evQ := (deframeAll cfg bs d).evQ.tail } = deframeAll cfg bs { d with evQ := q } := by
  have hd : d = behindEvents [e] { d with evQ := q } := by simp [behindEvents, ← hq]
  rw [hd, deframeAll_behindEvents]
  rfl

/-! ### Runs of `PUSH`es -/

theorem pushesAndSparers_pushes (chunks : List (List Byte)) : PushesAndSparers (chunks.map .push) :=
  List.forall_mem_map.mpr fun _ _ => ⟨rfl, .inl rfl⟩

/-- Waiting `PUSH`es are done after their steps, and leave the deframer as their bytes do. -/
theorem stepN_pushes {s : State} {chunks : List (List Byte)} (hin : s.inbox = chunks.map fun c => encode (.push c)) :
    ∃ t, stepN (chunks.map fun c => stepsOf (.push c)).sum s = .next t ∧ t.inbox = [] ∧
      t.rx = deframeAll s.cfg chunks.flatten s.rx := by
  obtain ⟨hall, -⟩ := Proofs.operationsBetweenPushedBytesDoNotMatter s _ (pushesAndSparers_pushes chunks)
  obtain ⟨t, -, hrun, hempty, -, hrx, -⟩ := hall (by simpa [Function.comp_def] using hin)
  exact ⟨t, by simpa [Function.comp_def] using hrun, hempty, by simpa [Function.comp_def, pushedBytes] using hrx⟩

end Sys2Proof.Machine

namespace Sys2Proof.Proofs

open Sys2Proof.Machine

/-- Settles O11: the row's rule is the one `deframe_step` runs (`exec_selectRow`). -/
theorem deframeStepIsTheSelectedRow : Obligations.DeframeStepIsTheSelectedRow := fun s b =>
  ⟨_, rfl, exec_selectRow s b⟩

/-- Settles O10: the byte and the code of `rx_state` are the key of the selected row (`decode_wireKey`). -/
theorem wireByteRunsDeframeStep : Obligations.WireByteRunsDeframeStep := by
  intro s b rest hin
  have hdecode : decode (fetchWord s.rx.rxState ⟨.wire, [b]⟩) = .ok (selectRow s.rx.rxState b) := decode_wireKey _ b
  rw [step_of_inbox hin hdecode]
  exact exec_selectRow { s with inbox := rest } b

/-- Settles O21: the moves of a step (`deframeStep_move`), each with the event it emits. -/
theorem deframeStepEmitsAtMostOneEvent : Obligations.DeframeStepEmitsAtMostOneEvent := by
  intro s t b he
  have hmove := stepMove_of_exec he
  generalize t.rx = d' at hmove ⊢
  cases hmove with
  | noise => exact .inl rfl
  | starts _ hon | continues _ hon => exact .inl hon.silent
  | ack hs hb => exact .inr ⟨.ack, rfl, hs, hb⟩
  | nack hs hb => exact .inr ⟨.nack, rfl, hs, hb⟩
  | interrupt hs hb => exact .inr ⟨.interrupt, rfl, hs, hb⟩
  | ends hs hb =>
    refine .inr ⟨_, congrArg Deframer.evQ (rxCk2_eq s.cfg b s.rx), ?_⟩
    rcases frameEvent_cases (checkField b (countWire s.cfg s.rx)) with ⟨p, he⟩ | ⟨c, he⟩ <;> rw [he] <;>
      exact ⟨hs, hb, rfl⟩

/-- Settles O22: of the moves of a step (`deframeStep_move`), those inside a frame, whose checks a standing cause survives. -/
theorem badFrameEndsInItsFirstCause : Obligations.BadFrameEndsInItsFirstCause := by
  intro s t b c hbad hframe he
  have hmove := stepMove_of_exec he
  generalize t.rx = d' at hmove ⊢
  cases hmove with
  | noise hs | starts hs | ack hs | nack hs => exact absurd hs hframe
  | interrupt => exact .inl ⟨hframe, hbad, .inr rfl⟩
  | continues _ hon hcause =>
    obtain ⟨l, hl⟩ := hcause
    exact .inl ⟨hon.in_frame, by rw [hl, hbad, firstCause_bad], .inl hon.silent⟩
  | ends =>
    rw [rxCk2_eq, frameEvent_of_bad b hbad]
    exact .inr ⟨rfl, rfl, rfl⟩

/-- Settles O25: every chunking steps through the same bytes (`stepN_pushes`), and no step reads the events that wait
(`deframeAll_tail_evQ`). -/
theorem chunkingDoesNotMatter : Obligations.ChunkingDoesNotMatter := by
  constructor
  · intro s s' chunks chunks' hcfg hrx hflat hin hin'
    obtain ⟨t, hrun, hempty, ht⟩ := stepN_pushes hin
    obtain ⟨t', hrun', hempty', ht'⟩ := stepN_pushes hin'
    exact ⟨t, t', hrun, hrun', hempty, hempty', by rw [ht, ht', hcfg, hrx, hflat], ht⟩
  · intro s chunk e q hq
    have hfirst : step { s with inbox := [encode .next, encode (.push chunk)] } =
        .next (popEvent { s with inbox := [encode (.push chunk)] }) := step_of_inbox (i := .next) rfl rfl
    obtain ⟨t, hrun, hempty, ht⟩ := stepN_pushes (chunks := [chunk])
      (s := popEvent { s with inbox := [encode (.push chunk)] }) rfl
    obtain ⟨-, hbehind⟩ := operationsBetweenPushedBytesDoNotMatter
      { s with inbox := [encode (.push chunk), encode .next] } [.push chunk] (pushesAndSparers_pushes [chunk])
    obtain ⟨t', hrun', hempty', ht', -⟩ := hbehind 0 [] rfl
    have hafter : t.rx = deframeAll s.cfg chunk { s.rx with evQ := q } := by
      simpa [popEvent, hq] using ht
    have hbefore : t'.rx = deframeAll s.cfg chunk { s.rx with evQ := q } := by
      rw [← deframeAll_tail_evQ chunk hq]
      simpa [pushedBytes] using ht'
    refine ⟨t, t', ?_, ?_, hempty, hempty', hafter.trans hbefore.symm, hafter⟩
    · rw [Nat.add_comm, stepN_succ _ hfirst]
      simpa using hrun
    · rw [Nat.add_comm]
      simpa using hrun'

/-- Settles O23: the rest of a chunk goes on behind operations that may fall between its bytes (`pushByte_more`). -/
theorem pushStepsThroughTheChunk : Obligations.PushStepsThroughTheChunk := by
  intro s b c cs
  obtain ⟨before, after, hsplit, hbetween, hpush⟩ := pushByte_more b c cs s
  exact ⟨rfl, rfl, _, before, after, rfl, hsplit, hbetween, congrArg Host.Outcome.next hpush⟩

/-- Settles O26: `popEvent` with the queue empty and not. -/
theorem nextTakesTheOldestEvent : Obligations.NextTakesTheOldestEvent := by
  intro s
  have hnext : exec .next s = .next (popEvent s) := rfl
  constructor
  · intro hq
    rw [hnext, popEvent, hq, List.tail_nil, List.head?_nil, ← hq]
  · intro e q hq
    rw [hnext, popEvent, hq, List.tail_cons, List.head?_cons]

end Sys2Proof.Proofs
end

section
/-! SUPPORT. The session's operations in closed form (42_session.md R180 to R196): the reactions, `retry_or_fail` and the entry to
the fatal state on either side of their conditions, and the state's other writes as the statements spell them. -/

namespace Sys2Proof.Machine

variable {s t : State} {f : List Byte}

/-! ### The acknowledgment mode -/

/-- R30, as the statements write the condition. -/
theorem ackMode_eq_decide (m : SessState) : ackMode m = decide (m = .idle ∨ m = .ackPending) := by
  cases m <;> rfl

theorem signalIfAckMode_eq (b : Byte) (s : State) : signalIfAckMode b s =
    { s with txFifo :=
        if s.sess.sessState = .idle ∨ s.sess.sessState = .ackPending then s.txFifo ++ [b] else s.txFifo } := by
  rw [signalIfAckMode, ackMode_eq_decide]
  by_cases h : s.sess.sessState = .idle ∨ s.sess.sessState = .ackPending <;> simp [h, transmit]

/-! ### Retransmitting and closing -/

/-- R187: what the deframer's own helpers clear in a close is all of its registers. -/
theorem enterClosed_eq_closedBy (c : CloseCause) (s : State) : enterClosed c s = closedBy c s := rfl

theorem retryOrFail_of_lt (hlt : s.sess.retryCount < s.cfg.maxRetries) :
    retryOrFail s = retransmit { s with sess := { s.sess with retryCount := s.sess.retryCount + 1 } } :=
  if_neg (Nat.not_le.mpr hlt)

theorem retryOrFail_of_ge (hge : s.cfg.maxRetries ≤ s.sess.retryCount) :
    retryOrFail s = closedBy .retryExhausted s := if_pos hge

/-- R186 below the limit: the stored bytes go out again, and are counted. -/
theorem retryOrFail_of_stored (hf : s.sess.txStored = some f) (hlt : s.sess.retryCount < s.cfg.maxRetries) :
    retryOrFail s = retriedWith f s := by
  rw [retryOrFail_of_lt hlt, retransmit_stored _ f (by exact hf)]
  rfl

theorem retransmit_of_none (h : s.sess.txStored = none) :
    retransmit s = { transmit (Config.freeFrame s.freeUse) s with freeUse := s.freeUse + 1 } := by
  simp [retransmit, h]

/-! ### Acknowledgments, negative results and timeouts in each state (R182, R183, R192) -/

theorem evAck_of_ackPending (hp : s.sess.sessState = .ackPending) : evAck s =
    { s with sess := { s.sess with
      sessState := if s.sess.noackArmed then .noAck else .idle
      noackArmed := false, txStored := none, retryCount := 0 } } := by
  obtain ⟨-, he⟩ | ⟨h, -⟩ := evAck_cases s
  · exact he
  · exact absurd hp h

theorem evAck_of_ne_ackPending (hp : s.sess.sessState ≠ .ackPending) : evAck s = s := by
  obtain ⟨h, -⟩ | ⟨-, he⟩ := evAck_cases s
  · exact absurd h hp
  · exact he

theorem evNack_of_ackPending (hp : s.sess.sessState = .ackPending) : evNack s = retryOrFail s := by
  obtain ⟨-, he⟩ | ⟨h, -⟩ := evNack_cases s
  · exact he
  · exact absurd hp h

theorem evNack_of_ne_ackPending (hp : s.sess.sessState ≠ .ackPending) : evNack s = s := by
  obtain ⟨h, -⟩ | ⟨-, he⟩ := evNack_cases s
  · exact absurd h hp
  · exact he

theorem hTimeout_of_ackPending (hp : s.sess.sessState = .ackPending) :
    hTimeout s = answer (.status .ok) (retryOrFail s) := by
  simp [hTimeout, hp]

theorem hTimeout_of_idle_or_noAck (h : s.sess.sessState = .idle ∨ s.sess.sessState = .noAck) :
    hTimeout s = answer (.status .ok) s := by
  rcases h with h | h <;> simp [hTimeout, h]

theorem hTimeout_of_closed (hc : s.sess.sessState = .closed) : hTimeout s = answer (.status .closed) s := by
  simp [hTimeout, hc]

theorem exec_evNack (s : State) : exec .evNack s = .next (answer .none (evNack s)) := rfl

theorem exec_hTimeout (s : State) : exec .hTimeout s = .next (hTimeout s) := rfl

/-- With a frame outstanding a `Nack` and a timeout do the same, but for what they return. -/
theorem exec_negativeResult {i : Instr} (hi : i = .evNack ∨ i = .hTimeout) (hp : s.sess.sessState = .ackPending) :
    ∃ r, exec i s = .next (answer r (retryOrFail s)) := by
  rcases hi with rfl | rfl
  · exact ⟨.none, by rw [exec_evNack, evNack_of_ackPending hp]⟩
  · exact ⟨.status .ok, by rw [exec_hTimeout, hTimeout_of_ackPending hp]⟩

end Sys2Proof.Machine

namespace Sys2Proof.Proofs

open Sys2Proof.Machine

/-- Settles O27: the two cases of `EV_ACK`. -/
theorem ackSettlesTheStoredFrame : Obligations.AckSettlesTheStoredFrame := by
  intro s
  have hack : exec .evAck s = .next (answer .none (evAck s)) := rfl
  rw [hack]
  constructor
  · intro hp
    rw [evAck_of_ackPending hp]
    rfl
  · intro hne
    rw [evAck_of_ne_ackPending hne]
    rfl

/-- Settles O28: all three are `retry_or_fail`, on either side of its limit. -/
theorem nackAndTimeoutRetransmitOrClose : Obligations.NackAndTimeoutRetransmitOrClose := by
  intro s f hp hf
  have hretry : exec .retryOrFail s = .next (answer .none (retryOrFail s)) := rfl
  rw [hretry, exec_evNack, evNack_of_ackPending hp, exec_hTimeout, hTimeout_of_ackPending hp]
  constructor
  · intro hlt
    rw [retryOrFail_of_stored hf hlt]
    exact ⟨rfl, rfl, rfl⟩
  · intro hge
    rw [retryOrFail_of_ge hge]
    exact ⟨rfl, rfl, rfl⟩

/-- Settles O29: `EV_NACK` and `H_TIMEOUT` in the states without a frame outstanding. -/
theorem nackAndTimeoutWithNothingOutstanding : Obligations.NackAndTimeoutWithNothingOutstanding := by
  intro s
  rw [exec_evNack, exec_hTimeout]
  refine ⟨fun hne => ?_, fun hsettled => ?_, fun hc => ?_⟩
  · rw [evNack_of_ne_ackPending hne]
    rfl
  · rw [hTimeout_of_idle_or_noAck hsettled]
    rfl
  · rw [hTimeout_of_closed hc]
    rfl

/-- Settles O30: the bytes are the model's free frame (`retransmit_of_none`). -/
theorem retryWithNothingStoredAppendsFreeBytes : Obligations.RetryWithNothingStoredAppendsFreeBytes := by
  intro s hnone hlt
  have hretry : exec .retryOrFail s = .next (answer .none (retryOrFail s)) := rfl
  refine ⟨Config.freeFrame s.freeUse, ?_⟩
  rw [hretry, retryOrFail_of_lt hlt, retransmit_of_none (by exact hnone)]
  rfl

/-- Settles O31: the signal is the one conditional write (`signalIfAckMode_eq`). -/
theorem packetRejectAndInterruptReactions : Obligations.PacketRejectAndInterruptReactions := by
  intro s p c
  have hpacket : exec (.evPacket p) s = .next (answer .none (deliver (.packet p) (signalIfAckMode 0x2B s))) := rfl
  have hreject : exec (.evReject c) s = .next (answer .none (signalIfAckMode 0x2D s)) := rfl
  rw [hpacket, hreject, signalIfAckMode_eq, signalIfAckMode_eq]
  exact ⟨rfl, rfl, rfl⟩

/-- Settles O32: `sessionEvent` is the reaction of its event, by its definition. -/
theorem sessionEventSelectsItsReaction : Obligations.SessionEventSelectsItsReaction := fun _ =>
  ⟨⟨_, rfl, rfl⟩, ⟨_, rfl, rfl⟩, fun _ => ⟨_, rfl, rfl⟩, fun _ => ⟨_, rfl, rfl⟩, ⟨_, rfl, rfl⟩⟩

/-- Settles O33: the entry to the fatal state, and the cases of `H_LINK_DOWN`. -/
theorem closingClearsAndKeeps : Obligations.ClosingClearsAndKeeps := by
  intro s c
  have hlink : exec .hLinkDown s = .next (hLinkDown s) := rfl
  refine ⟨congrArg (fun u => Host.Outcome.next (answer .none u)) (enterClosed_eq_closedBy c s), ?_⟩
  rcases hLinkDown_cases s with ⟨hs, he⟩ | ⟨hs, he⟩ <;> rw [hlink, he]
  · exact ⟨fun ho => absurd hs ho, fun _ => rfl⟩
  · rw [enterClosed_eq_closedBy]
    exact ⟨fun _ => rfl, fun hc => absurd hc hs⟩

/-- Settles O34: the five cases of `H_SEND`. -/
theorem sendAppendsAndStoresTheFrame : Obligations.SendAppendsAndStoresTheFrame := by
  intro s p f
  have hsend : exec (.hSend p) s = .next (hSend p s) := rfl
  rcases hSend_cases p s with ⟨hs, he⟩ | ⟨hs, he⟩ | ⟨hs, hl, he⟩ | ⟨hs, hl, he⟩ | ⟨hs, hl, he⟩ <;> rw [hsend, he]
  · simp only [hs]
    exact ⟨fun _ => rfl, nofun, by simp, nofun, nofun⟩
  · simp only [hs]
    exact ⟨nofun, fun _ => rfl, by simp, nofun, nofun⟩
  · refine ⟨fun h => ?_, fun h => ?_, fun _ _ => rfl, fun _ hle => ?_, fun _ hle => ?_⟩
    · simp [h] at hs
    · simp [h] at hs
    · exact absurd hl (Nat.not_lt.mpr hle)
    · exact absurd hl (Nat.not_lt.mpr hle)
  · simp only [hs]
    exact ⟨nofun, nofun, fun _ hlt => absurd hlt (Nat.not_lt.mpr hl), fun _ _ => rfl, nofun⟩
  · simp only [hs]
    exact ⟨nofun, nofun, fun _ hlt => absurd hlt (Nat.not_lt.mpr hl), nofun, fun _ _ => rfl⟩

/-- Settles O35: both take the head of their queue, empty or not. -/
theorem recvAndPopTakeTheOldest : Obligations.RecvAndPopTakeTheOldest := by
  intro s
  have hrecv : exec .hRecv s = .next (hRecv s) := rfl
  have hpop : exec .txPop s = .next (popTx s) := rfl
  rw [hrecv, hpop, hRecv, popTx]
  refine ⟨fun hq => ?_, fun x q hq => ?_, fun hq => ?_, fun b q hq => ?_⟩
  · rw [hq, List.tail_nil, List.head?_nil, ← hq]
  · rw [hq, List.tail_cons, List.head?_cons]
  · rw [hq, List.tail_nil, List.head?_nil, ← hq]
  · rw [hq, List.tail_cons, List.head?_cons]

/-- Settles O36: the four cases of `H_SET_NOACK`. -/
theorem setNoackSwitchesOrArms : Obligations.SetNoackSwitchesOrArms := by
  intro s
  have hset : exec .hSetNoack s = .next (hSetNoack s) := rfl
  rcases hSetNoack_cases s with ⟨hs, he⟩ | ⟨hs, he⟩ | ⟨hs, he⟩ | ⟨hs, he⟩ <;> rw [hset, he, hs]
  · exact ⟨fun _ => rfl, nofun, nofun, nofun⟩
  · exact ⟨nofun, fun _ => rfl, nofun, nofun⟩
  · exact ⟨nofun, nofun, fun _ => rfl, nofun⟩
  · exact ⟨nofun, nofun, nofun, fun _ => rfl⟩

/-- Settles O37: the two cases of `H_SET_RLE`. -/
theorem setRleWritesTheControlBit : Obligations.SetRleWritesTheControlBit := by
  intro s v
  have hset : exec (.hSetRle v) s = .next (hSetRle v s) := rfl
  rcases hSetRle_cases v s with ⟨hs, he⟩ | ⟨hs, he⟩ <;> rw [hset, he]
  · exact ⟨fun _ => rfl, fun ho => absurd hs ho⟩
  · exact ⟨fun hc => absurd hc hs, fun _ => rfl⟩

/-- Settles O38: the record's three derived fields, the acknowledgment mode and the two queues' bits. -/
theorem statusReturnsTheRecord : Obligations.StatusReturnsTheRecord := by
  intro s
  have hstatus : exec .hStatus s = .next (answer (.record (statusRecord s)) s) := rfl
  have hrx : (!s.hostQ.isEmpty) = decide (s.hostQ ≠ []) := by cases s.hostQ <;> simp
  have htx : (!s.txFifo.isEmpty) = decide (s.txFifo ≠ []) := by cases s.txFifo <;> simp
  rw [hstatus, statusRecord, ackMode_eq_decide, hrx, htx]
  rfl

/-- Settles O39: both arms answer the status, whatever the argument. -/
theorem reservedCodesReturnBadOp : Obligations.ReservedCodesReturnBadOp := fun _ _ _ => ⟨rfl, rfl⟩

end Sys2Proof.Proofs
end

section
/-! SUPPORT. One received byte (42_session.md R181): the deframer's step, and the session's reaction to the event it emits. -/

namespace Sys2Proof.Machine

variable {s : State} {b : Byte}

/-! ### Reactions do not read what the last operation returned -/

theorem retransmit_answer (r : Result) (s : State) : retransmit (answer r s) = answer r (retransmit s) := by
  cases h : s.sess.txStored with
  | none =>
    rw [retransmit_of_none h, retransmit_of_none (by exact h)]
    rfl
  | some f =>
    rw [retransmit_stored s f h, retransmit_stored _ f (by exact h)]
    rfl

theorem retryOrFail_answer (r : Result) (s : State) : retryOrFail (answer r s) = answer r (retryOrFail s) := by
  rcases Nat.lt_or_ge s.sess.retryCount s.cfg.maxRetries with hlt | hge
  · rw [retryOrFail_of_lt hlt, retryOrFail_of_lt (by exact hlt), ← retransmit_answer]
    rfl
  · rw [retryOrFail_of_ge hge, retryOrFail_of_ge (by exact hge)]
    rfl

theorem evAck_answer (r : Result) (s : State) : evAck (answer r s) = answer r (evAck s) := by
  by_cases hp : s.sess.sessState = .ackPending
  · rw [evAck_of_ackPending hp, evAck_of_ackPending (by exact hp)]
    rfl
  · rw [evAck_of_ne_ackPending hp, evAck_of_ne_ackPending (by exact hp)]

theorem evNack_answer (r : Result) (s : State) : evNack (answer r s) = answer r (evNack s) := by
  by_cases hp : s.sess.sessState = .ackPending
  · rw [evNack_of_ackPending hp, evNack_of_ackPending (by exact hp), retryOrFail_answer]
  · rw [evNack_of_ne_ackPending hp, evNack_of_ne_ackPending (by exact hp)]

theorem signalIfAckMode_answer (b : Byte) (r : Result) (s : State) :
    signalIfAckMode b (answer r s) = answer r (signalIfAckMode b s) := by
  rw [signalIfAckMode_eq, signalIfAckMode_eq]
  rfl

theorem sessionEvent_answer (e : Event) (r : Result) (s : State) :
    sessionEvent e (answer r s) = answer r (sessionEvent e s) := by
  cases e with
  | ack => exact evAck_answer r s
  | nack => exact evNack_answer r s
  | packet p => exact congrArg (deliver (.packet p)) (signalIfAckMode_answer 0x2B r s)
  | reject c => exact signalIfAckMode_answer 0x2D r s
  | interrupt => rfl

/-! ### The loop of R181 runs zero or one time -/

/-- The state with the waiting events taken out of `ev_q`, as the loop leaves it for the reaction to the last of them. -/
def eventsTaken (s : State) : State := { s with rx := { s.rx with evQ := [] } }

theorem drain_singleton {e : Event} (h : s.rx.evQ = [e]) : drain 1 s = sessionEvent e (eventsTaken s) := by
  simp [drain, h, eventsTaken]

theorem sessionEvent_evQ_eq_nil (e : Event) (h : s.rx.evQ = []) : (sessionEvent e s).rx.evQ = [] := by
  rcases sessionEvent_rx e s with he | ⟨he, -⟩ <;> rw [he]
  · exact h
  · rfl

theorem rxByte_of_closed (hc : s.sess.sessState = .closed) : rxByte b s = s := by
  obtain ⟨-, he⟩ | ⟨ho, -⟩ := rxByte_cases b s
  · exact he
  · exact absurd hc ho

theorem rxByte_of_open (ho : s.sess.sessState ≠ .closed) :
    rxByte b s = drain (receive b s).rx.evQ.length (receive b s) := by
  obtain ⟨hc, -⟩ | ⟨-, he⟩ := rxByte_cases b s
  · exact absurd hc ho
  · exact he

theorem rxByte_of_silent (ho : s.sess.sessState ≠ .closed) (hq : (receive b s).rx.evQ = []) :
    rxByte b s = receive b s := by
  rw [rxByte_of_open ho, drain_nil _ hq]

theorem rxByte_of_event {e : Event} (ho : s.sess.sessState ≠ .closed) (hq : (receive b s).rx.evQ = [e]) :
    rxByte b s = sessionEvent e (eventsTaken (receive b s)) := by
  rw [rxByte_of_open ho, hq, List.length_singleton, drain_singleton hq]

/-- The operation `deframe_step` is the step `RX_BYTE` begins with, but for what it returns. -/
theorem exec_deframeStep_eq_receive (b : Byte) (s : State) :
    exec (.deframeStep b) s = .next (answer .none (receive b s)) := rfl

/-- The operation `session_event` does the same whatever the last operation returned. -/
theorem exec_sessionEvent_answer (e : Event) (r : Result) (s : State) :
    exec (.sessionEvent e) (answer r s) = .next (answer .none (sessionEvent e s)) := by
  have hexec : exec (.sessionEvent e) (answer r s) = .next (answer .none (sessionEvent e (answer r s))) := rfl
  rw [hexec, sessionEvent_answer]
  rfl

end Sys2Proof.Machine

namespace Sys2Proof.Proofs

open Sys2Proof.Machine

/-- Settles O41: a deframer step emits no event or one (`deframeStep_outcome`), and the reaction to it does not read what the
step returned (`sessionEvent_answer`). -/
theorem receivedByteIsStepThenReaction : Obligations.ReceivedByteIsStepThenReaction := by
  intro s b
  have hexec : exec (.rxByte b) s = .next (answer .none (rxByte b s)) := rfl
  rw [hexec]
  refine ⟨fun hc => ?_, fun ho hempty => ⟨_, exec_deframeStep_eq_receive b s, ?_⟩⟩
  · rw [rxByte_of_closed hc]
    rfl
  · have hevents : (receive b s).rx.evQ = [] ∨ ∃ e, (receive b s).rx.evQ = [e] := by
      simpa [receive, hempty] using (deframeStep_outcome s.cfg b s.rx).evQ
    rcases hevents with hq | ⟨e, hq⟩
    · rw [rxByte_of_silent ho hq]
      exact .inl ⟨hq, rfl⟩
    · rw [rxByte_of_event ho hq]
      exact .inr ⟨e, _, hq, rfl, sessionEvent_evQ_eq_nil e rfl,
        exec_sessionEvent_answer e .none (eventsTaken (receive b s))⟩

end Sys2Proof.Proofs
end

section
/-! SUPPORT. Negative results in a row (42_session.md R186; 60_exceptions.md R227): each is counted and retransmits the stored
frame, until the limit. -/

namespace Sys2Proof.Machine

variable {s t : State} {f : List Byte}

/-! ### Runs of operations -/

theorem execAll_cons {i : Instr} (is : List Instr) (h : exec i s = .next t) : execAll (i :: is) s = execAll is t := by
  simp [execAll, h]

theorem execAll_append {is : List Instr} (js : List Instr) (h : execAll is s = .next t) :
    execAll (is ++ js) s = execAll js t := by
  induction is generalizing s with
  | nil => rw [List.nil_append, eq_of_next h]
  | cons i is ih =>
    rw [List.cons_append]
    cases hi : exec i s with
    | next u =>
      rw [execAll_cons _ hi] at h ⊢
      exact ih h
    | fault r => simp [execAll, hi] at h
    | refused r => simp [execAll, hi] at h

/-! ### Retransmissions in a row -/

/-- The state after `n` retransmissions of `f` (R186): `retriedWith`, so many times. -/
def retriedTimes (n : Nat) (f : List Byte) (s : State) : State :=
  { s with
    sess := { s.sess with retryCount := s.sess.retryCount + n }
    txFifo := s.txFifo ++ (List.replicate n f).flatten }

theorem retriedTimes_zero (f : List Byte) (s : State) : retriedTimes 0 f s = s := by simp [retriedTimes]

theorem retriedTimes_succ (n : Nat) (f : List Byte) (s : State) :
    retriedTimes (n + 1) f s = retriedTimes n f (retriedWith f s) := by
  simp [retriedTimes, retriedWith, List.replicate_succ, Nat.add_comm, Nat.add_left_comm]

/-- Negative results up to the limit retransmit the stored frame, each once. -/
theorem execAll_negativeResults {results : List Instr} (hneg : ∀ i ∈ results, i = .evNack ∨ i = .hTimeout)
    (hp : s.sess.sessState = .ackPending) (hf : s.sess.txStored = some f)
    (hle : s.sess.retryCount + results.length ≤ s.cfg.maxRetries) :
    ∃ r, execAll results s = .next (answer r (retriedTimes results.length f s)) := by
  induction results generalizing s with
  | nil => exact ⟨s.result, congrArg Host.Outcome.next (retriedTimes_zero f s).symm⟩
  | cons i results ih =>
    rw [List.length_cons] at hle
    obtain ⟨hi, hrest⟩ := List.forall_mem_cons.mp hneg
    obtain ⟨r, hexec⟩ := exec_negativeResult hi hp
    rw [retryOrFail_of_stored hf (by omega)] at hexec
    have hle' : s.sess.retryCount + 1 + results.length ≤ s.cfg.maxRetries := by omega
    obtain ⟨r', hall⟩ := ih (s := answer r (retriedWith f s)) hrest hp hf hle'
    refine ⟨r', ?_⟩
    rw [execAll_cons _ hexec, hall, List.length_cons, retriedTimes_succ]
    rfl

end Sys2Proof.Machine

namespace Sys2Proof.Proofs

open Sys2Proof.Machine

/-- Settles O60: up to the limit by `execAll_negativeResults`; one more result than that meets `retry_or_fail` at its limit. -/
theorem retryLimitClosesTheSession : Obligations.RetryLimitClosesTheSession := by
  intro s f results hneg hp hf hzero
  constructor
  · intro hle
    obtain ⟨r, hall⟩ := execAll_negativeResults hneg hp hf (by omega)
    exact ⟨_, hall, by simp [retriedTimes, hzero], rfl⟩
  · intro hlen
    obtain ⟨front, last, rfl⟩ : ∃ front last, results = front ++ [last] :=
      ⟨_, _, (List.dropLast_concat_getLast (List.ne_nil_of_length_eq_add_one hlen)).symm⟩
    have hfront : front.length = s.cfg.maxRetries := by simpa using hlen
    obtain ⟨r, hall⟩ := execAll_negativeResults (results := front) (fun i hi => hneg i (by simp [hi])) hp hf (by omega)
    obtain ⟨r', hlast⟩ := exec_negativeResult (s := answer r (retriedTimes front.length f s)) (hneg last (by simp)) hp
    have hlimit : s.cfg.maxRetries ≤ s.sess.retryCount + front.length := by omega
    rw [retryOrFail_of_ge hlimit] at hlast
    refine ⟨_, (execAll_append [last] hall).trans (execAll_cons [] hlast), rfl, rfl, ?_, rfl⟩
    show s.sess.retryCount + front.length = s.cfg.maxRetries
    omega

end Sys2Proof.Proofs
end

section
/-! SUPPORT. No-acknowledgment mode (42_session.md R200): what the block's operations do in `NO_ACK`. -/

namespace Sys2Proof.Machine

variable {s : State}

/-! ### The reactions in `NO_ACK` -/

theorem signalIfAckMode_of_noAck (b : Byte) (hn : s.sess.sessState = .noAck) : signalIfAckMode b s = s := by
  simp [signalIfAckMode, ackMode, hn]

/-- In `NO_ACK` a reaction at most delivers to the host. -/
theorem sessionEvent_of_noAck (e : Event) (hn : s.sess.sessState = .noAck) :
    ∃ q, sessionEvent e s = { s with hostQ := q } := by
  have hp : s.sess.sessState ≠ .ackPending := by simp [hn]
  cases e with
  | ack => exact ⟨s.hostQ, evAck_of_ne_ackPending hp⟩
  | nack => exact ⟨s.hostQ, evNack_of_ne_ackPending hp⟩
  | packet p => exact ⟨_, congrArg (deliver (.packet p)) (signalIfAckMode_of_noAck 0x2B hn)⟩
  | reject c => exact ⟨s.hostQ, signalIfAckMode_of_noAck 0x2D hn⟩
  | interrupt => exact ⟨_, rfl⟩

/-- In `NO_ACK` a received byte changes the deframer and the host's queue only. -/
theorem rxByte_of_noAck (h : BlockInv s) (b : Byte) (hn : s.sess.sessState = .noAck) :
    ∃ d q, rxByte b s = { s with rx := d, hostQ := q } := by
  rcases rxByte_reaction_cases h b with ⟨d, he⟩ | ⟨e, d, he, -⟩
  · exact ⟨d, s.hostQ, he⟩
  · obtain ⟨q, hq⟩ := sessionEvent_of_noAck (s := { s with rx := d }) e hn
    exact ⟨d, q, he.trans hq⟩

/-! ### The host's operations in `NO_ACK` -/

theorem hSend_sess_of_noAck (p : List Byte) (hn : s.sess.sessState = .noAck) : (hSend p s).sess = s.sess := by
  rcases hSend_cases p s with ⟨-, he⟩ | ⟨-, he⟩ | ⟨-, -, he⟩ | ⟨hi, -⟩ | ⟨-, -, he⟩
  · rw [he, answer_sess]
  · rw [he, answer_sess]
  · rw [he, answer_sess]
  · simp [hn] at hi
  · rw [he, answer_sess, transmit_sess]

theorem hSetNoack_of_noAck (hn : s.sess.sessState = .noAck) : hSetNoack s = answer (.status .ok) s := by
  simp [hSetNoack, hn]

@[simp] theorem hSetRle_sessState (v : Bool) (s : State) : (hSetRle v s).sess.sessState = s.sess.sessState := by
  rcases hSetRle_cases v s with ⟨-, he⟩ | ⟨-, he⟩ <;> simp [he]

/-- The session's registers that R200 fixes while `NO_ACK` lasts follow from R43 (6) and (10). -/
theorem BlockInv.nothing_outstanding (h : BlockInv s) (hn : s.sess.sessState = .noAck) :
    s.sess.retryCount = 0 ∧ s.sess.txStored = none :=
  ⟨h.retry_zero (.inr hn), h.session.txStored_eq_none (by simp [hn])⟩

end Sys2Proof.Machine

namespace Sys2Proof.Proofs

open Sys2Proof.Machine

/-- Settles O56: each operation stays in `NO_ACK`, where R43 leaves nothing stored and nothing counted
(`BlockInv.nothing_outstanding`). -/
theorem noAckModeIsPermanent : Obligations.NoAckModeIsPermanent := by
  intro i s t hb h hn hlink hreset he
  have ht : BlockInv t := h.exec i hb he
  suffices hstays : t.sess.sessState = .noAck ∧
      (t.txFifo = s.txFifo ∨ (i = .txPop ∧ t.txFifo = s.txFifo.tail) ∨
        ∃ p, i = .hSend p ∧ t.txFifo = s.txFifo ++ encodeFrame p s.sess.txRleEn) by
    obtain ⟨hnoAck, hfifo⟩ := hstays
    obtain ⟨hcount, hstored⟩ := ht.nothing_outstanding hnoAck
    exact ⟨hnoAck, hcount, hstored, hfifo⟩
  cases i with
  | hStatus | hReserved7 | hReserved8F | hRecv =>
    obtain rfl := eq_of_next he
    exact ⟨hn, .inl rfl⟩
  | txPop =>
    obtain rfl := eq_of_next he
    exact ⟨hn, .inr (.inl ⟨rfl, rfl⟩)⟩
  | hSetNoack =>
    obtain rfl := eq_of_next he
    rw [hSetNoack_of_noAck hn]
    exact ⟨hn, .inl rfl⟩
  | hTimeout =>
    obtain rfl := eq_of_next he
    rw [hTimeout_of_idle_or_noAck (.inr hn)]
    exact ⟨hn, .inl rfl⟩
  | hSetRle v =>
    obtain rfl := eq_of_next he
    exact ⟨(hSetRle_sessState v s).trans hn, .inl (hSetRle_txFifo v s)⟩
  | hSend p =>
    obtain rfl := eq_of_next he
    exact ⟨by rw [hSend_sess_of_noAck p hn, hn], (hSend_txFifo p s).imp_right fun hq => .inr ⟨p, rfl, hq⟩⟩
  | rxByte b =>
    obtain rfl := eq_of_next he
    obtain ⟨d, q, hrx⟩ := rxByte_of_noAck h b hn
    rw [hrx]
    exact ⟨hn, .inl rfl⟩
  | hLinkDown => exact absurd rfl hlink
  | reset => exact absurd rfl hreset
  | _ => cases hb

end Sys2Proof.Proofs
end

section
/-! SUPPORT. What an operation cannot do (60_exceptions.md R229, R237, R240): fail to return, refuse and change something, and,
for a received byte, reach what is the host's alone. -/

namespace Sys2Proof.Machine

variable {s t : State} {cfg : Config} {m m' : Session}

/-! ### Refusals (R229) -/

/-- R229 between the state before an operation and the one it answers: a status other than `OK` is all that is new. -/
def RefusesUnchanged (s t : State) : Prop :=
  ∀ st, t.result = .status st → st ≠ .ok → t = answer (.status st) s

namespace RefusesUnchanged

/-- An operation that returns no status refuses nothing. -/
theorem of_no_status (h : ∀ st, t.result ≠ .status st) : RefusesUnchanged s t :=
  fun st hst _ => absurd hst (h st)

theorem of_ok (h : t.result = .status .ok) : RefusesUnchanged s t := by
  intro st hst hne
  rw [h, Result.status.injEq] at hst
  exact absurd hst.symm hne

/-- An operation that only answers a status changes nothing else, whichever status it is. -/
theorem answer_status (st : Status) (s : State) : RefusesUnchanged s (answer (.status st) s) := by
  intro st' hst _
  rw [answer_result] at hst
  rw [hst]

theorem hSend (p : List Byte) (s : State) : RefusesUnchanged s (hSend p s) := by
  rcases hSend_cases p s with ⟨-, he⟩ | ⟨-, he⟩ | ⟨-, -, he⟩ | ⟨-, -, he⟩ | ⟨-, -, he⟩ <;> rw [he]
  · exact answer_status _ s
  · exact answer_status _ s
  · exact answer_status _ s
  · exact of_ok rfl
  · exact of_ok rfl

theorem hSetNoack (s : State) : RefusesUnchanged s (hSetNoack s) := by
  rcases hSetNoack_cases s with ⟨-, he⟩ | ⟨-, he⟩ | ⟨-, he⟩ | ⟨-, he⟩ <;> rw [he]
  · exact answer_status _ s
  · exact of_ok rfl
  · exact of_ok rfl
  · exact of_ok rfl

theorem hTimeout (s : State) : RefusesUnchanged s (hTimeout s) := by
  rcases hTimeout_cases s with ⟨-, he⟩ | ⟨-, he⟩ | ⟨-, he⟩ <;> rw [he]
  · exact answer_status _ s
  · exact of_ok rfl
  · exact of_ok rfl

theorem hLinkDown (s : State) : RefusesUnchanged s (hLinkDown s) := by
  rcases hLinkDown_cases s with ⟨-, he⟩ | ⟨-, he⟩ <;> rw [he]
  · exact of_ok rfl
  · exact of_ok rfl

theorem hSetRle (v : Bool) (s : State) : RefusesUnchanged s (hSetRle v s) := by
  rcases hSetRle_cases v s with ⟨-, he⟩ | ⟨-, he⟩ <;> rw [he]
  · exact answer_status _ s
  · exact of_ok rfl

/-- A step of `PUSH` returns nothing, with bytes left or without. -/
theorem pushByte (chunk : List Byte) (s : State) : RefusesUnchanged s (pushByte chunk s) := by
  have hnone : (Machine.pushByte chunk s).result = .none := by
    cases chunk with
    | nil => rfl
    | cons b rest => rw [Machine.pushByte, pushRest_result, onRx_result]
  exact of_no_status fun st => by simp [hnone]

/-- Only the host operations return a status; `H_STATUS` and `H_RECV` among them return a record and an item. -/
theorem exec (i : Instr) (he : exec i s = .next t) : RefusesUnchanged s t := by
  cases i with
  | hSend p => exact of_next (hSend p s) he
  | hSetNoack => exact of_next (hSetNoack s) he
  | hTimeout => exact of_next (hTimeout s) he
  | hLinkDown => exact of_next (hLinkDown s) he
  | hSetRle v => exact of_next (hSetRle v s) he
  | hReserved7 | hReserved8F => exact of_next (answer_status .badOp s) he
  | push chunk => exact of_next (pushByte chunk s) he
  | _ =>
    obtain rfl := eq_of_next he
    exact of_no_status nofun

end RefusesUnchanged

/-! ### What a received byte does to the session (R237) -/

/-- What the session's reaction to an event can make of its registers `m` (R182 to R188): only with a frame outstanding does it
change them, and it closes the session at the retry limit only. -/
inductive SessionReaction (cfg : Config) (m : Session) : Session → Prop
  | kept : SessionReaction cfg m m
  | settled (hp : m.sessState = .ackPending) :
      SessionReaction cfg m
        { m with
          sessState := if m.noackArmed then .noAck else .idle
          noackArmed := false, txStored := none, retryCount := 0 }
  | retried (hp : m.sessState = .ackPending) : SessionReaction cfg m { m with retryCount := m.retryCount + 1 }
  | exhausted (hp : m.sessState = .ackPending) (hge : cfg.maxRetries ≤ m.retryCount) :
      SessionReaction cfg m
        { m with
          sessState := .closed, fatalCause := some .retryExhausted, txStored := none, noackArmed := false }

theorem retryOrFail_sessionReaction (hp : s.sess.sessState = .ackPending) :
    SessionReaction s.cfg s.sess (retryOrFail s).sess := by
  rcases retryOrFail_cases s with ⟨hge, he⟩ | ⟨-, he⟩ <;> rw [he]
  · exact .exhausted hp hge
  · rw [retransmit_sess]
    exact .retried hp

theorem sessionEvent_sessionReaction (e : Event) (s : State) :
    SessionReaction s.cfg s.sess (sessionEvent e s).sess := by
  cases e with
  | ack =>
    rcases evAck_cases s with ⟨hp, he⟩ | ⟨-, he⟩ <;> rw [sessionEvent, he]
    · exact .settled hp
    · exact .kept
  | nack =>
    rcases evNack_cases s with ⟨hp, he⟩ | ⟨-, he⟩ <;> rw [sessionEvent, he]
    · exact retryOrFail_sessionReaction hp
    · exact .kept
  | packet p =>
    rw [sessionEvent, evPacket, deliver_sess, signalIfAckMode_sess]
    exact .kept
  | reject c =>
    rw [sessionEvent, evReject, signalIfAckMode_sess]
    exact .kept
  | interrupt => exact .kept

/-- A received byte does to the session what the reaction to at most one event does. -/
theorem rxByte_sessionReaction (h : BlockInv s) (b : Byte) : SessionReaction s.cfg s.sess (rxByte b s).sess := by
  rcases rxByte_reaction_cases h b with ⟨d, he⟩ | ⟨e, d, he, -⟩ <;> rw [he]
  · exact .kept
  · exact sessionEvent_sessionReaction e { s with rx := d }

namespace SessionReaction

theorem txRleEn_eq (h : SessionReaction cfg m m') : m'.txRleEn = m.txRleEn := by
  cases h <;> rfl

/-- `NO_ACK` is entered by the settling reaction alone, and from an armed session. -/
theorem noAck_or_armed (h : SessionReaction cfg m m') (hn : m'.sessState = .noAck) :
    m.sessState = .noAck ∨ m.noackArmed = true := by
  cases h with
  | kept | retried => exact .inl hn
  | settled => exact .inr (by simpa using hn)
  | exhausted => cases hn

/-- The one cause a reaction writes is `RETRY_EXHAUSTED`. -/
theorem linkDown_of_linkDown (h : SessionReaction cfg m m') (hl : m'.fatalCause = some .linkDown) :
    m.fatalCause = some .linkDown := by
  cases h with
  | kept | settled | retried => exact hl
  | exhausted => cases hl

/-- `CLOSED` is entered from `ACK_PENDING` at the limit alone; R43 (10) makes the limit exact. -/
theorem closed_or_exhausted (h : SessionReaction cfg m m') (hbound : m.retryCount ≤ cfg.maxRetries)
    (hc : m'.sessState = .closed) :
    m.sessState = .closed ∨ (m.sessState = .ackPending ∧ m.retryCount = cfg.maxRetries) := by
  cases h with
  | kept | retried => exact .inl hc
  | settled =>
    dsimp only at hc
    split_ifs at hc
  | exhausted hp hge => exact .inr ⟨hp, Nat.le_antisymm hbound hge⟩

end SessionReaction

end Sys2Proof.Machine

namespace Sys2Proof.Proofs

open Sys2Proof.Machine

/-- Settles O4: of each of the 53 operations, the arm of `exec` is a next state by its definition. -/
theorem everyOperationAnswersANextState : Obligations.EveryOperationAnswersANextState := by
  intro i s
  cases i <;> exact ⟨_, rfl⟩

/-- Settles O40, by the refusals of each operation (`RefusesUnchanged.exec`). -/
theorem refusalsChangeNothing : Obligations.RefusalsChangeNothing :=
  fun i _ _ st he => RefusesUnchanged.exec i he st

/-- Settles O57: R237 read off the four things a reaction can make of the session's registers (`rxByte_sessionReaction`). -/
theorem peerBytesHaveLimitedEffect : Obligations.PeerBytesHaveLimitedEffect := by
  intro s t b h he
  obtain rfl := eq_of_next he
  have hreact : SessionReaction s.cfg s.sess (rxByte b s).sess := rxByte_sessionReaction h b
  exact ⟨hreact.txRleEn_eq, hreact.noAck_or_armed, hreact.linkDown_of_linkDown,
    hreact.closed_or_exhausted h.session.retry_bound⟩

end Sys2Proof.Proofs
end
